-- ==== Sys2Proof/Word.lean ====
section
/-! DEFINITION. The words and the address spaces of the machine (00_scope.md R6, R8; 10_state.md R45; 20_memory.md R47). -/

namespace Sys2Proof

/-- A 32-bit register or command word (R18, R65). -/
abbrev Word := BitVec 32

/-- An element of CDATA (R40). -/
abbrev Byte := BitVec 8

/-- A colour index (R6: 8 bits). -/
abbrev Index := BitVec 8

/-- A 12-bit LZW code as a read returns it (R77). -/
abbrev Code := BitVec 12

/-- A colour-table entry, R, G and B from bit 23 down (R45). -/
abbrev Rgb := BitVec 24

/-- A pixel, A, R, G and B from bit 31 down (R45). -/
abbrev Pixel := BitVec 32

/-- A raster entry: bit 8 is the NONE flag, bits 7:0 a colour index (R43). -/
abbrev RasterEntry := BitVec 9

/-- The eight address spaces (R47). -/
inductive Space where
  | reg
  | cdata
  | ctab
  | dict
  | raster
  | canvas
  | prev
  | snap
deriving DecidableEq, Repr

end Sys2Proof
end

