-- ==== Sys2Proof/Config.lean ====
section
/-! DEFINITION. The fixed and the open parameters (00_scope.md R6, R7; 92_eei_decisions.md D8). -/

namespace Sys2Proof.Config

/-- ID's constant: 'L', 'Z', 'W' and command-set version 1 (R19). -/
def idValue : Word := 0x4C5A5701

/-- DICT_SLOTS (R6). -/
def dictSlots : Nat := 4096

/-- MAX_CODE_BITS (R6). -/
def maxCodeBits : Nat := 12

/-- MAX_COLORS, the number of CTAB entries (R6, R41). -/
def maxColors : Nat := 256

/-- CDATA_MAX, open (R7): an opaque constant, so nothing can be proved about its value (log 1). -/
opaque cdataMax : Nat

/-- RASTER_MAX, open (R7, log 1). -/
opaque rasterMax : Nat

/-- CANVAS_MAX, open (R7, log 1). -/
opaque canvasMax : Nat

/-- PLATFORM_BASE, open: where each space sits in a platform's physical address map (R57).
No rule reads it (log 18). -/
opaque platformBase : Space → Nat

end Sys2Proof.Config
end

