-- ==== Sys2Proof/Machine/State.lean ====
section
/-! DEFINITION. The state of the machine, its faults and refusals, and the state after hardware reset
(10_state.md; 20_memory.md R47, R50; 70_reset_and_hazards.md R138). -/

namespace Sys2Proof.Machine

/-- The contents of an element-indexed space: (index, element) pairs.
An index that is not listed has never been written since hardware reset (R50). -/
abbrev Memory (α : Type) := List (Nat × α)

/-- The one canonical form of a memory: indices strictly rising.
An unlisted index reads as no value, so no listed element can equal it. -/
abbrev Memory.wf {α : Type} (m : Memory α) : Prop := m.Pairwise (fun p q => p.1 < q.1)

/-- Every listed index lies below the space's capacity `cap` (R47). -/
abbrev Memory.within {α : Type} (m : Memory α) (cap : Nat) : Prop := ∀ p ∈ m, p.1 < cap

/-- A non-empty sequence of colour indices: its first index and the rest (R9, R42). -/
structure IndexSeq where
  first : Index
  rest : List Index
deriving DecidableEq, Repr

/-- What a written DICT slot holds: a CLEAR or END slot, or a sequence (R42).
The third value, Empty, is an unlisted slot (log 3). -/
inductive Slot where
  | control
  | seq (s : IndexSeq)
deriving DecidableEq, Repr

/-- The implementation's capacities, arguments of the model (R7, log 1). -/
structure Capacities where
  cdataMax : Nat
  rasterMax : Nat
  canvasMax : Nat
deriving DecidableEq, Repr

/-- STATUS.ERR: 0 none, 1 ILLEGAL, 2 NOT_INIT, 3 BAD_PARAM, 4 BAD_CODE; 5 to 15 are never produced (R21, R124). -/
inductive ErrCode where
  | none
  | illegal
  | notInit
  | badParam
  | badCode
deriving DecidableEq, Repr

/-- STATUS.END_REASON: 0 none, 1 END, 2 OUTPUT_FULL, 3 READ_OOB, 4 BAD_CODE; 5 to 15 are never produced (R21, R90). -/
inductive EndReason where
  | none
  | endCode
  | outputFull
  | readOob
  | badCode
deriving DecidableEq, Repr

/-- The stored fields of STATUS (R21); BUSY is `State.busy`. -/
structure Status where
  done : Bool
  ovr : Bool
  brOob : Bool
  err : ErrCode
  endReason : EndReason
  brRdy : Bool
  ctRdy : Bool
  compRdy : Bool
deriving DecidableEq, Repr

/-- A width and a height of 16 bits each: CANVAS_SIZE, FR_SIZE, COMP_CSIZE (R22, R24, R39). -/
structure Size where
  w : BitVec 16
  h : BitVec 16
deriving DecidableEq, Repr

/-- FR_POS: the frame's left and top edges (R23). -/
structure Pos where
  x : BitVec 16
  y : BitVec 16
deriving DecidableEq, Repr

/-- FR_CTRL without its reserved bits, which read 0 and ignore writes (R25). -/
structure FrCtrl where
  interlaced : Bool
  transp : Bool
  disposal : BitVec 3
  tidx : Index
  minCode : BitVec 8
deriving DecidableEq, Repr

/-- The Bit Reader: cursor, next read width n, BR_DATA and the latched length BL (R28 to R31). -/
structure BitReader where
  cursor : Nat
  nbits : Nat
  data : Code
  len : Nat
deriving DecidableEq, Repr

/-- CT_LOOKUP.KIND: 0 not valid, 1 sequence entry, 2 control entry; 3 is never produced (R36). -/
inductive LookupKind where
  | notValid
  | sequence
  | control
deriving DecidableEq, Repr

/-- The CT_LOOKUP register without its reserved bit (R36). -/
structure Lookup where
  len : BitVec 13
  kind : LookupKind
  first : Index
  last : Index
deriving DecidableEq, Repr

/-- The Code Table's registers: codeSize, nextCode, nextCodeLimit, the latched m and nc, and CT_LOOKUP (R32 to R36). -/
structure CodeTable where
  codeSize : Nat
  nextCode : Nat
  limit : Nat
  minCode : Nat
  numColors : Nat
  lookup : Lookup
deriving DecidableEq, Repr

/-- The Rasterizer's registers: outPos, and RAST_PREV's CODE and PV (R37, R38). -/
structure Rasterizer where
  outPos : Nat
  prev : Code
  pv : Bool
deriving DecidableEq, Repr

/-- One Host access to an address space: element `i` at `n` bits (R48, R49).
A written value lies in the low `n` bits of `v` (log 14). -/
inductive HostAccess where
  | write (sp : Space) (i n : Nat) (v : Word)
  | read (sp : Space) (i n : Nat)
deriving DecidableEq, Repr

/-- One place in the total order of a run: a Host access or the engine's step (R60). -/
inductive Turn where
  | host (a : HostAccess)
  | engine
deriving DecidableEq, Repr

/-- The machine's state. -/
structure State where
  /-- CDATA_MAX, RASTER_MAX, CANVAS_MAX (R7) -/
  caps : Capacities
  /-- the pending command; STATUS.BUSY is 1 exactly when there is one (R15, R21, log 9) -/
  pending : Option Word
  /-- STATUS (R21) -/
  status : Status
  /-- CANVAS_SIZE (R22) -/
  canvasSize : Size
  /-- FR_POS (R23) -/
  frPos : Pos
  /-- FR_SIZE (R24) -/
  frSize : Size
  /-- FR_CTRL (R25) -/
  frCtrl : FrCtrl
  /-- FR_DLEN (R26) -/
  frDlen : Word
  /-- NUM_COLORS (R27) -/
  numColors : BitVec 9
  /-- BR_CURSOR, BR_NBITS, BR_DATA, BR_LEN (R28 to R31) -/
  br : BitReader
  /-- CT_CODESIZE, CT_NEXTCODE, CT_LIMIT, CT_CFG, CT_LOOKUP (R32 to R36) -/
  ct : CodeTable
  /-- RAST_OUTPOS, RAST_PREV (R37, R38) -/
  rast : Rasterizer
  /-- COMP_CSIZE (R39) -/
  compSize : Size
  /-- CDATA (R40) -/
  cdata : Memory Byte
  /-- CTAB (R41) -/
  ctab : Memory Rgb
  /-- DICT (R42) -/
  dict : Memory Slot
  /-- RASTER (R43) -/
  raster : Memory RasterEntry
  /-- CANVAS (R44) -/
  canvas : Memory Pixel
  /-- PREV (R44) -/
  prev : Memory Pixel
  /-- SNAP (R44) -/
  snap : Memory Pixel
  /-- the model's own: the Host accesses and engine steps to come (log 4) -/
  turns : List Turn
  /-- the model's own: the values the Host's reads returned, newest first (log 4) -/
  hostReads : List Word
deriving DecidableEq, Repr

/-- The model faults. -/
inductive Fault where
  /-- A read, by the Host or by a command, of element `i` of space `sp`, never written since hardware reset (R50, R127).
  Safe: the chip returns some value, which the model refuses to name. -/
  | unwrittenRead (sp : Space) (i : Nat)
  /-- The decode loop needs the sequence of `code` and its slot is a control slot.
  No run reaches it (R83). Safe: the model stops (log 12). -/
  | noSequence (code : Nat)
  /-- The decode loop outruns the bound of R102.
  No decode reaches it. Safe: the model stops (log 10). -/
  | decodeUnbounded
deriving DecidableEq, Repr

/-- The model's refusals. -/
inductive Refusal where
  /-- `exec` has no meaning for the command with this mnemonic yet. No arm of `exec` raises it. Safe. -/
  | notModelled (mnemonic : String)
  /-- The Host's turn is an access that R48 or R49 does not admit: "the model gives the Host no such move" (R127).
  Raised by `hostTurn`. Safe (log 6). -/
  | hostAccessNotAdmitted
  /-- The Host's turn comes while BUSY = 1 and is neither a read of STATUS nor a write of CMD (R59).
  Raised by `hostTurn`. Unsafe if a real Host makes such an access, as R59 says (log 6). -/
  | hostAccessWhileBusy
deriving DecidableEq, Repr

/-- STATUS after hardware reset: 0 (R138). -/
def Status.reset : Status :=
  { done := false, ovr := false, brOob := false, err := .none, endReason := .none,
    brRdy := false, ctRdy := false, compRdy := false }

/-- The Bit Reader's registers after reset: 0 (R138). -/
def BitReader.reset : BitReader := { cursor := 0, nbits := 0, data := 0, len := 0 }

/-- The CT_LOOKUP register's value 0 (R138, R89). -/
def Lookup.zero : Lookup := { len := 0, kind := .notValid, first := 0, last := 0 }

/-- The Code Table's registers after reset: 0 (R138). -/
def CodeTable.reset : CodeTable :=
  { codeSize := 0, nextCode := 0, limit := 0, minCode := 0, numColors := 0, lookup := .zero }

/-- The Rasterizer's registers after reset: 0 (R138). -/
def Rasterizer.reset : Rasterizer := { outPos := 0, prev := 0, pv := false }

/-- FR_CTRL after reset: 0 (R138). -/
def FrCtrl.reset : FrCtrl := { interlaced := false, transp := false, disposal := 0, tidx := 0, minCode := 0 }

/-- The state after hardware reset: idle, every register 0 but ID, every memory element unwritten (R138). -/
def State.reset : State :=
  { caps := ⟨Config.cdataMax, Config.rasterMax, Config.canvasMax⟩
    pending := none
    status := .reset
    canvasSize := ⟨0, 0⟩
    frPos := ⟨0, 0⟩
    frSize := ⟨0, 0⟩
    frCtrl := .reset
    frDlen := 0
    numColors := 0
    br := .reset
    ct := .reset
    rast := .reset
    compSize := ⟨0, 0⟩
    cdata := []
    ctab := []
    dict := []
    raster := []
    canvas := []
    prev := []
    snap := []
    turns := []
    hostReads := [] }

end Sys2Proof.Machine
end

