-- ==== Sys2Proof/Machine/Flags.lean ====
section
/-! DEFINITION. STATUS: its fields as software reads them, and the updates commands and the Host make to it
(10_state.md R15 to R17, R21; 42_rasterizer.md R90). -/

namespace Sys2Proof.Machine

/-- STATUS.BUSY: a command is pending (R15, R21). -/
def State.busy (s : State) : Bool := s.pending.isSome

/-- The 4-bit code of an error (R21, R124). -/
def ErrCode.bits : ErrCode → BitVec 4
  | .none => 0
  | .illegal => 1
  | .notInit => 2
  | .badParam => 3
  | .badCode => 4

/-- The 4-bit code of an end reason (R21, R90). -/
def EndReason.bits : EndReason → BitVec 4
  | .none => 0
  | .endCode => 1
  | .outputFull => 2
  | .readOob => 3
  | .badCode => 4

/-- STATUS as the Host reads it: the fields of R21 in their places, from bit 31 down, bits 31:15 zero. -/
def State.statusWord (s : State) : Word :=
  (0#17 ++ BitVec.ofBool s.status.compRdy ++ BitVec.ofBool s.status.ctRdy ++ BitVec.ofBool s.status.brRdy
    ++ s.status.endReason.bits ++ s.status.err.bits
    ++ BitVec.ofBool s.status.brOob ++ BitVec.ofBool s.status.ovr ++ BitVec.ofBool s.status.done ++ BitVec.ofBool s.busy).setWidth 32

/-- STATUS.ERR <- `e`. -/
def State.withErr (s : State) (e : ErrCode) : State := { s with status := { s.status with err := e } }

/-- STATUS.BR_OOB <- 1 (R77). -/
def State.withOob (s : State) : State := { s with status := { s.status with brOob := true } }

/-- `finish(reason)`: STATUS.END_REASON <- `r` (R90). -/
def State.finish (s : State) (r : EndReason) : State := { s with status := { s.status with endReason := r } }

/-- Latch `w` as the pending command: BUSY <- 1, DONE <- 0, ERR <- 0, OVR <- 0 (R15). -/
def State.latch (s : State) (w : Word) : State :=
  { s with pending := some w, status := { s.status with done := false, ovr := false, err := .none } }

/-- A CMD write while BUSY = 1: OVR <- 1 and nothing else (R16). -/
def State.overrun (s : State) : State := { s with status := { s.status with ovr := true } }

/-- A Host write of `w` to CMD (R15, R16, R20). -/
def State.issue (s : State) (w : Word) : State := if s.busy then s.overrun else s.latch w

/-- Completion: BUSY <- 0, DONE <- 1; the command word is not kept (R17, R124). -/
def State.complete (s : State) : State := { s with pending := none, status := { s.status with done := true } }

end Sys2Proof.Machine
end

