-- ==== Sys2Proof/Machine/Operands.lean ====
section
/-! DEFINITION. What the commands take as inputs: register fields as natural numbers, the checks on them, codes and their
classes, sequences, and the pixel loops' indices (30_encoding.md R66, R74; 41_codetable.md R82; 43_compositor.md R109). -/

namespace Sys2Proof.Machine

/-- `m`, FR_CTRL.MINCODE, as CT_INIT and the decode read it (R86). -/
def State.inMinCode (s : State) : Nat := s.frCtrl.minCode.toNat

/-- `nc`, NUM_COLORS.NC (R86, R107). -/
def State.inColors (s : State) : Nat := s.numColors.toNat

/-- `L`, FR_DLEN.L (R79). -/
def State.inLen (s : State) : Nat := s.frDlen.toNat

/-- `W`, FR_SIZE.W. -/
def State.frameW (s : State) : Nat := s.frSize.w.toNat

/-- `H`, FR_SIZE.H. -/
def State.frameH (s : State) : Nat := s.frSize.h.toNat

/-- `P = W*H`, an exact product (R121). -/
def State.framePixels (s : State) : Nat := s.frameW * s.frameH

/-- `X`, FR_POS.X. -/
def State.frameX (s : State) : Nat := s.frPos.x.toNat

/-- `Y`, FR_POS.Y. -/
def State.frameY (s : State) : Nat := s.frPos.y.toNat

/-- `CW`, COMP_CSIZE.CW. -/
def State.canvasW (s : State) : Nat := s.compSize.w.toNat

/-- `CH`, COMP_CSIZE.CH. -/
def State.canvasH (s : State) : Nat := s.compSize.h.toNat

/-- `CW*CH`. -/
def State.canvasPixels (s : State) : Nat := s.canvasW * s.canvasH

/-- minCodeSize lies in 2 to 11 (R6, R86). -/
abbrev legalMinCode (m : Nat) : Prop := 2 ≤ m ∧ m ≤ 11

/-- The colour count is a power of two from 2 to 256 (R27, R86). -/
abbrev legalColors (nc : Nat) : Prop := nc ∈ [2, 4, 8, 16, 32, 64, 128, 256]

/-- FR_DLEN.L does not exceed CDATA_MAX (R79). -/
abbrev State.lenFits (s : State) : Prop := s.inLen ≤ s.caps.cdataMax

/-- W*H does not exceed RASTER_MAX (R105). -/
abbrev State.frameFits (s : State) : Prop := s.framePixels ≤ s.caps.rasterMax

/-- The checks RAST_DECODE and FRAME make on their parameters (R105, R116). -/
abbrev State.decodeParamsLegal (s : State) : Prop :=
  legalMinCode s.inMinCode ∧ legalColors s.inColors ∧ s.lenFits ∧ s.frameFits

/-- `clearCode = 2^m` (R35). -/
def CodeTable.clearCode (t : CodeTable) : Nat := 2 ^ t.minCode

/-- `endCode = 2^m + 1` (R35). -/
def CodeTable.endCode (t : CodeTable) : Nat := 2 ^ t.minCode + 1

/-- `lit = min(nc, clearCode)` (R74). -/
def CodeTable.lit (t : CodeTable) : Nat := min t.numColors t.clearCode

/-- `valid(c)`: below nextCode and no gap code (R82). -/
abbrev CodeTable.valid (t : CodeTable) (c : Nat) : Prop := c < t.nextCode ∧ ¬(t.lit ≤ c ∧ c < t.clearCode)

/-- The indices of a sequence, in order (R9). -/
def IndexSeq.toList (q : IndexSeq) : List Index := q.first :: q.rest

/-- `len(s)` (R9). -/
def IndexSeq.len (q : IndexSeq) : Nat := q.rest.length + 1

/-- `s[len(s)-1]` (R9). -/
def IndexSeq.last (q : IndexSeq) : Index := q.rest.getLastD q.first

/-- `s ++ [k]` (R9). -/
def IndexSeq.snoc (q : IndexSeq) (k : Index) : IndexSeq := { q with rest := q.rest ++ [k] }

/-- The one-index sequence `[k]` (R9). -/
def IndexSeq.single (k : Index) : IndexSeq := { first := k, rest := [] }

/-- The canvas index `cy*CW + cx` that frame pixel `(fx, fy)` lands on (R44, R109). -/
def State.canvasIndex (s : State) (fx fy : Nat) : Nat := (s.frameY + fy) * s.canvasW + (s.frameX + fx)

/-- Frame pixel `(fx, fy)` lands inside the canvas (R109). -/
abbrev State.inCanvas (s : State) (fx fy : Nat) : Prop :=
  s.frameX + fx < s.canvasW ∧ s.frameY + fy < s.canvasH

/-- The frame pixels `(fx, fy)` that take part: those inside the canvas, row by row (R109, R113). -/
def State.clippedPixels (s : State) : List (Nat × Nat) :=
  (List.range s.frameH).flatMap fun fy =>
    ((List.range s.frameW).map fun fx => (fx, fy)).filter fun p => s.inCanvas p.1 p.2

end Sys2Proof.Machine
end

