-- ==== Sys2Proof/Machine/Ops.lean ====
section
/-! DEFINITION. The operations every command shares: reading and writing memory elements (20_memory.md R47, R50),
and how a command ends: completed, refused, or stopped by a model fault (10_state.md R17; 60_exceptions.md R123, R127). -/

namespace Sys2Proof.Machine

/-- Element `i`, if it has been written. -/
def Memory.read {α : Type} : Memory α → Nat → Option α
  | [], _ => none
  | (j, v) :: m, i => if i = j then some v else Memory.read m i

/-- `MEM[i] <- v`, in the canonical form. -/
def Memory.write {α : Type} : Memory α → Nat → α → Memory α
  | [], i, v => [(i, v)]
  | (j, u) :: m, i, v =>
    if i < j then (i, v) :: (j, u) :: m
    else if i = j then (i, v) :: m
    else (j, u) :: Memory.write m i v

/-- Write a list of elements, the first one first. -/
def Memory.writeAll {α : Type} (m : Memory α) : List (Nat × α) → Memory α
  | [] => m
  | (i, v) :: ws => Memory.writeAll (Memory.write m i v) ws

/-- `for j in [0, n): MEM[j] <- v` (R10). -/
def Memory.fill {α : Type} (m : Memory α) (n : Nat) (v : α) : Memory α :=
  m.writeAll ((List.range n).map fun j => (j, v))

/-- Read element `i` of a space whose contents are `m`: an element never written is the fault UnwrittenRead (R50). -/
def fetch {α : Type} (sp : Space) (m : Memory α) (i : Nat) : Except Fault α :=
  match m.read i with
  | some v => .ok v
  | none => .error (.unwrittenRead sp i)

/-- Read the elements that a list of moves (destination, source) takes, in order. -/
def gather {α : Type} (sp : Space) (m : Memory α) : List (Nat × Nat) → Except Fault (List (Nat × α))
  | [] => .ok []
  | (d, i) :: moves =>
    match fetch sp m i with
    | .error f => .error f
    | .ok v =>
      match gather sp m moves with
      | .error f => .error f
      | .ok ws => .ok ((d, v) :: ws)

/-- `for j in [0, n): DST[j] <- SRC[j]`, where `sp` names the source space. -/
def copyTo {α : Type} (sp : Space) (src dst : Memory α) (n : Nat) : Except Fault (Memory α) :=
  match gather sp src ((List.range n).map fun j => (j, j)) with
  | .error f => .error f
  | .ok ws => .ok (dst.writeAll ws)

/-- A command completes normally (R17). -/
def completed (s : State) : Host.Outcome State Fault Refusal := .next s.complete

/-- `raise ERR_x`: the command is refused; STATUS.ERR takes the code, the command completes, and nothing else changes (R123).
This is the engine's whole exception mechanism: it takes no trap and has no return from one (R129, R130). -/
def raiseErr (e : ErrCode) (s : State) : Host.Outcome State Fault Refusal := .next (s.withErr e).complete

/-- The command whose effects are `r`: it completes in the state they leave, or the model stops (R17, R127). -/
def settle (r : Except Fault State) : Host.Outcome State Fault Refusal :=
  match r with
  | .ok s => completed s
  | .error f => .fault f

end Sys2Proof.Machine
end

