-- ==== Sys2Proof/Machine/BitReader.lean ====
section
/-! DEFINITION. The Bit Reader: its byte source, `readCode`, and BR_INIT, BR_SETNB, BR_READ (40_bitreader.md). -/

namespace Sys2Proof.Machine

/-- `B(i)`: byte `i` of the buffer of `BL + 2` bytes (R76).
Beyond it a byte is undefined; no read gets there, because `readCode` checks first. -/
def readerByte (s : State) (i : Nat) : Except Fault Byte :=
  if i < s.br.len then fetch .cdata s.cdata i
  else if i ≤ s.br.len + 1 then .ok 0
  else .error (.unwrittenRead .cdata i)

/-- The 24-bit window of the 3 bytes from byte `p`, the first byte lowest (R77, R51). -/
def readerWindow (s : State) (p : Nat) : Except Fault (BitVec 24) :=
  match readerByte s p with
  | .error f => .error f
  | .ok b0 =>
    match readerByte s (p + 1) with
    | .error f => .error f
    | .ok b1 =>
      match readerByte s (p + 2) with
      | .error f => .error f
      | .ok b2 => .ok (b2 ++ b1 ++ b0)

/-- `n` bits of the window from bit `sh` up, as a 12-bit value: shifted right, masked to `n` bits (R77). -/
def windowBits (win : BitVec 24) (sh n : Nat) : Code :=
  ((win >>> sh) &&& BitVec.ofNat 24 (2 ^ n - 1)).setWidth 12

/-- What `readCode` returns (R77). -/
inductive ReadResult where
  | code (c : Code)
  | oob
deriving DecidableEq, Repr

/-- `readCode()` (R77): the result and the state after it. -/
def readCode (s : State) : Except Fault (ReadResult × State) :=
  if s.br.cursor / 8 ≥ s.br.len then .ok (.oob, s.withOob)
  else
    match readerWindow s (s.br.cursor / 8) with
    | .error f => .error f
    | .ok win =>
      let v := windowBits win (s.br.cursor % 8) s.br.nbits
      .ok (.code v, { s with br := { s.br with cursor := s.br.cursor + s.br.nbits, data := v } })

/-- The effects of BR_INIT (R79). -/
def brInit (s : State) : State :=
  { s with
    br := { s.br with len := s.inLen, cursor := 0, data := 0 }
    status := { s.status with brOob := false, brRdy := true } }

/-- BR_INIT (R79). -/
def execBrInit (s : State) : Host.Outcome State Fault Refusal :=
  if s.inLen > s.caps.cdataMax then raiseErr .badParam s else completed (brInit s)

/-- BR_SETNB nb (R80). -/
def execBrSetnb (nb : Nat) (s : State) : Host.Outcome State Fault Refusal :=
  if nb = 0 ∨ nb > 12 then raiseErr .badParam s
  else completed { s with br := { s.br with nbits := nb } }

/-- The state a read leaves, whatever it returned. -/
def readState (r : Except Fault (ReadResult × State)) : Except Fault State :=
  match r with
  | .ok (_, s) => .ok s
  | .error f => .error f

/-- BR_READ (R81). -/
def execBrRead (s : State) : Host.Outcome State Fault Refusal :=
  if s.status.brRdy = false ∨ s.br.nbits = 0 then raiseErr .notInit s
  else settle (readState (readCode s))

end Sys2Proof.Machine
end

