-- ==== Sys2Proof/Machine/CodeTable.lean ====
section
/-! DEFINITION. The Code Table: `addEntry`, `seq`, and CT_INIT, CT_CLEAR, CT_ADD, CT_LOOKUP (41_codetable.md). -/

namespace Sys2Proof.Machine

/-- The slots CT_INIT writes, in its order: a literal per colour, then the two control slots (R86). -/
def seedSlots (m nc : Nat) : List (Nat × Slot) :=
  ((List.range nc).map fun k => (k, Slot.seq (.single (BitVec.ofNat 8 k))))
    ++ [(2 ^ m, .control), (2 ^ m + 1, .control)]

/-- DICT after CT_INIT: every slot Empty, then the seeds; the control slots overwrite literal ones (R86, log 3). -/
def seededDict (m nc : Nat) : Memory Slot := Memory.writeAll [] (seedSlots m nc)

/-- The effects of CT_INIT (R86). -/
def ctInit (s : State) : State :=
  { s with
    ct :=
      { s.ct with
        minCode := s.inMinCode
        numColors := s.inColors
        codeSize := s.inMinCode + 1
        limit := 2 ^ (s.inMinCode + 1) - 1
        nextCode := 2 ^ s.inMinCode + 2 }
    dict := seededDict s.inMinCode s.inColors
    br := { s.br with nbits := s.inMinCode + 1 }
    status := { s.status with ctRdy := true } }

/-- The effects of CT_CLEAR: the free pointer, the width and the limit are rewound; DICT is not written (R87). -/
def ctClear (s : State) : State :=
  { s with
    ct :=
      { s.ct with
        codeSize := s.ct.minCode + 1
        limit := 2 ^ (s.ct.minCode + 1) - 1
        nextCode := s.ct.endCode + 1 }
    br := { s.br with nbits := s.ct.minCode + 1 } }

/-- The growth of the width that `addEntry` makes before it stores (R84). -/
def growWidth (s : State) : State :=
  if s.ct.nextCode = s.ct.limit ∧ s.ct.codeSize < 12 then
    { s with
      ct := { s.ct with codeSize := s.ct.codeSize + 1, limit := 2 ^ (s.ct.codeSize + 1) - 1 }
      br := { s.br with nbits := s.ct.codeSize + 1 } }
  else s

/-- `DICT[nextCode] <- Seq(q)` and `nextCode <- nextCode + 1` (R84). -/
def storeEntry (q : IndexSeq) (s : State) : State :=
  { s with
    dict := s.dict.write s.ct.nextCode (.seq q)
    ct := { s.ct with nextCode := s.ct.nextCode + 1 } }

/-- `addEntry(q)`: a full table "silently stops growing" (R84). -/
def addEntry (q : IndexSeq) (s : State) : State :=
  if s.ct.nextCode ≥ Config.dictSlots then s else storeEntry q (growWidth s)

/-- `seq(c)`, of a valid code (R83).
An unlisted slot is the fault of R50; a control slot is never asked for (log 12). -/
def seqOf (s : State) (c : Nat) : Except Fault IndexSeq :=
  match fetch .dict s.dict c with
  | .error f => .error f
  | .ok (.seq q) => .ok q
  | .ok .control => .error (.noSequence c)

/-- CT_INIT (R86). -/
def execCtInit (s : State) : Host.Outcome State Fault Refusal :=
  if legalMinCode s.inMinCode ∧ legalColors s.inColors then completed (ctInit s) else raiseErr .badParam s

/-- CT_CLEAR (R87). -/
def execCtClear (s : State) : Host.Outcome State Fault Refusal :=
  if s.status.ctRdy = false then raiseErr .notInit s else completed (ctClear s)

/-- CT_ADD prefix, k (R88). -/
def execCtAdd (pre k : Nat) (s : State) : Host.Outcome State Fault Refusal :=
  if s.status.ctRdy = false then raiseErr .notInit s
  else if ¬s.ct.valid pre then raiseErr .badCode s
  else
    match fetch .dict s.dict pre with
    | .error f => .fault f
    | .ok .control => raiseErr .badCode s
    | .ok (.seq q) => completed (addEntry (q.snoc (BitVec.ofNat 8 k)) s)

/-- What CT_LOOKUP shows of a valid code's slot (R89). -/
def lookupOf (code : Nat) : Slot → Lookup
  | .control => { len := 1, kind := .control, first := BitVec.ofNat 8 code, last := BitVec.ofNat 8 code }
  | .seq q => { len := BitVec.ofNat 13 q.len, kind := .sequence, first := q.first, last := q.last }

/-- The CT_LOOKUP register <- `l` (R89). -/
def withLookup (l : Lookup) (s : State) : State := { s with ct := { s.ct with lookup := l } }

/-- CT_LOOKUP code (R89). -/
def execCtLookup (code : Nat) (s : State) : Host.Outcome State Fault Refusal :=
  if s.status.ctRdy = false then raiseErr .notInit s
  else if ¬s.ct.valid code then completed (withLookup .zero s)
  else
    match fetch .dict s.dict code with
    | .error f => .fault f
    | .ok slot => completed (withLookup (lookupOf code slot) s)

end Sys2Proof.Machine
end

