-- ==== Sys2Proof/Machine/Rasterizer.lean ====
section
/-! DEFINITION. The Frame Rasterizer: the decode loop, the deinterlace, RAST_DECODE and RAST_DEINTERLACE
(42_rasterizer.md). -/

namespace Sys2Proof.Machine

/-- NONE: the raster entry of a pixel the decode did not write (R43, R92). -/
def noPixel : RasterEntry := 0x100

/-- The raster entry of a colour index: `zext_9` (R91). -/
def pixelEntry (i : Index) : RasterEntry := i.setWidth 9

/-- The raster writes of an emission: entry `pos + i` takes `q[i]` (R91). -/
def emitWrites (pos : Nat) (q : IndexSeq) : List (Nat × RasterEntry) :=
  q.toList.zipIdx.map fun p => (pos + p.2, pixelEntry p.1)

/-- `emit(q)`: all of the sequence, or `none` when it does not fit (R91). -/
def emit (q : IndexSeq) (s : State) : Option State :=
  if s.rast.outPos + q.len > s.framePixels then none
  else
    some { s with
      raster := s.raster.writeAll (emitWrites s.rast.outPos q)
      rast := { s.rast with outPos := s.rast.outPos + q.len } }

/-- Decode setup (R92). -/
def decodeSetup (s : State) : State :=
  { brInit (ctInit s) with
    raster := s.raster.fill s.framePixels noPixel
    rast := .reset }

/-- `clearStep`: the effects of CT_CLEAR, and PV <- 0 (R96). -/
def clearStep (s : State) : State :=
  { ctClear s with rast := { s.rast with pv := false } }

/-- `prev <- c ; PV <- 1` (R93). -/
def takePrev (c : Code) (s : State) : State := { s with rast := { s.rast with prev := c, pv := true } }

/-- How one turn of the decode loop ends: another code is read next, or the decode has ended (R90, R93). -/
inductive Progress where
  | more (s : State)
  | ended (s : State)
deriving DecidableEq, Repr

/-- Emit `q`; if it fits, `andThen` is done and the loop goes on; if not, the decode ends with OUTPUT_FULL (R93). -/
def emitOrEnd (q : IndexSeq) (andThen : State → State) (s : State) : Progress :=
  match emit q s with
  | some t => .more (andThen t)
  | none => .ended (s.finish .outputFull)

/-- FRESH: a data code with no previous code (R93, R95, R100). -/
def freshCode (c : Code) (s : State) : Except Fault Progress :=
  if ¬s.ct.valid c.toNat then .ok (.ended (s.finish .badCode))
  else
    match seqOf s c.toNat with
    | .error f => .error f
    | .ok q => .ok (emitOrEnd q (takePrev c) s)

/-- NEXT, a code below nextCode: emit its sequence, add `p ++ [s[0]]` (R93, R98, R100). -/
def knownCode (p : IndexSeq) (c : Code) (s : State) : Except Fault Progress :=
  if ¬s.ct.valid c.toNat then .ok (.ended (s.finish .badCode))
  else
    match seqOf s c.toNat with
    | .error f => .error f
    | .ok q => .ok (emitOrEnd q (fun t => takePrev c (addEntry (p.snoc q.first) t)) s)

/-- NEXT, a code not yet in the table: emit `p ++ [p[0]]` and add it (R93, R99). -/
def newCode (p : IndexSeq) (c : Code) (s : State) : Progress :=
  emitOrEnd (p.snoc p.first) (fun t => takePrev c (addEntry (p.snoc p.first) t)) s

/-- NEXT: a data code with a previous code (R93, R98, R99, R100). -/
def nextCode (c : Code) (s : State) : Except Fault Progress :=
  if ¬s.ct.valid s.rast.prev.toNat then .ok (.ended (s.finish .badCode))
  else
    match seqOf s s.rast.prev.toNat with
    | .error f => .error f
    | .ok p => if c.toNat < s.ct.nextCode then knownCode p c s else .ok (newCode p c s)

/-- What the loop does with the code `c` just read: CLEAR, END, or a data code at FRESH or NEXT (R93, R95 to R97).
The loop stands at NEXT exactly when PV = 1 (R38, log 11). -/
def codeStep (c : Code) (s : State) : Except Fault Progress :=
  if c.toNat = s.ct.clearCode then .ok (.more (clearStep s))
  else if c.toNat = s.ct.endCode then .ok (.ended (s.finish .endCode))
  else if s.rast.pv then nextCode c s
  else freshCode c s

/-- One turn of the decode loop: a read and what it leads to; an Oob read ends with READ_OOB (R93, R101). -/
def decodeTurn (s : State) : Except Fault Progress :=
  match readCode s with
  | .error f => .error f
  | .ok (.oob, t) => .ok (.ended (t.finish .readOob))
  | .ok (.code c, t) => codeStep c t

/-- The decode loop, for at most `k` turns (R93). -/
def decodeLoop : Nat → State → Except Fault State
  | 0, _ => .error .decodeUnbounded
  | k + 1, s =>
    match decodeTurn s with
    | .error f => .error f
    | .ok (.ended t) => .ok t
    | .ok (.more t) => decodeLoop k t

/-- More turns than a decode can take: every read that succeeds starts below `8*BL` and advances the cursor
(R102, log 10). -/
def decodeBound (s : State) : Nat := 8 * s.br.len + 1

/-- The leading code, discarded whatever it is, and then the loop (R93, R94). -/
def decodeCodes (s : State) : Except Fault State :=
  match readCode s with
  | .error f => .error f
  | .ok (.oob, t) => .ok (t.finish .readOob)
  | .ok (.code _, t) => decodeLoop (decodeBound t) t

/-- `order`: stored row `i` belongs at row `order[i]`; the four passes, each ascending (R103). -/
def interlaceOrder (h : Nat) : List Nat :=
  (List.range h).filter (fun r => r % 8 = 0) ++ (List.range h).filter (fun r => r % 8 = 4)
    ++ (List.range h).filter (fun r => r % 4 = 2) ++ (List.range h).filter (fun r => r % 2 = 1)

/-- The deinterlace as moves (destination, source) of raster entries: `RASTER[order[i]*W + x] <- T[i*W + x]` (R103). -/
def deinterlaceMoves (w h : Nat) : List (Nat × Nat) :=
  (interlaceOrder h).zipIdx.flatMap fun p => (List.range w).map fun x => (p.1 * w + x, p.2 * w + x)

/-- `deinterlace(W, H)`: every entry is read before any is written (R103). -/
def deinterlace (s : State) : Except Fault State :=
  match gather .raster s.raster (deinterlaceMoves s.frameW s.frameH) with
  | .error f => .error f
  | .ok ws => .ok { s with raster := s.raster.writeAll ws }

/-- The effects of RAST_DECODE (R105). -/
def rasterDecode (s : State) : Except Fault State :=
  match decodeCodes (decodeSetup s) with
  | .error f => .error f
  | .ok t => if t.frCtrl.interlaced then deinterlace t else .ok t

/-- RAST_DECODE (R105). -/
def execRastDecode (s : State) : Host.Outcome State Fault Refusal :=
  if s.decodeParamsLegal then settle (rasterDecode s) else raiseErr .badParam s

/-- RAST_DEINTERLACE (R106). -/
def execRastDeinterlace (s : State) : Host.Outcome State Fault Refusal :=
  if s.framePixels > s.caps.rasterMax then raiseErr .badParam s else settle (deinterlace s)

end Sys2Proof.Machine
end

