-- ==== Sys2Proof/Machine/Compositor.lean ====
section
/-! DEFINITION. The Frame Compositor: COMP_RESET, COMP_DRAW, COMP_SNAP, COMP_DISPOSE and FRAME (43_compositor.md). -/

namespace Sys2Proof.Machine

/-- What `color` gives for a raster entry: nothing to paint, the fully transparent pixel, or an opaque colour (R107).
It produces no other alpha (R108, log 17). -/
inductive Paint where
  | nothing
  | transparent
  | opaque (c : Rgb)
deriving DecidableEq, Repr

/-- The source pixel of R107: 0x00000000, or `0xFF000000 | e` (R45). -/
def Paint.pixel : Paint → Option Pixel
  | .nothing => none
  | .transparent => some 0
  | .opaque c => some (0xFF000000 ||| c.setWidth 32)

/-- `color(e)` (R107). -/
def color (s : State) (e : RasterEntry) : Except Fault Paint :=
  if e.getLsbD 8 then .ok .nothing
  else
    let i : Index := e.extractLsb' 0 8
    if i.toNat ≥ s.inColors then .ok .nothing
    else if s.frCtrl.transp ∧ i = s.frCtrl.tidx then .ok .transparent
    else
      match fetch .ctab s.ctab i.toNat with
      | .error f => .error f
      | .ok c => .ok (.opaque c)

/-- `blend(src, dst)`: an opaque source replaces the canvas pixel; a transparent one, or none, leaves it (R108). -/
def blend (src : Paint) (dst : Pixel) : Pixel :=
  match src with
  | .nothing => dst
  | .transparent => dst
  | .opaque c => 0xFF000000 ||| c.setWidth 32

/-- Paint the listed frame pixels onto the canvas `cv`, the first one first (R113). -/
def paintPixels (s : State) : List (Nat × Nat) → Memory Pixel → Except Fault (Memory Pixel)
  | [], cv => .ok cv
  | (fx, fy) :: ps, cv =>
    match fetch .raster s.raster (fy * s.frameW + fx) with
    | .error f => .error f
    | .ok e =>
      match color s e with
      | .error f => .error f
      | .ok src =>
        match fetch .canvas cv (s.canvasIndex fx fy) with
        | .error f => .error f
        | .ok dst => paintPixels s ps (cv.write (s.canvasIndex fx fy) (blend src dst))

/-- The effects of COMP_RESET (R112). -/
def compReset (s : State) : State :=
  let n := s.canvasSize.w.toNat * s.canvasSize.h.toNat
  { s with
    compSize := s.canvasSize
    canvas := s.canvas.fill n 0
    prev := s.prev.fill n 0
    snap := s.snap.fill n 0
    status := { s.status with compRdy := true } }

/-- `for j in [0, CW*CH): PREV[j] <- CANVAS[j]` (R111, R113). -/
def savePrev (s : State) : Except Fault State :=
  match copyTo .canvas s.canvas s.prev s.canvasPixels with
  | .error f => .error f
  | .ok p => .ok { s with prev := p }

/-- The painting half of COMP_DRAW (R113). -/
def paintFrame (s : State) : Except Fault State :=
  match paintPixels s s.clippedPixels s.canvas with
  | .error f => .error f
  | .ok cv => .ok { s with canvas := cv }

/-- The effects of COMP_DRAW: the canvas is saved, then painted (R113). -/
def compDraw (s : State) : Except Fault State :=
  match savePrev s with
  | .error f => .error f
  | .ok t => paintFrame t

/-- The effects of COMP_SNAP (R114). -/
def compSnap (s : State) : Except Fault State :=
  match copyTo .canvas s.canvas s.snap s.canvasPixels with
  | .error f => .error f
  | .ok p => .ok { s with snap := p }

/-- The states of the disposal machine (R110). -/
inductive Disposal where
  | noOp
  | persist
  | restoreBackground
  | restorePrevious
deriving DecidableEq, Repr

/-- The state FR_CTRL.DISPOSAL chooses; 4 to 7 act as 0 (R110, log 15). -/
def disposalOf (d : BitVec 3) : Disposal :=
  match d.toNat with
  | 1 => .persist
  | 2 => .restoreBackground
  | 3 => .restorePrevious
  | _ => .noOp

/-- Method 2: the clipped frame rectangle is set to 0x00000000 (R115). -/
def clearRectangle (s : State) : State :=
  { s with canvas := s.canvas.writeAll (s.clippedPixels.map fun p => (s.canvasIndex p.1 p.2, 0)) }

/-- Method 3: the whole canvas is set to PREV (R115). -/
def restorePrev (s : State) : Except Fault State :=
  match copyTo .prev s.prev s.canvas s.canvasPixels with
  | .error f => .error f
  | .ok cv => .ok { s with canvas := cv }

/-- The effects of COMP_DISPOSE (R115). -/
def compDispose (s : State) : Except Fault State :=
  match disposalOf s.frCtrl.disposal with
  | .noOp => .ok s
  | .persist => .ok s
  | .restoreBackground => .ok (clearRectangle s)
  | .restorePrevious => restorePrev s

/-- The effects of FRAME: decode, draw, snapshot, dispose (R116). -/
def frameEffects (s : State) : Except Fault State :=
  match rasterDecode s with
  | .error f => .error f
  | .ok t₁ =>
    match compDraw t₁ with
    | .error f => .error f
    | .ok t₂ =>
      match compSnap t₂ with
      | .error f => .error f
      | .ok t₃ => compDispose t₃

/-- COMP_RESET (R112). -/
def execCompReset (s : State) : Host.Outcome State Fault Refusal :=
  if s.canvasSize.w.toNat * s.canvasSize.h.toNat > s.caps.canvasMax then raiseErr .badParam s
  else completed (compReset s)

/-- COMP_DRAW (R113). -/
def execCompDraw (s : State) : Host.Outcome State Fault Refusal :=
  if s.status.compRdy = false then raiseErr .notInit s
  else if legalColors s.inColors ∧ s.frameFits then settle (compDraw s)
  else raiseErr .badParam s

/-- COMP_SNAP (R114). -/
def execCompSnap (s : State) : Host.Outcome State Fault Refusal :=
  if s.status.compRdy = false then raiseErr .notInit s else settle (compSnap s)

/-- COMP_DISPOSE (R115). -/
def execCompDispose (s : State) : Host.Outcome State Fault Refusal :=
  if s.status.compRdy = false then raiseErr .notInit s else settle (compDispose s)

/-- FRAME (R116). -/
def execFrame (s : State) : Host.Outcome State Fault Refusal :=
  if s.status.compRdy = false then raiseErr .notInit s
  else if s.decodeParamsLegal then settle (frameEffects s)
  else raiseErr .badParam s

end Sys2Proof.Machine
end

