-- ==== Sys2Proof/Machine/Control.lean ====
section
/-! DEFINITION. The control commands NOP and SOFT_RESET (44_control.md R117, R118). -/

namespace Sys2Proof.Machine

/-- NOP: nothing but completion (R117). -/
def execNop (s : State) : Host.Outcome State Fault Refusal := completed s

/-- Every register of R18 but ID at its reset value; the memories keep their contents (R118).
STATUS is among them, so OVR goes to 0 too (log 8). -/
def softReset (s : State) : State :=
  { s with
    status := .reset
    canvasSize := ⟨0, 0⟩
    frPos := ⟨0, 0⟩
    frSize := ⟨0, 0⟩
    frCtrl := .reset
    frDlen := 0
    numColors := 0
    br := .reset
    ct := .reset
    rast := .reset
    compSize := ⟨0, 0⟩ }

/-- SOFT_RESET (R118). -/
def execSoftReset (s : State) : Host.Outcome State Fault Refusal := completed (softReset s)

end Sys2Proof.Machine
end

