-- ==== Sys2Proof/Syntax.lean ====
section
/-! DEFINITION. The commands: one constructor per row of the opcode table (30_encoding.md R67). -/

namespace Sys2Proof

/-- The 16 commands of R67.
Operands are the unsigned numbers of R66; whether they fit their fields is `Instr.WellFormed`. -/
inductive Instr where
  /-- NOP (R117) -/
  | nop
  /-- SOFT_RESET (R118) -/
  | softReset
  /-- BR_INIT (R79) -/
  | brInit
  /-- BR_SETNB nb (R80) -/
  | brSetnb (nb : Nat)
  /-- BR_READ (R81) -/
  | brRead
  /-- CT_INIT (R86) -/
  | ctInit
  /-- CT_CLEAR (R87) -/
  | ctClear
  /-- CT_ADD prefix, k (R88) -/
  | ctAdd (pre k : Nat)
  /-- CT_LOOKUP code (R89) -/
  | ctLookup (code : Nat)
  /-- RAST_DECODE (R105) -/
  | rastDecode
  /-- RAST_DEINTERLACE (R106) -/
  | rastDeinterlace
  /-- COMP_RESET (R112) -/
  | compReset
  /-- COMP_DRAW (R113) -/
  | compDraw
  /-- COMP_SNAP (R114) -/
  | compSnap
  /-- COMP_DISPOSE (R115) -/
  | compDispose
  /-- FRAME (R116) -/
  | frame
deriving DecidableEq, Repr

end Sys2Proof
end

