-- ==== Sys2Proof/Machine/Dispatch.lean ====
section
/-! DEFINITION. One arm per command (30_encoding.md R67). -/

namespace Sys2Proof.Machine

def exec (i : Instr) (s : State) : Host.Outcome State Fault Refusal :=
  match i with
  | .nop => Sys2Proof.Machine.execNop s
  | .softReset => Sys2Proof.Machine.execSoftReset s
  | .brInit => Sys2Proof.Machine.execBrInit s
  | .brSetnb nb => Sys2Proof.Machine.execBrSetnb nb s
  | .brRead => Sys2Proof.Machine.execBrRead s
  | .ctInit => Sys2Proof.Machine.execCtInit s
  | .ctClear => Sys2Proof.Machine.execCtClear s
  | .ctAdd pre k => Sys2Proof.Machine.execCtAdd pre k s
  | .ctLookup code => Sys2Proof.Machine.execCtLookup code s
  | .rastDecode => Sys2Proof.Machine.execRastDecode s
  | .rastDeinterlace => Sys2Proof.Machine.execRastDeinterlace s
  | .compReset => Sys2Proof.Machine.execCompReset s
  | .compDraw => Sys2Proof.Machine.execCompDraw s
  | .compSnap => Sys2Proof.Machine.execCompSnap s
  | .compDispose => Sys2Proof.Machine.execCompDispose s
  | .frame => Sys2Proof.Machine.execFrame s

end Sys2Proof.Machine
end

