-- ==== Sys2Proof/WellFormed.lean ====
section
/-! DEFINITION. Which commands have an encoding: every operand fits its field (30_encoding.md R65, R66, R70). -/

namespace Sys2Proof

/-- "An operand that does not fit its field is an assembly error, not an encoding" (R70).
NB has 4 bits, CODE and PREFIX have 12, K has 8 (R65). -/
def Instr.wellFormed : Instr → Bool
  | .brSetnb nb => decide (nb < 2 ^ 4)
  | .ctAdd pre k => decide (pre < 2 ^ 12) && decide (k < 2 ^ 8)
  | .ctLookup code => decide (code < 2 ^ 12)
  | .nop | .softReset | .brInit | .brRead | .ctInit | .ctClear | .rastDecode | .rastDeinterlace
  | .compReset | .compDraw | .compSnap | .compDispose | .frame => true

end Sys2Proof
end

