-- ==== Sys2Proof/Decode.lean ====
section
/-! DEFINITION. Decoding and encoding command words (30_encoding.md R65 to R69), and the opcode map of R67 as data. -/

namespace Sys2Proof

/-- `w[hi:lo]`, the unsigned field of bits `hi` down to `lo` (R8). -/
def field (w : Word) (hi lo : Nat) : Nat := w.toNat / 2 ^ lo % 2 ^ (hi + 1 - lo)

/-- Why a word is illegal (R68, R124): it names no command, or a reserved bit of its format is set. -/
inductive DecodeError where
  | unknownOpcode
  | reservedBitSet
deriving DecidableEq, Repr

/-- The command `i`, if the bits `31:lo`, which the word's format marks 0, are all 0 (R65). -/
def ifReservedClear (w : Word) (lo : Nat) (i : Instr) : Except DecodeError Instr :=
  if field w 31 lo = 0 then .ok i else .error .reservedBitSet

/-- Decode a command word: the opcode is bits 7:0, and the format of R65 places the operands and the reserved bits. -/
def decode (w : Word) : Except DecodeError Instr :=
  match field w 7 0 with
  | 0x00 => ifReservedClear w 8 .nop
  | 0x01 => ifReservedClear w 8 .softReset
  | 0x10 => ifReservedClear w 8 .brInit
  | 0x11 => ifReservedClear w 12 (.brSetnb (field w 11 8))
  | 0x12 => ifReservedClear w 8 .brRead
  | 0x20 => ifReservedClear w 8 .ctInit
  | 0x21 => ifReservedClear w 8 .ctClear
  | 0x22 => ifReservedClear w 28 (.ctAdd (field w 19 8) (field w 27 20))
  | 0x23 => ifReservedClear w 20 (.ctLookup (field w 19 8))
  | 0x30 => ifReservedClear w 8 .rastDecode
  | 0x31 => ifReservedClear w 8 .rastDeinterlace
  | 0x40 => ifReservedClear w 8 .compReset
  | 0x41 => ifReservedClear w 8 .compDraw
  | 0x42 => ifReservedClear w 8 .compSnap
  | 0x43 => ifReservedClear w 8 .compDispose
  | 0x50 => ifReservedClear w 8 .frame
  | _ => .error .unknownOpcode

/-- The opcode OP of R67. -/
def Instr.opcode : Instr → Nat
  | .nop => 0x00
  | .softReset => 0x01
  | .brInit => 0x10
  | .brSetnb _ => 0x11
  | .brRead => 0x12
  | .ctInit => 0x20
  | .ctClear => 0x21
  | .ctAdd _ _ => 0x22
  | .ctLookup _ => 0x23
  | .rastDecode => 0x30
  | .rastDeinterlace => 0x31
  | .compReset => 0x40
  | .compDraw => 0x41
  | .compSnap => 0x42
  | .compDispose => 0x43
  | .frame => 0x50

/-- The operand fields in their places: NB from bit 8, CODE and PREFIX from bit 8, K from bit 20 (R65). -/
def Instr.operandBits : Instr → Nat
  | .brSetnb nb => nb * 2 ^ 8
  | .ctAdd pre k => k * 2 ^ 20 + pre * 2 ^ 8
  | .ctLookup code => code * 2 ^ 8
  | .nop | .softReset | .brInit | .brRead | .ctInit | .ctClear | .rastDecode | .rastDeinterlace
  | .compReset | .compDraw | .compSnap | .compDispose | .frame => 0

/-- The command word of a well-formed command (R65, R70). -/
def encode (i : Instr) : Word := BitVec.ofNat 32 (i.operandBits + i.opcode)

/-- The mnemonic of R67. -/
def Instr.mnemonic : Instr → String
  | .nop => "NOP"
  | .softReset => "SOFT_RESET"
  | .brInit => "BR_INIT"
  | .brSetnb _ => "BR_SETNB"
  | .brRead => "BR_READ"
  | .ctInit => "CT_INIT"
  | .ctClear => "CT_CLEAR"
  | .ctAdd _ _ => "CT_ADD"
  | .ctLookup _ => "CT_LOOKUP"
  | .rastDecode => "RAST_DECODE"
  | .rastDeinterlace => "RAST_DEINTERLACE"
  | .compReset => "COMP_RESET"
  | .compDraw => "COMP_DRAW"
  | .compSnap => "COMP_SNAP"
  | .compDispose => "COMP_DISPOSE"
  | .frame => "FRAME"

/-- One row of the opcode map: its mnemonic, match and mask (R67). -/
structure OpcodeRow where
  mnemonic : String
  pattern : Word
  mask : Word
deriving DecidableEq, Repr

/-- The opcode map of R67, row by row, with the match and mask the spec gives. -/
def opcodeRows : List OpcodeRow := [
  ⟨"NOP", 0x00000000, 0xFFFFFFFF⟩,
  ⟨"SOFT_RESET", 0x00000001, 0xFFFFFFFF⟩,
  ⟨"BR_INIT", 0x00000010, 0xFFFFFFFF⟩,
  ⟨"BR_SETNB", 0x00000011, 0xFFFFF0FF⟩,
  ⟨"BR_READ", 0x00000012, 0xFFFFFFFF⟩,
  ⟨"CT_INIT", 0x00000020, 0xFFFFFFFF⟩,
  ⟨"CT_CLEAR", 0x00000021, 0xFFFFFFFF⟩,
  ⟨"CT_ADD", 0x00000022, 0xF00000FF⟩,
  ⟨"CT_LOOKUP", 0x00000023, 0xFFF000FF⟩,
  ⟨"RAST_DECODE", 0x00000030, 0xFFFFFFFF⟩,
  ⟨"RAST_DEINTERLACE", 0x00000031, 0xFFFFFFFF⟩,
  ⟨"COMP_RESET", 0x00000040, 0xFFFFFFFF⟩,
  ⟨"COMP_DRAW", 0x00000041, 0xFFFFFFFF⟩,
  ⟨"COMP_SNAP", 0x00000042, 0xFFFFFFFF⟩,
  ⟨"COMP_DISPOSE", 0x00000043, 0xFFFFFFFF⟩,
  ⟨"FRAME", 0x00000050, 0xFFFFFFFF⟩]

/-- A word selects a row when `(w & mask) = match` (R67). -/
def OpcodeRow.selects (r : OpcodeRow) (w : Word) : Bool := w &&& r.mask == r.pattern

/-- The command the decoder reads from a table word: the low `nbits` bits of `w`, the bits above them 0. -/
def decodeTableWord (nbits w : Nat) : Option Instr := (decode (BitVec.ofNat 32 (w % 2 ^ nbits))).toOption

end Sys2Proof
end

