-- ==== Sys2Proof/Machine/Registers.lean ====
section
/-! DEFINITION. The register file as the Host reads and writes it (10_state.md R18 to R39; 20_memory.md R48, R49). -/

namespace Sys2Proof.Machine

/-- The named registers of R18. -/
inductive RegName where
  | id
  | cmd
  | status
  | canvasSize
  | frPos
  | frSize
  | frCtrl
  | frDlen
  | numColors
  | brCursor
  | brNbits
  | brData
  | brLen
  | ctCodesize
  | ctNextcode
  | ctLimit
  | ctCfg
  | ctLookup
  | rastOutpos
  | rastPrev
  | compCsize
deriving DecidableEq, Repr

/-- The byte offset of a register (R18). -/
def RegName.offset : RegName → Nat
  | .id => 0x00
  | .cmd => 0x04
  | .status => 0x08
  | .canvasSize => 0x0C
  | .frPos => 0x10
  | .frSize => 0x14
  | .frCtrl => 0x18
  | .frDlen => 0x1C
  | .numColors => 0x20
  | .brCursor => 0x24
  | .brNbits => 0x28
  | .brData => 0x2C
  | .brLen => 0x30
  | .ctCodesize => 0x34
  | .ctNextcode => 0x38
  | .ctLimit => 0x3C
  | .ctCfg => 0x40
  | .ctLookup => 0x44
  | .rastOutpos => 0x48
  | .rastPrev => 0x4C
  | .compCsize => 0x50

/-- The register at a byte offset; offsets 0x54 to 0xFC are reserved and name none (R18, R57). -/
def regAt (off : Nat) : Option RegName :=
  match off with
  | 0x00 => some .id
  | 0x04 => some .cmd
  | 0x08 => some .status
  | 0x0C => some .canvasSize
  | 0x10 => some .frPos
  | 0x14 => some .frSize
  | 0x18 => some .frCtrl
  | 0x1C => some .frDlen
  | 0x20 => some .numColors
  | 0x24 => some .brCursor
  | 0x28 => some .brNbits
  | 0x2C => some .brData
  | 0x30 => some .brLen
  | 0x34 => some .ctCodesize
  | 0x38 => some .ctNextcode
  | 0x3C => some .ctLimit
  | 0x40 => some .ctCfg
  | 0x44 => some .ctLookup
  | 0x48 => some .rastOutpos
  | 0x4C => some .rastPrev
  | 0x50 => some .compCsize
  | _ => none

/-- A size register's word: width in bits 15:0, height in bits 31:16 (R22, R24, R39). -/
def Size.toWord (z : Size) : Word := (z.h ++ z.w).setWidth 32

/-- The size a word names. -/
def Size.ofWord (v : Word) : Size := { w := v.extractLsb' 0 16, h := v.extractLsb' 16 16 }

/-- FR_POS's word: X in bits 15:0, Y in bits 31:16 (R23). -/
def Pos.toWord (p : Pos) : Word := (p.y ++ p.x).setWidth 32

/-- The position a word names. -/
def Pos.ofWord (v : Word) : Pos := { x := v.extractLsb' 0 16, y := v.extractLsb' 16 16 }

/-- FR_CTRL's word from bit 31 down, reserved bits 0 (R25). -/
def FrCtrl.toWord (c : FrCtrl) : Word :=
  (0#8 ++ c.minCode ++ c.tidx ++ 0#3 ++ c.disposal ++ BitVec.ofBool c.transp ++ BitVec.ofBool c.interlaced).setWidth 32

/-- What a write of FR_CTRL stores: reserved bits ignore the write (R25). -/
def FrCtrl.ofWord (v : Word) : FrCtrl :=
  { interlaced := v.getLsbD 0
    transp := v.getLsbD 1
    disposal := v.extractLsb' 2 3
    tidx := v.extractLsb' 8 8
    minCode := v.extractLsb' 16 8 }

/-- The 2-bit code of a lookup kind (R36). -/
def LookupKind.bits : LookupKind → BitVec 2
  | .notValid => 0
  | .sequence => 1
  | .control => 2

/-- CT_LOOKUP's word from bit 31 down, bit 15 reserved (R36). -/
def Lookup.toWord (l : Lookup) : Word := (l.last ++ l.first ++ 0#1 ++ l.kind.bits ++ l.len).setWidth 32

/-- A natural number shown in the low `bits` bits of a register (R28 to R37). -/
def shownIn (bits n : Nat) : Word := BitVec.ofNat 32 (n % 2 ^ bits)

/-- The register's value as the Host reads it: reserved bits 0, CMD 0 (R18 to R39, R49). -/
def readReg (s : State) : RegName → Word
  | .id => Config.idValue
  | .cmd => 0
  | .status => s.statusWord
  | .canvasSize => s.canvasSize.toWord
  | .frPos => s.frPos.toWord
  | .frSize => s.frSize.toWord
  | .frCtrl => s.frCtrl.toWord
  | .frDlen => s.frDlen
  | .numColors => s.numColors.setWidth 32
  | .brCursor => shownIn 32 s.br.cursor
  | .brNbits => shownIn 4 s.br.nbits
  | .brData => s.br.data.setWidth 32
  | .brLen => shownIn 32 s.br.len
  | .ctCodesize => shownIn 4 s.ct.codeSize
  | .ctNextcode => shownIn 13 s.ct.nextCode
  | .ctLimit => shownIn 13 s.ct.limit
  | .ctCfg => (0#7 ++ BitVec.ofNat 9 s.ct.numColors ++ 0#12 ++ BitVec.ofNat 4 s.ct.minCode).setWidth 32
  | .ctLookup => s.ct.lookup.toWord
  | .rastOutpos => shownIn 32 s.rast.outPos
  | .rastPrev => (0#16 ++ BitVec.ofBool s.rast.pv ++ 0#3 ++ s.rast.prev).setWidth 32
  | .compCsize => s.compSize.toWord

/-- A Host write of `v`: CMD issues, RW registers store their fields, RO registers ignore it (R18 to R39, R48). -/
def writeReg (s : State) (r : RegName) (v : Word) : State :=
  match r with
  | .cmd => s.issue v
  | .canvasSize => { s with canvasSize := .ofWord v }
  | .frPos => { s with frPos := .ofWord v }
  | .frSize => { s with frSize := .ofWord v }
  | .frCtrl => { s with frCtrl := .ofWord v }
  | .frDlen => { s with frDlen := v }
  | .numColors => { s with numColors := v.extractLsb' 0 9 }
  | .id | .status | .brCursor | .brNbits | .brData | .brLen | .ctCodesize | .ctNextcode | .ctLimit | .ctCfg
  | .ctLookup | .rastOutpos | .rastPrev | .compCsize => s

/-- A Host read of the word at a byte offset; reserved offsets read 0 (R18, R49). -/
def readRegAt (s : State) (off : Nat) : Word :=
  match regAt off with
  | some r => readReg s r
  | none => 0

/-- A Host write of the word at a byte offset; reserved offsets ignore it (R18, R48). -/
def writeRegAt (s : State) (off : Nat) (v : Word) : State :=
  match regAt off with
  | some r => writeReg s r v
  | none => s

end Sys2Proof.Machine
end

