-- ==== Sys2Proof/Machine/HostPort.lean ====
section
/-! DEFINITION. The Host's accesses to the address spaces (20_memory.md R47 to R50, R53, R59). -/

namespace Sys2Proof.Machine

/-- How many elements a space has, and how many bits a Host access to one carries; `none` for DICT, which the Host cannot
reach, and for REG, whose rule is `regAdmitted` (R47, R48). -/
def spaceShape (s : State) : Space → Option (Nat × Nat)
  | .cdata => some (s.caps.cdataMax, 8)
  | .ctab => some (Config.maxColors, 32)
  | .raster => some (s.caps.rasterMax, 16)
  | .canvas | .prev | .snap => some (s.caps.canvasMax, 32)
  | .reg | .dict => none

/-- REG accesses are admitted at a multiple of 4 in 0x00 to 0xFC and 32 bits wide (R48, R53). -/
abbrev regAdmitted (i n : Nat) : Prop := i % 4 = 0 ∧ i ≤ 0xFC ∧ n = 32

/-- The accesses R48 and R49 admit: element `i` of space `sp` at `n` bits. -/
def admitted (s : State) (sp : Space) (i n : Nat) : Bool :=
  match sp with
  | .reg => decide (regAdmitted i n)
  | sp =>
    match spaceShape s sp with
    | some (count, width) => decide (i < count ∧ n = width)
    | none => false

/-- The two accesses the Host may make while BUSY = 1: a read of STATUS and a write of CMD (R59). -/
def allowedWhileBusy : HostAccess → Bool
  | .read .reg i n => decide (i = RegName.status.offset ∧ n = 32)
  | .write .reg i n _ => decide (i = RegName.cmd.offset ∧ n = 32)
  | _ => false

/-- An admitted Host write (R48): bits of `v` the element does not have are ignored. -/
def hostWrite (s : State) (sp : Space) (i : Nat) (v : Word) : State :=
  match sp with
  | .reg => writeRegAt s i v
  | .cdata => { s with cdata := s.cdata.write i (v.extractLsb' 0 8) }
  | .ctab => { s with ctab := s.ctab.write i (v.extractLsb' 0 24) }
  | .raster => { s with raster := s.raster.write i (v.extractLsb' 0 9) }
  | .canvas => { s with canvas := s.canvas.write i v }
  | .prev => { s with prev := s.prev.write i v }
  | .snap => { s with snap := s.snap.write i v }
  | .dict => s

/-- The element, zero-extended to a word. -/
def extended {w : Nat} (r : Except Fault (BitVec w)) : Except Fault Word :=
  match r with
  | .ok v => .ok (v.setWidth 32)
  | .error f => .error f

/-- What an admitted Host read returns: the element zero-extended (R49), or the fault of R50. -/
def hostRead (s : State) (sp : Space) (i : Nat) : Except Fault Word :=
  match sp with
  | .reg => .ok (readRegAt s i)
  | .cdata => extended (fetch .cdata s.cdata i)
  | .ctab => extended (fetch .ctab s.ctab i)
  | .raster => extended (fetch .raster s.raster i)
  | .canvas => fetch .canvas s.canvas i
  | .prev => fetch .prev s.prev i
  | .snap => fetch .snap s.snap i
  | .dict => .error (.unwrittenRead .dict i)

/-- The Host's admitted access, made. -/
def hostPerform (s : State) : HostAccess → Host.Outcome State Fault Refusal
  | .write sp i _ v => .next (hostWrite s sp i v)
  | .read sp i _ =>
    match hostRead s sp i with
    | .ok v => .next { s with hostReads := v :: s.hostReads }
    | .error f => .fault f

/-- The access is one that R48 and R49 admit. -/
def HostAccess.isAdmitted (s : State) : HostAccess → Bool
  | .write sp i n _ => admitted s sp i n
  | .read sp i n => admitted s sp i n

/-- The Host's turn: the model gives the Host only the moves of R48, R49 and R59 (R127, log 6). -/
def hostTurn (a : HostAccess) (s : State) : Host.Outcome State Fault Refusal :=
  if s.busy && !allowedWhileBusy a then .refused .hostAccessWhileBusy
  else if a.isAdmitted s then hostPerform s a
  else .refused .hostAccessNotAdmitted

end Sys2Proof.Machine
end

