-- ==== Sys2Proof/Machine/EngineStep.lean ====
section
/-! DEFINITION. The engine's one step: decode the pending command word and perform it (10_state.md R17; 30_encoding.md R69). -/

namespace Sys2Proof.Machine

/-- Perform the command word `w`: an illegal word is refused with ILLEGAL (R68, R69, R124). -/
def runWord (w : Word) (s : State) : Host.Outcome State Fault Refusal :=
  match decode w with
  | .ok i => exec i s
  | .error _ => raiseErr .illegal s

/-- The engine's turn: its step is enabled exactly when BUSY = 1; idle changes no state (R17, R137, log 5). -/
def engineTurn (s : State) : Host.Outcome State Fault Refusal :=
  match s.pending with
  | some w => runWord w s
  | none => .next s

/-- Place a turn of the engine before the turns to come, with `w` latched as the pending command (R15). -/
def offerWord (w : Word) (s : State) : State :=
  { s.latch w with turns := .engine :: s.turns }

end Sys2Proof.Machine
end

