-- ==== Sys2Proof/Machine/Step.lean ====
section
/-! DEFINITION. One step of the machine: the next turn of the run's total order (20_memory.md R60). -/

namespace Sys2Proof.Machine

/-- One step: the next turn, the Host's or the engine's; when no turn is listed, the engine's (R60, R17, log 4).
A turn is used up by being taken. -/
def step (s : State) : Host.Outcome State Fault Refusal :=
  match s.turns with
  | [] => engineTurn s
  | .engine :: ts => engineTurn { s with turns := ts }
  | .host a :: ts => hostTurn a { s with turns := ts }

/-- `s` with the command word `w` issued and the engine's turn next, so that `step` runs exactly that word (log 4). -/
def State.withFetchWord (s : State) (nbits w : Nat) : State := offerWord (BitVec.ofNat 32 (w % 2 ^ nbits)) s

end Sys2Proof.Machine
end

