-- ==== Sys2Proof/Machine/HostProgram.lean ====
section
/-! DEFINITION. The Host-program pseudo-instructions as lists of turns (30_encoding.md R71). -/

namespace Sys2Proof.Machine

/-- `wr NAME, v` (R71). -/
def hostWr (r : RegName) (v : Word) : List Turn := [.host (.write .reg r.offset 32 v)]

/-- `wrb CDATA[i], v` (R71). -/
def hostWrb (i : Nat) (v : Word) : List Turn := [.host (.write .cdata i 8 v)]

/-- `wrc CTAB[i], v` (R71). -/
def hostWrc (i : Nat) (v : Word) : List Turn := [.host (.write .ctab i 32 v)]

/-- `wrr RASTER[i], v` (R71). -/
def hostWrr (i : Nat) (v : Word) : List Turn := [.host (.write .raster i 16 v)]

/-- `wrp CANVAS[i], v` (R71). -/
def hostWrp (i : Nat) (v : Word) : List Turn := [.host (.write .canvas i 32 v)]

/-- `rd NAME` (R71). -/
def hostRd (r : RegName) : List Turn := [.host (.read .reg r.offset 32)]

/-- The spaces `rdm` reads; `rd` reads REG, and the Host does not reach DICT (R47, R71). -/
inductive RdmSpace where
  | cdata
  | ctab
  | raster
  | canvas
  | prev
  | snap
deriving DecidableEq, Repr

/-- The address space. -/
def RdmSpace.space : RdmSpace → Space
  | .cdata => .cdata
  | .ctab => .ctab
  | .raster => .raster
  | .canvas => .canvas
  | .prev => .prev
  | .snap => .snap

/-- The width `w` of an `rdm` (R71). -/
def RdmSpace.width : RdmSpace → Nat
  | .cdata => 8
  | .raster => 16
  | .ctab | .canvas | .prev | .snap => 32

/-- `rdm SPACE[i]` (R71). -/
def hostRdm (sp : RdmSpace) (i : Nat) : List Turn := [.host (.read sp.space i sp.width)]

/-- `wait`, in the run where the engine steps after `polls` reads of STATUS that find BUSY = 1, and one more finds it 0
(R71, R151, log 13). -/
def hostWait (polls : Nat) : List Turn :=
  List.replicate polls (.host (.read .reg RegName.status.offset 32)) ++ [.engine] ++ hostRd .status

/-- `do X`: `wr CMD, enc(X)`, then `wait` (R71). -/
def hostDo (i : Instr) (polls : Nat) : List Turn := hostWr .cmd (encode i) ++ hostWait polls

end Sys2Proof.Machine
end

