-- ==== Sys2Proof/Safety.lean ====
section
/-! DEFINITION. What counts as a safe run: the invariants of the machine, the conditions under which commands run without a
model fault, and the table of refusals (41_codetable.md R82, R85; 60_exceptions.md R124; 20_memory.md R50). -/

namespace Sys2Proof.Safety

open Sys2Proof.Machine

/-- Element `i` has been written since hardware reset (R46, R50). -/
def Written {α : Type} (m : Memory α) (i : Nat) : Prop := (m.read i).isSome = true

/-- The first `n` elements have all been written. -/
def WrittenBelow {α : Type} (m : Memory α) (n : Nat) : Prop := ∀ i < n, Written m i

/-- A memory in its canonical form, inside its capacity (R47). -/
structure MemoryOk {α : Type} (m : Memory α) (cap : Nat) : Prop where
  sorted : m.wf
  bounded : m.within cap

/-- Every memory is in its canonical form, inside its capacity (R40 to R44, R47). -/
structure MemoriesOk (s : State) : Prop where
  cdata : MemoryOk s.cdata s.caps.cdataMax
  ctab : MemoryOk s.ctab Config.maxColors
  dict : MemoryOk s.dict Config.dictSlots
  raster : MemoryOk s.raster s.caps.rasterMax
  canvas : MemoryOk s.canvas s.caps.canvasMax
  prev : MemoryOk s.prev s.caps.canvasMax
  snap : MemoryOk s.snap s.caps.canvasMax

/-- What a valid code's slot holds (R82): a literal's own index, a control mark, or a sequence whose length R89 bounds. -/
structure SlotsOk (t : CodeTable) (d : Memory Slot) : Prop where
  literal : ∀ c < t.lit, d.read c = some (.seq (.single (BitVec.ofNat 8 c)))
  control : ∀ c, c = t.clearCode ∨ c = t.endCode → d.read c = some .control
  entry : ∀ c, t.endCode < c → c < t.nextCode →
    ∃ q : IndexSeq, d.read c = some (.seq q) ∧ q.len + t.endCode ≤ c + 1

/-- The Code Table after CT_INIT: the width invariant of R85 and the slots of R82.
`Nat.size v` is the number of bits of `v` without leading zeros. -/
structure TableOk (t : CodeTable) (d : Memory Slot) : Prop where
  minCode : legalMinCode t.minCode
  colors : legalColors t.numColors
  lower : t.endCode + 1 ≤ t.nextCode
  upper : t.nextCode ≤ Config.dictSlots
  width : t.codeSize = min 12 (Nat.size t.nextCode)
  limit : t.limit = 2 ^ t.codeSize - 1
  slots : SlotsOk t d

/-- The Bit Reader's registers stay in the ranges R28 to R31 show: the cursor passes the data by less than one code. -/
structure ReaderOk (s : State) : Prop where
  nbits : s.br.nbits ≤ Config.maxCodeBits
  cursor : s.br.cursor ≤ 8 * s.br.len + 11
  len : s.br.len ≤ s.caps.cdataMax
  lenShown : s.br.len < 2 ^ 32

/-- The other counting registers fit the fields that show them, ready or not (R32 to R37). -/
structure CountsOk (s : State) : Prop where
  codeSize : s.ct.codeSize ≤ 12
  nextCode : s.ct.nextCode ≤ 4096
  limit : s.ct.limit ≤ 4095
  minCode : s.ct.minCode ≤ 11
  numColors : s.ct.numColors ≤ 256
  outPos : s.rast.outPos ≤ s.caps.rasterMax
  outPosShown : s.rast.outPos < 2 ^ 32

/-- After COMP_RESET the canvas fits, and CANVAS, PREV and SNAP are written below CW*CH (R112). -/
structure CanvasOk (s : State) : Prop where
  fits : s.canvasPixels ≤ s.caps.canvasMax
  canvas : WrittenBelow s.canvas s.canvasPixels
  prev : WrittenBelow s.prev s.canvasPixels
  snap : WrittenBelow s.snap s.canvasPixels

/-- The invariant of the machine. -/
structure Inv (s : State) : Prop where
  memories : MemoriesOk s
  reader : ReaderOk s
  counts : CountsOk s
  table : s.status.ctRdy = true → TableOk s.ct s.dict
  canvas : s.status.compRdy = true → CanvasOk s
  command : s.busy = true → s.status.done = false ∧ s.status.err = .none

/-- The frame's compressed data is loaded: CDATA[0 .. L-1] is written (R40). -/
def DataLoaded (s : State) : Prop := WrittenBelow s.cdata s.inLen

/-- The active colour table is loaded: CTAB[0 .. nc-1] is written (R41). -/
def ColorsLoaded (s : State) : Prop := WrittenBelow s.ctab s.inColors

/-- Everything COMP_DRAW reads of RASTER and CTAB is written: for each frame pixel inside the canvas its raster entry,
and the colour-table entry it maps (R113). -/
def Paintable (s : State) : Prop :=
  ∀ fx < s.frameW, ∀ fy < s.frameH, s.inCanvas fx fy →
    ∃ e src, s.raster.read (fy * s.frameW + fx) = some e ∧ color s e = .ok src

/-- The check of R124 that refuses the command, the first in the order of R125; `none` when the command is not refused. -/
def refusalOf (i : Instr) (s : State) : Option ErrCode :=
  match i with
  | .nop | .softReset => none
  | .brInit => if s.inLen > s.caps.cdataMax then some .badParam else none
  | .brSetnb nb => if nb = 0 ∨ nb > 12 then some .badParam else none
  | .brRead => if s.status.brRdy = false ∨ s.br.nbits = 0 then some .notInit else none
  | .ctInit => if legalMinCode s.inMinCode ∧ legalColors s.inColors then none else some .badParam
  | .ctClear | .ctLookup _ => if s.status.ctRdy = false then some .notInit else none
  | .ctAdd pre _ =>
    if s.status.ctRdy = false then some .notInit
    else if ¬s.ct.valid pre ∨ s.dict.read pre = some .control then some .badCode
    else none
  | .rastDecode => if s.decodeParamsLegal then none else some .badParam
  | .rastDeinterlace => if s.framePixels > s.caps.rasterMax then some .badParam else none
  | .compReset =>
    if s.canvasSize.w.toNat * s.canvasSize.h.toNat > s.caps.canvasMax then some .badParam else none
  | .compDraw =>
    if s.status.compRdy = false then some .notInit
    else if ¬legalColors s.inColors ∨ s.framePixels > s.caps.rasterMax then some .badParam
    else none
  | .compSnap | .compDispose => if s.status.compRdy = false then some .notInit else none
  | .frame =>
    if s.status.compRdy = false then some .notInit
    else if s.decodeParamsLegal then none
    else some .badParam

/-- The state `s`, with the command in it completed: BUSY 0, DONE 1 and nothing else changed (R17). -/
def doneState (s : State) : State := { s with pending := none, status := { s.status with done := true } }

/-- The state `s`, with the command in it refused with `e`: ERR, BUSY and DONE written and nothing else changed (R123). -/
def refusedState (e : ErrCode) (s : State) : State :=
  { s with pending := none, status := { s.status with err := e, done := true } }

/-- Bit `k` of the code stream: bit `k mod 8` of byte `k div 8` (R51), 0 in the two pad bytes (R76). -/
def streamBit (s : State) (k : Nat) : Bool :=
  if k / 8 < s.br.len then ((s.cdata.read (k / 8)).getD 0).getLsbD (k % 8) else false

/-- The bytes a read at the cursor fetches from CDATA are written: those of the three at `cursor div 8` below BL (R76, R77). -/
def WindowWritten (s : State) : Prop :=
  ∀ i, s.br.cursor / 8 ≤ i → i ≤ s.br.cursor / 8 + 2 → i < s.br.len → Written s.cdata i

/-- The turn that comes next is the engine's, and `ts` are the turns after it (R60). -/
def EngineNext (s : State) (ts : List Turn) : Prop := (s.turns = [] ∧ ts = []) ∨ s.turns = .engine :: ts

/-- The turn that comes next is the Host's access `a`, and `ts` are the turns after it (R60). -/
def HostNext (s : State) (a : HostAccess) (ts : List Turn) : Prop := s.turns = .host a :: ts

/-- The accesses the Host may make while BUSY = 0, space by space: element `i` at `n` bits (R48, R49). -/
def HostMayAccess (s : State) (sp : Space) (i n : Nat) : Prop :=
  match sp with
  | .reg => i % 4 = 0 ∧ i ≤ 0xFC ∧ n = 32
  | .cdata => i < s.caps.cdataMax ∧ n = 8
  | .ctab => i < 256 ∧ n = 32
  | .raster => i < s.caps.rasterMax ∧ n = 16
  | .canvas | .prev | .snap => i < s.caps.canvasMax ∧ n = 32
  | .dict => False

/-- The states some run passes through from the state `s`. -/
inductive Reachable (s : State) : State → Prop where
  | start : Reachable s s
  | step {t u : State} : Reachable s t → step t = .next u → Reachable s u

end Sys2Proof.Safety
end

