-- ==== Sys2Proof/Certificates/Slice0/Obligations.lean ====
section
/-! DEFINITION. The statements for the provers. -/

open Sys2Proof Sys2Proof.Machine Sys2Proof.Safety

/-! ### Encoding -/

/-- Every well-formed command decodes back from its word (R65, R67, R70). -/
def Obligations.DecodeOfEncodeIsTheCommand : Prop :=
  ∀ i : Instr, i.wellFormed = true → decode (encode i) = .ok i

/-- Every word that decodes is the encoding of the well-formed command it decodes to: no bit of it is dropped (R65, R68). -/
def Obligations.EncodeOfDecodeIsTheWord : Prop :=
  ∀ (w : Word) (i : Instr), decode w = .ok i → i.wellFormed = true ∧ encode i = w

/-- R67: a word selects a row of the opcode map when `(w & mask) = match`; the decoder reads exactly the commands of the
selected row, and at most one row matches any word. -/
def Obligations.OpcodeRowsSelectTheDecodedCommand : Prop :=
  (∀ (w : Word), ∀ r ∈ opcodeRows, (w &&& r.mask = r.pattern ↔ ∃ i, decode w = .ok i ∧ i.mnemonic = r.mnemonic))
    ∧ ∀ (w : Word), ∀ r ∈ opcodeRows, ∀ r' ∈ opcodeRows,
        w &&& r.mask = r.pattern → w &&& r'.mask = r'.pattern → r = r'

/-- Words written out from R65 and R67 decode to the commands they stand for. -/
def Obligations.WordsOfTheSpecDecode : Prop :=
  decode 0x00000000 = .ok .nop ∧ decode 0x00000001 = .ok .softReset
    ∧ decode 0x00000010 = .ok .brInit ∧ decode 0x00000C11 = .ok (.brSetnb 12) ∧ decode 0x00000012 = .ok .brRead
    ∧ decode 0x00000020 = .ok .ctInit ∧ decode 0x00000021 = .ok .ctClear
    ∧ decode 0x00700522 = .ok (.ctAdd 5 7) ∧ decode 0x000FFF23 = .ok (.ctLookup 4095)
    ∧ decode 0x00000030 = .ok .rastDecode ∧ decode 0x00000031 = .ok .rastDeinterlace
    ∧ decode 0x00000040 = .ok .compReset ∧ decode 0x00000041 = .ok .compDraw ∧ decode 0x00000042 = .ok .compSnap
    ∧ decode 0x00000043 = .ok .compDispose ∧ decode 0x00000050 = .ok .frame
    ∧ decode 0x00001311 = .error .reservedBitSet ∧ decode 0x00000002 = .error .unknownOpcode

/-- R68: a word that matches no row of R67 is illegal; the engine refuses it with ERR_ILLEGAL and changes nothing else. -/
def Obligations.IllegalWordIsRefused : Prop :=
  ∀ (s : State) (w : Word) (ts : List Turn), (∀ r ∈ opcodeRows, w &&& r.mask ≠ r.pattern) →
    s.pending = some w → EngineNext s ts → step s = .next (refusedState .illegal { s with turns := ts })

/-! ### The run: engine steps and Host accesses -/

/-- R17, R69: when the engine's turn comes and the pending word decodes to `i`, the step is `exec i` at the state whose
turn is used up. (The list of turns is the model's choice, log 4.) -/
def Obligations.StepRunsTheDecodedCommand : Prop :=
  ∀ (s : State) (w : Word) (i : Instr) (ts : List Turn), s.pending = some w → decode w = .ok i → EngineNext s ts →
    step s = exec i { s with turns := ts }

/-- A word offered by `withFetchWord`, which stands for the Host's issue (the model's choice, log 4), is issued as R15 says
and is what the very next step runs. -/
def Obligations.OfferedWordRunsNext : Prop :=
  ∀ (s : State) (i : Instr), i.wellFormed = true →
    step (s.withFetchWord 32 (encode i).toNat) =
      exec i { s with pending := some (encode i), status := { s.status with done := false, ovr := false, err := .none } }

/-- The engine's step is enabled exactly when BUSY = 1 (R17); an idle engine changes no state (R137, log 5). -/
def Obligations.IdleEngineChangesNothing : Prop :=
  ∀ (s : State) (ts : List Turn), s.busy = false → EngineNext s ts → step s = .next { s with turns := ts }

/-- R17: a command that answers a next state leaves BUSY = 0 and DONE = 1, and no command is a refusal of the model. -/
def Obligations.EveryCommandCompletes : Prop :=
  ∀ (i : Instr) (s : State),
    (∀ t, exec i s = .next t → t.busy = false ∧ t.status.done = true) ∧ ∀ r, exec i s ≠ .refused r

/-- R15: a CMD write while BUSY = 0 latches the word, sets BUSY, clears DONE, ERR and OVR, and changes nothing else. -/
def Obligations.CmdWriteIssuesTheCommand : Prop :=
  ∀ (s : State) (v : Word) (ts : List Turn), s.busy = false → HostNext s (.write .reg 0x04 32 v) ts →
    step s = .next { s with
      turns := ts, pending := some v, status := { s.status with done := false, err := .none, ovr := false } }

/-- R16: a CMD write while BUSY = 1 is ignored: OVR is set, the pending command is unchanged, nothing else changes. -/
def Obligations.CmdWriteWhileBusySetsOvr : Prop :=
  ∀ (s : State) (v : Word) (ts : List Turn), s.busy = true → HostNext s (.write .reg 0x04 32 v) ts →
    step s = .next { s with turns := ts, status := { s.status with ovr := true } }

/-- R71, R15, R17, R61: the Host's `do X`, in the run where `polls` reads of STATUS find BUSY = 1: if the command answers `t`
from the issued state, the run passes through `t` with the last poll recorded, which shows BUSY = 0 and DONE = 1. (That the
run's polls are counted out in the list of turns is the model's choice, logs 4 and 13.) -/
def Obligations.DoRunsOneCommandToCompletion : Prop :=
  ∀ (s issued t : State) (i : Instr) (polls : Nat) (ts : List Turn), s.busy = false → i.wellFormed = true →
    s.turns = hostDo i polls ++ ts →
    issued = { s with
      turns := hostRd .status ++ ts
      pending := some (encode i)
      status := { s.status with done := false, err := .none, ovr := false } } →
    exec i { issued with hostReads := List.replicate polls issued.statusWord ++ s.hostReads } = .next t →
    issued.statusWord.getLsbD 0 = true
      ∧ t.statusWord.getLsbD 0 = false ∧ t.statusWord.getLsbD 1 = true
      ∧ Reachable s { t with turns := ts, hostReads := t.statusWord :: t.hostReads }

/-- R59: while BUSY = 1 the Host has exactly two moves, a read of STATUS (which answers) and a write of CMD; that any other
access is a refusal is the model's form of "no other move" (log 6). -/
def Obligations.BusyHostMayOnlyPollAndWriteCmd : Prop :=
  ∀ (s : State) (a : HostAccess) (ts : List Turn), s.busy = true → HostNext s a ts →
    (a = .read .reg 0x08 32 →
      step s = .next { s with turns := ts, hostReads := s.statusWord :: s.hostReads })
    ∧ ((a ≠ .read .reg 0x08 32 ∧ ∀ v, a ≠ .write .reg 0x04 32 v) → step s = .refused .hostAccessWhileBusy)

/-- R48, R49: with BUSY = 0 the model gives the Host no move outside the admitted accesses; that such an access is a
refusal is the model's form of it (log 6). -/
def Obligations.InadmissibleHostAccessIsNoMove : Prop :=
  ∀ (s : State) (sp : Space) (i n : Nat) (v : Word) (ts : List Turn) (a : HostAccess), s.busy = false →
    (a = .write sp i n v ∨ a = .read sp i n) → HostNext s a ts →
    (step s = .refused .hostAccessNotAdmitted ↔ ¬HostMayAccess s sp i n)

/-- R48 on the memories: an admitted write stores the element's own bits of `v` at `i` and changes no other element
and nothing else. -/
def Obligations.HostWriteStoresOneElement : Prop :=
  ∀ (s : State) (i : Nat) (v : Word) (ts : List Turn), s.busy = false →
    (HostNext s (.write .cdata i 8 v) ts → i < s.caps.cdataMax →
      ∃ m, step s = .next { s with turns := ts, cdata := m }
        ∧ m.read i = some (v.setWidth 8) ∧ ∀ j ≠ i, m.read j = s.cdata.read j)
    ∧ (HostNext s (.write .ctab i 32 v) ts → i < 256 →
      ∃ m, step s = .next { s with turns := ts, ctab := m }
        ∧ m.read i = some (v.setWidth 24) ∧ ∀ j ≠ i, m.read j = s.ctab.read j)
    ∧ (HostNext s (.write .raster i 16 v) ts → i < s.caps.rasterMax →
      ∃ m, step s = .next { s with turns := ts, raster := m }
        ∧ m.read i = some (v.setWidth 9) ∧ ∀ j ≠ i, m.read j = s.raster.read j)
    ∧ (HostNext s (.write .canvas i 32 v) ts → i < s.caps.canvasMax →
      ∃ m, step s = .next { s with turns := ts, canvas := m }
        ∧ m.read i = some v ∧ ∀ j ≠ i, m.read j = s.canvas.read j)
    ∧ (HostNext s (.write .prev i 32 v) ts → i < s.caps.canvasMax →
      ∃ m, step s = .next { s with turns := ts, prev := m }
        ∧ m.read i = some v ∧ ∀ j ≠ i, m.read j = s.prev.read j)
    ∧ (HostNext s (.write .snap i 32 v) ts → i < s.caps.canvasMax →
      ∃ m, step s = .next { s with turns := ts, snap := m }
        ∧ m.read i = some v ∧ ∀ j ≠ i, m.read j = s.snap.read j)

/-- R48 to R50, R55: an admitted read of a memory returns the element zero-extended, and an admitted read of REG the
register's word (which `StatusWordShowsItsFields` gives); it changes nothing but the Host's record of it. A read of an
element never written is the fault UnwrittenRead. -/
def Obligations.HostReadReturnsTheElement : Prop :=
  ∀ (s : State) (sp : Space) (i n : Nat) (ts : List Turn), s.busy = false → HostNext s (.read sp i n) ts →
    (sp = .reg ∧ i % 4 = 0 ∧ i ≤ 0xFC ∧ n = 32 →
      step s = .next { s with turns := ts, hostReads := readRegAt s i :: s.hostReads })
    ∧ (sp = .cdata ∧ i < s.caps.cdataMax ∧ n = 8 →
      (∀ v, s.cdata.read i = some v → step s = .next { s with turns := ts, hostReads := v.setWidth 32 :: s.hostReads })
      ∧ (s.cdata.read i = none → step s = .fault (.unwrittenRead .cdata i)))
    ∧ (sp = .ctab ∧ i < 256 ∧ n = 32 →
      (∀ v, s.ctab.read i = some v → step s = .next { s with turns := ts, hostReads := v.setWidth 32 :: s.hostReads })
      ∧ (s.ctab.read i = none → step s = .fault (.unwrittenRead .ctab i)))
    ∧ (sp = .raster ∧ i < s.caps.rasterMax ∧ n = 16 →
      (∀ v, s.raster.read i = some v → step s = .next { s with turns := ts, hostReads := v.setWidth 32 :: s.hostReads })
      ∧ (s.raster.read i = none → step s = .fault (.unwrittenRead .raster i)))
    ∧ (sp = .canvas ∧ i < s.caps.canvasMax ∧ n = 32 →
      (∀ v, s.canvas.read i = some v → step s = .next { s with turns := ts, hostReads := v :: s.hostReads })
      ∧ (s.canvas.read i = none → step s = .fault (.unwrittenRead .canvas i)))
    ∧ (sp = .prev ∧ i < s.caps.canvasMax ∧ n = 32 →
      (∀ v, s.prev.read i = some v → step s = .next { s with turns := ts, hostReads := v :: s.hostReads })
      ∧ (s.prev.read i = none → step s = .fault (.unwrittenRead .prev i)))
    ∧ (sp = .snap ∧ i < s.caps.canvasMax ∧ n = 32 →
      (∀ v, s.snap.read i = some v → step s = .next { s with turns := ts, hostReads := v :: s.hostReads })
      ∧ (s.snap.read i = none → step s = .fault (.unwrittenRead .snap i)))

/-- R48 on REG: the six RW registers store their fields; every other offset but CMD's ignores the write. -/
def Obligations.HostWriteReachesOnlyRwRegisters : Prop :=
  ∀ (s : State) (i : Nat) (v : Word) (ts : List Turn), s.busy = false → HostNext s (.write .reg i 32 v) ts →
    (i = 0x0C → step s = .next { s with turns := ts, canvasSize := ⟨v.extractLsb' 0 16, v.extractLsb' 16 16⟩ })
    ∧ (i = 0x10 → step s = .next { s with turns := ts, frPos := ⟨v.extractLsb' 0 16, v.extractLsb' 16 16⟩ })
    ∧ (i = 0x14 → step s = .next { s with turns := ts, frSize := ⟨v.extractLsb' 0 16, v.extractLsb' 16 16⟩ })
    ∧ (i = 0x18 → step s = .next { s with
        turns := ts
        frCtrl := ⟨v.getLsbD 0, v.getLsbD 1, v.extractLsb' 2 3, v.extractLsb' 8 8, v.extractLsb' 16 8⟩ })
    ∧ (i = 0x1C → step s = .next { s with turns := ts, frDlen := v })
    ∧ (i = 0x20 → step s = .next { s with turns := ts, numColors := v.extractLsb' 0 9 })
    ∧ (i % 4 = 0 → i ≤ 0xFC → i ∉ [0x04, 0x0C, 0x10, 0x14, 0x18, 0x1C, 0x20] → step s = .next { s with turns := ts })

/-- Section 3 of 10_state.md: "Reserved bits read as 0 and ignore writes in every register": what the Host reads from an
RW register right after writing `v` to it is `v` without the reserved bits. -/
def Obligations.RwRegisterReadsBackWithoutReservedBits : Prop :=
  ∀ (s : State) (i mask : Nat) (v : Word) (ts : List Turn), s.busy = false →
    (i, mask) ∈ [(0x0C, 0xFFFFFFFF), (0x10, 0xFFFFFFFF), (0x14, 0xFFFFFFFF), (0x18, 0x00FFFF1F), (0x1C, 0xFFFFFFFF),
      (0x20, 0x000001FF)] →
    s.turns = .host (.write .reg i 32 v) :: .host (.read .reg i 32) :: ts →
    ∃ t, step s = .next t
      ∧ step t = .next { t with turns := ts, hostReads := (v &&& BitVec.ofNat 32 mask) :: s.hostReads }

/-- R18 to R39: the word of STATUS, and of every other register, shows each field in its place and 0 in its reserved bits;
ID and CMD read constants and the reserved offsets 0. A row of the list is a register's offset, the field's lowest bit and
width, and the number the field shows; a counting register shows its low bits at the field's width (the model's reading,
log 2). -/
def Obligations.StatusWordShowsItsFields : Prop :=
  ∀ s : State,
    readRegAt s 0x08 = s.statusWord
    ∧ s.statusWord.getLsbD 0 = s.pending.isSome ∧ s.statusWord.getLsbD 1 = s.status.done
    ∧ s.statusWord.getLsbD 2 = s.status.ovr ∧ s.statusWord.getLsbD 3 = s.status.brOob
    ∧ s.statusWord.extractLsb' 4 4 =
        (match s.status.err with | .none => 0#4 | .illegal => 1#4 | .notInit => 2#4 | .badParam => 3#4 | .badCode => 4#4)
    ∧ s.statusWord.extractLsb' 8 4 =
        (match s.status.endReason with
          | .none => 0#4 | .endCode => 1#4 | .outputFull => 2#4 | .readOob => 3#4 | .badCode => 4#4)
    ∧ s.statusWord.getLsbD 12 = s.status.brRdy ∧ s.statusWord.getLsbD 13 = s.status.ctRdy
    ∧ s.statusWord.getLsbD 14 = s.status.compRdy ∧ s.statusWord.extractLsb' 15 17 = 0
    ∧ readRegAt s 0x00 = 0x4C5A5701 ∧ readRegAt s 0x04 = 0
    ∧ (∀ off lo width n : Nat, (off, lo, width, n) ∈
        [ -- CANVAS_SIZE, FR_POS, FR_SIZE: R22 to R24
          (0x0C, 0, 16, s.canvasSize.w.toNat), (0x0C, 16, 16, s.canvasSize.h.toNat),
          (0x10, 0, 16, s.frPos.x.toNat), (0x10, 16, 16, s.frPos.y.toNat),
          (0x14, 0, 16, s.frSize.w.toNat), (0x14, 16, 16, s.frSize.h.toNat),
          -- FR_CTRL, FR_DLEN, NUM_COLORS: R25 to R27
          (0x18, 0, 1, s.frCtrl.interlaced.toNat), (0x18, 1, 1, s.frCtrl.transp.toNat),
          (0x18, 2, 3, s.frCtrl.disposal.toNat), (0x18, 5, 3, 0), (0x18, 8, 8, s.frCtrl.tidx.toNat),
          (0x18, 16, 8, s.frCtrl.minCode.toNat), (0x18, 24, 8, 0),
          (0x1C, 0, 32, s.frDlen.toNat), (0x20, 0, 9, s.numColors.toNat), (0x20, 9, 23, 0),
          -- BR_CURSOR, BR_NBITS, BR_DATA, BR_LEN: R28 to R31
          (0x24, 0, 32, s.br.cursor), (0x28, 0, 4, s.br.nbits), (0x28, 4, 28, 0),
          (0x2C, 0, 12, s.br.data.toNat), (0x2C, 12, 20, 0), (0x30, 0, 32, s.br.len),
          -- CT_CODESIZE, CT_NEXTCODE, CT_LIMIT, CT_CFG: R32 to R35
          (0x34, 0, 4, s.ct.codeSize), (0x34, 4, 28, 0), (0x38, 0, 13, s.ct.nextCode), (0x38, 13, 19, 0),
          (0x3C, 0, 13, s.ct.limit), (0x3C, 13, 19, 0),
          (0x40, 0, 4, s.ct.minCode), (0x40, 4, 12, 0), (0x40, 16, 9, s.ct.numColors), (0x40, 25, 7, 0),
          -- CT_LOOKUP: R36
          (0x44, 0, 13, s.ct.lookup.len.toNat),
          (0x44, 13, 2, match s.ct.lookup.kind with | .notValid => 0 | .sequence => 1 | .control => 2), (0x44, 15, 1, 0),
          (0x44, 16, 8, s.ct.lookup.first.toNat), (0x44, 24, 8, s.ct.lookup.last.toNat),
          -- RAST_OUTPOS, RAST_PREV, COMP_CSIZE: R37 to R39
          (0x48, 0, 32, s.rast.outPos), (0x4C, 0, 12, s.rast.prev.toNat), (0x4C, 12, 3, 0),
          (0x4C, 15, 1, s.rast.pv.toNat), (0x4C, 16, 16, 0),
          (0x50, 0, 16, s.compSize.w.toNat), (0x50, 16, 16, s.compSize.h.toNat)] →
        (readRegAt s off).extractLsb' lo width = BitVec.ofNat width n)
    ∧ ∀ off, 0x54 ≤ off → off ≤ 0xFC → readRegAt s off = 0

/-- R138: after hardware reset ID reads 0x4C5A5701, every other word of REG reads 0, no command is pending, and no
element of any memory is written. -/
def Obligations.ResetIsTheStateOfHardwareReset : Prop :=
  (∀ i, i % 4 = 0 → i ≤ 0xFC → readRegAt State.reset i = if i = 0 then 0x4C5A5701 else 0)
    ∧ State.reset.busy = false
    ∧ ∀ j, State.reset.cdata.read j = none ∧ State.reset.ctab.read j = none ∧ State.reset.dict.read j = none
        ∧ State.reset.raster.read j = none ∧ State.reset.canvas.read j = none ∧ State.reset.prev.read j = none
        ∧ State.reset.snap.read j = none

/-! ### Refusals -/

/-- R123, R124, R125: a command whose checks fail is refused with the first error that applies, and a command whose
checks pass leaves STATUS.ERR alone (SOFT_RESET clears it with the rest of STATUS). -/
def Obligations.RefusalIsPrecise : Prop :=
  ∀ (i : Instr) (s : State),
    (∀ e, refusalOf i s = some e → exec i s = .next (refusedState e s))
    ∧ (refusalOf i s = none → ∀ t, exec i s = .next t →
        t.status.err = if i = .softReset then .none else s.status.err)

/-! ### Control commands -/

/-- R117: NOP completes and writes nothing but BUSY and DONE; issued by the Host from an idle engine it also leaves ERR and
OVR clear. -/
def Obligations.NopOnlyCompletes : Prop :=
  encode .nop = 0x00000000
    ∧ (∀ s : State, exec .nop s = .next (doneState s))
    ∧ ∀ (s : State) (ts : List Turn), s.busy = false → s.turns = hostWr .cmd (encode .nop) ++ .engine :: ts →
        ∃ t, step s = .next t ∧ step t = .next { s with
          turns := ts, status := { s.status with done := true, err := .none, ovr := false } }

/-- R118: SOFT_RESET returns every register but ID to 0, completes, and keeps the memories. (That STATUS.OVR is among the
registers it resets is DEDUCED, log 8.) -/
def Obligations.SoftResetKeepsTheMemories : Prop :=
  encode .softReset = 0x00000001
    ∧ ∀ s : State, exec .softReset s = .next { State.reset with
        status := { Status.reset with done := true }
        caps := s.caps, cdata := s.cdata, ctab := s.ctab, dict := s.dict, raster := s.raster
        canvas := s.canvas, prev := s.prev, snap := s.snap, turns := s.turns, hostReads := s.hostReads }

/-! ### Bit Reader -/

/-- R79: BR_INIT. -/
def Obligations.BrInitLatchesTheLength : Prop :=
  encode .brInit = 0x00000010
    ∧ ∀ s : State,
      (s.frDlen.toNat ≤ s.caps.cdataMax →
        exec .brInit s = .next (doneState { s with
          br := { s.br with len := s.frDlen.toNat, cursor := 0, data := 0 }
          status := { s.status with brOob := false, brRdy := true } }))
      ∧ (s.frDlen.toNat > s.caps.cdataMax → exec .brInit s = .next (refusedState .badParam s))

/-- R80: BR_SETNB. -/
def Obligations.BrSetnbSetsTheWidth : Prop :=
  ∀ (nb : Nat), nb < 2 ^ 4 → encode (.brSetnb nb) = BitVec.ofNat 32 (0x11 + nb * 2 ^ 8) ∧ ∀ (s : State),
    (1 ≤ nb ∧ nb ≤ 12 → exec (.brSetnb nb) s = .next (doneState { s with br := { s.br with nbits := nb } }))
    ∧ (nb = 0 ∨ nb > 12 → exec (.brSetnb nb) s = .next (refusedState .badParam s))

/-- R77, R81, R51: a read in range answers; BR_DATA is the next `n` bits of the stream, least significant first, the cursor
advances by `n`, and nothing else changes. -/
def Obligations.BrReadReturnsTheNextStreamBits : Prop :=
  ∀ s : State, s.status.brRdy = true → 1 ≤ s.br.nbits → s.br.nbits ≤ 12 → s.br.cursor / 8 < s.br.len → WindowWritten s →
    ∃ v : Code,
      exec .brRead s = .next (doneState { s with br := { s.br with cursor := s.br.cursor + s.br.nbits, data := v } })
      ∧ ∀ j, v.getLsbD j = (decide (j < s.br.nbits) && streamBit s (s.br.cursor + j))

/-- R77, R81: a read whose window passes the padding sets BR_OOB, and leaves the cursor, BR_DATA and everything else. -/
def Obligations.BrReadOutOfRangeSetsOob : Prop :=
  ∀ s : State, s.status.brRdy = true → s.br.nbits ≠ 0 → s.br.cursor / 8 ≥ s.br.len →
    exec .brRead s = .next (doneState { s with status := { s.status with brOob := true } })

/-- R50 for the Bit Reader: a read in range of a byte below BL never written is the fault UnwrittenRead. -/
def Obligations.BrReadStopsOnAnUnwrittenByte : Prop :=
  ∀ s : State, s.status.brRdy = true → s.br.nbits ≠ 0 → s.br.cursor / 8 < s.br.len → ¬WindowWritten s →
    ∃ i, s.br.cursor / 8 ≤ i ∧ i ≤ s.br.cursor / 8 + 2 ∧ i < s.br.len ∧ s.cdata.read i = none
      ∧ exec .brRead s = .fault (.unwrittenRead .cdata i)

/-- R148: what CDATA holds at and beyond the data's length has no effect on a decode (nor on a BR_READ). -/
def Obligations.BytesPastTheDataHaveNoEffect : Prop :=
  ∀ (s : State) (m : Memory Byte),
    ((∀ i < s.frDlen.toNat, m.read i = s.cdata.read i) →
      (∀ t, exec .rastDecode s = .next t → exec .rastDecode { s with cdata := m } = .next { t with cdata := m })
      ∧ ∀ f, exec .rastDecode s = .fault f → exec .rastDecode { s with cdata := m } = .fault f)
    ∧ ((∀ i < s.br.len, m.read i = s.cdata.read i) →
      (∀ t, exec .brRead s = .next t → exec .brRead { s with cdata := m } = .next { t with cdata := m })
      ∧ ∀ f, exec .brRead s = .fault f → exec .brRead { s with cdata := m } = .fault f)

/-! ### Code Table -/

/-- R86: CT_INIT. (A slot that holds Empty is one that DICT does not list, log 3.) -/
def Obligations.CtInitSeedsTheTable : Prop :=
  encode .ctInit = 0x00000020
    ∧ ∀ (s : State) (m nc : Nat), m = s.frCtrl.minCode.toNat → nc = s.numColors.toNat →
      (2 ≤ m ∧ m ≤ 11 ∧ nc ∈ [2, 4, 8, 16, 32, 64, 128, 256] →
        ∃ d : Memory Slot,
          exec .ctInit s = .next (doneState { s with
            ct := { s.ct with
              minCode := m, numColors := nc, codeSize := m + 1, limit := 2 ^ (m + 1) - 1, nextCode := 2 ^ m + 1 + 1 }
            dict := d
            br := { s.br with nbits := m + 1 }
            status := { s.status with ctRdy := true } })
          ∧ ∀ c, d.read c =
              if c = 2 ^ m ∨ c = 2 ^ m + 1 then some .control
              else if c < nc then some (.seq ⟨BitVec.ofNat 8 c, []⟩)
              else none)
      ∧ (¬(2 ≤ m ∧ m ≤ 11 ∧ nc ∈ [2, 4, 8, 16, 32, 64, 128, 256]) →
          exec .ctInit s = .next (refusedState .badParam s))

/-- R87: CT_CLEAR rewinds the free pointer, the width and the limit, does not write DICT, and is idempotent. -/
def Obligations.CtClearRewindsTheTable : Prop :=
  encode .ctClear = 0x00000021
    ∧ ∀ s : State,
      (s.status.ctRdy = true → exec .ctClear s = .next (doneState { s with
        ct := { s.ct with
          codeSize := s.ct.minCode + 1, limit := 2 ^ (s.ct.minCode + 1) - 1, nextCode := 2 ^ s.ct.minCode + 1 + 1 }
        br := { s.br with nbits := s.ct.minCode + 1 } }))
      ∧ (s.status.ctRdy = false → exec .ctClear s = .next (refusedState .notInit s))
      ∧ ∀ t, exec .ctClear s = .next t → exec .ctClear t = .next t

/-- R84, R88: CT_ADD stores the prefix's sequence with `k` at nextCode, growing the width first exactly at nextCodeLimit
below 12 bits; on a full table it does nothing; a prefix that is not valid, or is a control code, is refused. -/
def Obligations.CtAddStoresOneEntry : Prop :=
  ∀ (pre k : Nat), pre < 2 ^ 12 → k < 2 ^ 8 →
    encode (.ctAdd pre k) = BitVec.ofNat 32 (0x22 + pre * 2 ^ 8 + k * 2 ^ 20) ∧ ∀ s : State,
    (s.status.ctRdy = false → exec (.ctAdd pre k) s = .next (refusedState .notInit s))
    ∧ (s.status.ctRdy = true → (¬s.ct.valid pre ∨ s.dict.read pre = some .control) →
        exec (.ctAdd pre k) s = .next (refusedState .badCode s))
    ∧ ∀ q : IndexSeq, s.status.ctRdy = true → s.ct.valid pre → s.dict.read pre = some (.seq q) →
      (s.ct.nextCode ≥ 4096 → exec (.ctAdd pre k) s = .next (doneState s))
      ∧ (s.ct.nextCode < 4096 →
        ∃ (d : Memory Slot) (size lim n : Nat),
          exec (.ctAdd pre k) s = .next (doneState { s with
            ct := { s.ct with codeSize := size, limit := lim, nextCode := s.ct.nextCode + 1 }
            br := { s.br with nbits := n }
            dict := d })
          ∧ (if s.ct.nextCode = s.ct.limit ∧ s.ct.codeSize < 12 then
              size = s.ct.codeSize + 1 ∧ lim = 2 ^ (s.ct.codeSize + 1) - 1 ∧ n = s.ct.codeSize + 1
            else size = s.ct.codeSize ∧ lim = s.ct.limit ∧ n = s.br.nbits)
          ∧ (∃ q' : IndexSeq, d.read s.ct.nextCode = some (.seq q') ∧ q'.toList = q.toList ++ [BitVec.ofNat 8 k])
          ∧ ∀ c ≠ s.ct.nextCode, d.read c = s.dict.read c)

/-- R89: CT_LOOKUP writes the CT_LOOKUP register only: zero for a code that is not valid, the code itself for a control
slot, length and ends for a sequence. -/
def Obligations.CtLookupShowsOneSlot : Prop :=
  ∀ code : Nat, code < 2 ^ 12 → encode (.ctLookup code) = BitVec.ofNat 32 (0x23 + code * 2 ^ 8) ∧ ∀ s : State,
    (s.status.ctRdy = false → exec (.ctLookup code) s = .next (refusedState .notInit s))
    ∧ (s.status.ctRdy = true → ¬s.ct.valid code →
        exec (.ctLookup code) s = .next (doneState { s with ct := { s.ct with lookup := ⟨0, .notValid, 0, 0⟩ } }))
    ∧ (s.status.ctRdy = true → s.ct.valid code → s.dict.read code = some .control →
        exec (.ctLookup code) s = .next (doneState { s with
          ct := { s.ct with lookup := ⟨1, .control, BitVec.ofNat 8 code, BitVec.ofNat 8 code⟩ } }))
    ∧ ∀ q : IndexSeq, s.status.ctRdy = true → s.ct.valid code → s.dict.read code = some (.seq q) →
        ∃ last, q.toList.getLast? = some last ∧
          exec (.ctLookup code) s = .next (doneState { s with
            ct := { s.ct with lookup := ⟨BitVec.ofNat 13 q.toList.length, .sequence, q.first, last⟩ } })

/-- R46, R82: a DICT slot whose code is not valid is never observed: neither by CT_ADD and CT_LOOKUP nor, whatever DICT
holds, by a decode. -/
def Obligations.StaleSlotsAreNeverObserved : Prop :=
  ∀ (s : State) (d : Memory Slot),
    ((∀ c, s.ct.valid c → d.read c = s.dict.read c) → ∀ code,
      (∀ t, exec (.ctLookup code) s = .next t → exec (.ctLookup code) { s with dict := d } = .next { t with dict := d })
      ∧ ∀ k t, exec (.ctAdd code k) s = .next t →
          ∃ t', exec (.ctAdd code k) { s with dict := d } = .next t' ∧ t' = { t with dict := t'.dict }
            ∧ ∀ c, t.ct.valid c → t'.dict.read c = t.dict.read c)
    ∧ (s.decodeParamsLegal → exec .rastDecode { s with dict := d } = exec .rastDecode s)

/-! ### Frame Rasterizer -/

/-- R90, R92, R105: with legal parameters and the frame's data loaded RAST_DECODE answers a next state, whatever the stream
holds: both units are set up, an end reason is given, ERR is untouched, the raster is written below W*H and untouched
above, and no more than W*H entries were emitted. -/
def Obligations.RastDecodeAlwaysEnds : Prop :=
  ∀ s : State, s.decodeParamsLegal → DataLoaded s →
    ∃ t, exec .rastDecode s = .next t
      ∧ t.status.endReason ≠ .none ∧ t.status.err = s.status.err
      ∧ (t.status.brOob = true ↔ t.status.endReason = .readOob)
      ∧ t.status.brRdy = true ∧ t.status.ctRdy = true
      ∧ t.br.len = s.frDlen.toNat ∧ t.ct.minCode = s.frCtrl.minCode.toNat ∧ t.ct.numColors = s.numColors.toNat
      ∧ TableOk t.ct t.dict ∧ t.br.nbits = t.ct.codeSize
      ∧ t.rast.outPos ≤ s.framePixels ∧ WrittenBelow t.raster s.framePixels
      ∧ ∀ j ≥ s.framePixels, t.raster.read j = s.raster.read j

/-- R91, R92: after a decode of a frame that is not interlaced, the raster holds a colour index at every entry below outPos
and NONE from there to W*H. -/
def Obligations.DecodedRasterIsIndicesThenNone : Prop :=
  ∀ s t : State, s.decodeParamsLegal → s.frCtrl.interlaced = false → exec .rastDecode s = .next t →
    ∀ j < s.framePixels,
      (j < t.rast.outPos → ∃ k : Index, t.raster.read j = some (k.setWidth 9))
      ∧ (t.rast.outPos ≤ j → t.raster.read j = some 0x100)

/-- R105: RAST_DECODE of an interlaced frame is the decode of the same frame not interlaced, and then
RAST_DEINTERLACE. -/
def Obligations.InterlacedDecodeIsDecodeThenDeinterlace : Prop :=
  ∀ s t u : State, s.decodeParamsLegal → s.frCtrl.interlaced = true →
    exec .rastDecode { s with frCtrl := { s.frCtrl with interlaced := false } } = .next t →
    exec .rastDeinterlace t = .next u → exec .rastDecode s = .next { u with frCtrl := s.frCtrl }

/-- R102: no decode outruns its bound (the model's own device, log 10), whatever the state: neither RAST_DECODE nor FRAME
stops for want of turns. -/
def Obligations.EveryDecodeEnds : Prop :=
  ∀ s : State, exec .rastDecode s ≠ .fault .decodeUnbounded ∧ exec .frame s ≠ .fault .decodeUnbounded

/-- R94, R101: the code a decode reads first is discarded whatever it is, and the loop starts after it in the state the read
left, with the table of the setup; a first read out of range ends the decode with READ_OOB. -/
def Obligations.DecodeDiscardsTheLeadingCode : Prop :=
  ∀ s : State,
    (s.frDlen = 0 → decodeCodes (decodeSetup s) =
      .ok { decodeSetup s with status := { (decodeSetup s).status with brOob := true, endReason := .readOob } })
    ∧ ∀ (c : Code) (t : State), readCode (decodeSetup s) = .ok (.code c, t) →
      decodeCodes (decodeSetup s) = decodeLoop (decodeBound t) t
      ∧ t = { decodeSetup s with br := { (decodeSetup s).br with cursor := s.frCtrl.minCode.toNat + 1, data := c } }

/-- R96, R97, R101: what a turn of the decode loop does on an Oob read, on CLEAR and on END. -/
def Obligations.DecodeOobClearAndEnd : Prop :=
  ∀ s : State,
    (s.br.cursor / 8 ≥ s.br.len →
      decodeTurn s = .ok (.ended { s with status := { s.status with brOob := true, endReason := .readOob } }))
    ∧ ∀ (c : Code) (t : State), readCode s = .ok (.code c, t) →
      (c.toNat = 2 ^ t.ct.minCode →
        decodeTurn s = .ok (.more { t with
          ct := { t.ct with
            codeSize := t.ct.minCode + 1, limit := 2 ^ (t.ct.minCode + 1) - 1, nextCode := 2 ^ t.ct.minCode + 1 + 1 }
          br := { t.br with nbits := t.ct.minCode + 1 }
          rast := { t.rast with pv := false } }))
      ∧ (c.toNat = 2 ^ t.ct.minCode + 1 →
        decodeTurn s = .ok (.ended { t with status := { t.status with endReason := .endCode } }))

/-- R95, R100: a data code at FRESH: an invalid one ends with BAD_CODE; a valid one is emitted if it fits, becomes `prev`,
and adds no entry. (That PV = 0 stands for FRESH is the model's reading, log 11.) -/
def Obligations.DecodeFreshCode : Prop :=
  ∀ (s : State) (c : Code), s.rast.pv = false → c.toNat ≠ s.ct.clearCode → c.toNat ≠ s.ct.endCode →
    (¬s.ct.valid c.toNat →
      codeStep c s = .ok (.ended { s with status := { s.status with endReason := .badCode } }))
    ∧ ∀ q : IndexSeq, s.ct.valid c.toNat → s.dict.read c.toNat = some (.seq q) →
      (s.rast.outPos + q.toList.length > s.framePixels →
        codeStep c s = .ok (.ended { s with status := { s.status with endReason := .outputFull } }))
      ∧ (s.rast.outPos + q.toList.length ≤ s.framePixels →
        ∃ r : Memory RasterEntry,
          codeStep c s = .ok (.more { s with
            raster := r, rast := { outPos := s.rast.outPos + q.toList.length, prev := c, pv := true } })
          ∧ (∀ i k, q.toList[i]? = some k → r.read (s.rast.outPos + i) = some (k.setWidth 9))
          ∧ ∀ j, (j < s.rast.outPos ∨ j ≥ s.rast.outPos + q.toList.length) → r.read j = s.raster.read j)

/-- R84, R98, R99, R100: a data code at NEXT. With `prev` not valid, or a gap code, the decode ends with BAD_CODE. Otherwise
the sequence `out` of a code below nextCode, or `p ++ [p[0]]` for one not yet in the table, is emitted if it fits, and
`p ++ [out[0]]` is added at nextCode, which is `out` itself in the second case, with the width, the limit and `n` grown
first exactly at the limit below 12 bits; `prev` becomes the code. (That PV = 1 stands for NEXT is the model's reading,
log 11.) -/
def Obligations.DecodeNextCode : Prop :=
  ∀ (s : State) (c : Code), s.rast.pv = true → c.toNat ≠ s.ct.clearCode → c.toNat ≠ s.ct.endCode →
    (¬s.ct.valid s.rast.prev.toNat →
      codeStep c s = .ok (.ended { s with status := { s.status with endReason := .badCode } }))
    ∧ ∀ p : IndexSeq, s.ct.valid s.rast.prev.toNat → s.dict.read s.rast.prev.toNat = some (.seq p) →
      (c.toNat < s.ct.nextCode → ¬s.ct.valid c.toNat →
        codeStep c s = .ok (.ended { s with status := { s.status with endReason := .badCode } }))
      ∧ ∀ out : IndexSeq,
        (s.ct.valid c.toNat ∧ s.dict.read c.toNat = some (.seq out)
          ∨ s.ct.nextCode ≤ c.toNat ∧ out.toList = p.toList ++ [p.first]) →
        (s.rast.outPos + out.toList.length > s.framePixels →
          codeStep c s = .ok (.ended { s with status := { s.status with endReason := .outputFull } }))
        ∧ (s.rast.outPos + out.toList.length ≤ s.framePixels →
          ∃ r : Memory RasterEntry,
            (∀ i k, out.toList[i]? = some k → r.read (s.rast.outPos + i) = some (k.setWidth 9))
            ∧ (∀ j, (j < s.rast.outPos ∨ j ≥ s.rast.outPos + out.toList.length) → r.read j = s.raster.read j)
            ∧ (s.ct.nextCode ≥ 4096 →
              codeStep c s = .ok (.more { s with
                raster := r, rast := { outPos := s.rast.outPos + out.toList.length, prev := c, pv := true } }))
            ∧ (s.ct.nextCode < 4096 →
              ∃ (d : Memory Slot) (size lim n : Nat),
                codeStep c s = .ok (.more { s with
                  raster := r
                  rast := { outPos := s.rast.outPos + out.toList.length, prev := c, pv := true }
                  ct := { s.ct with codeSize := size, limit := lim, nextCode := s.ct.nextCode + 1 }
                  br := { s.br with nbits := n }
                  dict := d })
                ∧ (if s.ct.nextCode = s.ct.limit ∧ s.ct.codeSize < 12 then
                    size = s.ct.codeSize + 1 ∧ lim = 2 ^ (s.ct.codeSize + 1) - 1 ∧ n = s.ct.codeSize + 1
                  else size = s.ct.codeSize ∧ lim = s.ct.limit ∧ n = s.br.nbits)
                ∧ (∃ e : IndexSeq, d.read s.ct.nextCode = some (.seq e) ∧ e.toList = p.toList ++ [out.first])
                ∧ ∀ j ≠ s.ct.nextCode, d.read j = s.dict.read j))

/-- R72: in a decode every code but the leading one is read at the current codeSize: setup leaves the reader's width equal
to it, and so does every turn of the loop. -/
def Obligations.DecodeReadsAtTheCurrentWidth : Prop :=
  (∀ s : State, (decodeSetup s).br.nbits = s.frCtrl.minCode.toNat + 1
      ∧ (decodeSetup s).br.nbits = (decodeSetup s).ct.codeSize)
    ∧ ∀ s t : State, s.br.nbits = s.ct.codeSize → decodeTurn s = .ok (.more t) → t.br.nbits = t.ct.codeSize

/-- R103, R104: `order` holds each row once, and the four passes have the sizes and the starts of R104. -/
def Obligations.InterlaceOrderIsAPermutationOfTheRows : Prop :=
  ∀ h : Nat,
    (interlaceOrder h).Perm (List.range h)
    ∧ (h + 7) / 8 + (h + 3) / 8 + (h + 1) / 4 + h / 2 = h
    ∧ (∀ k < (h + 7) / 8, (interlaceOrder h)[k]? = some (8 * k))
    ∧ (∀ k < (h + 3) / 8, (interlaceOrder h)[(h + 7) / 8 + k]? = some (8 * k + 4))
    ∧ (∀ k < (h + 1) / 4, (interlaceOrder h)[(h + 7) / 8 + (h + 3) / 8 + k]? = some (4 * k + 2))
    ∧ (∀ k < h / 2, (interlaceOrder h)[h - h / 2 + k]? = some (2 * k + 1))

/-- R103, R106: RAST_DEINTERLACE moves stored row `i` to row `order[i]` and touches nothing else; an entry of the frame
never written is the fault UnwrittenRead; a frame above RASTER_MAX is refused. -/
def Obligations.DeinterlaceMovesEveryRow : Prop :=
  encode .rastDeinterlace = 0x00000031
    ∧ ∀ s : State,
      (s.framePixels > s.caps.rasterMax → exec .rastDeinterlace s = .next (refusedState .badParam s))
      ∧ (s.framePixels ≤ s.caps.rasterMax → WrittenBelow s.raster s.framePixels →
        ∃ r : Memory RasterEntry,
          exec .rastDeinterlace s = .next (doneState { s with raster := r })
          ∧ (∀ i row x, (interlaceOrder s.frameH)[i]? = some row → x < s.frameW →
              r.read (row * s.frameW + x) = s.raster.read (i * s.frameW + x))
          ∧ ∀ j ≥ s.framePixels, r.read j = s.raster.read j)
      ∧ (s.framePixels ≤ s.caps.rasterMax → ¬WrittenBelow s.raster s.framePixels →
        ∃ j < s.framePixels, s.raster.read j = none ∧ exec .rastDeinterlace s = .fault (.unwrittenRead .raster j))

/-! ### Frame Compositor -/

/-- R112: COMP_RESET. -/
def Obligations.CompResetClearsTheCanvas : Prop :=
  encode .compReset = 0x00000040
    ∧ ∀ (s : State) (n : Nat), n = s.canvasSize.w.toNat * s.canvasSize.h.toNat →
      (n ≤ s.caps.canvasMax →
        ∃ cv pv sn : Memory Pixel,
          exec .compReset s = .next (doneState { s with
            compSize := s.canvasSize, canvas := cv, prev := pv, snap := sn, status := { s.status with compRdy := true } })
          ∧ (∀ j < n, cv.read j = some 0 ∧ pv.read j = some 0 ∧ sn.read j = some 0)
          ∧ ∀ j ≥ n, cv.read j = s.canvas.read j ∧ pv.read j = s.prev.read j ∧ sn.read j = s.snap.read j)
      ∧ (n > s.caps.canvasMax → exec .compReset s = .next (refusedState .badParam s))

/-- R107: `color`, case by case, with the fault of R50 where the colour-table entry was never written. -/
def Obligations.ColorMapsEveryEntry : Prop :=
  ∀ (s : State) (e : RasterEntry) (i : Nat), i = e.toNat % 2 ^ 8 →
    (e.toNat ≥ 2 ^ 8 → color s e = .ok .nothing)
    ∧ (e.toNat < 2 ^ 8 → i ≥ s.numColors.toNat → color s e = .ok .nothing)
    ∧ (e.toNat < 2 ^ 8 → i < s.numColors.toNat →
        (s.frCtrl.transp = true ∧ i = s.frCtrl.tidx.toNat →
          ∃ src, color s e = .ok src ∧ src.pixel = some 0x00000000)
        ∧ (¬(s.frCtrl.transp = true ∧ i = s.frCtrl.tidx.toNat) →
          (∀ c, s.ctab.read i = some c → ∃ src, color s e = .ok src ∧ src.pixel = some (0xFF000000 ||| c.setWidth 32))
          ∧ (s.ctab.read i = none → color s e = .error (.unwrittenRead .ctab i))))

/-- R108: `blend` by the source's alpha; `color` produces no alpha but 0x00 and 0xFF. (That a source is one of three kinds
is the model's reading, log 17.) -/
def Obligations.BlendFollowsTheSourceAlpha : Prop :=
  (∀ dst, blend .nothing dst = dst)
    ∧ (∀ (src : Paint) (p dst : Pixel), src.pixel = some p →
        (p.extractLsb' 24 8 = 0xFF → blend src dst = p)
        ∧ (p.extractLsb' 24 8 = 0x00 → blend src dst = dst)
        ∧ (p.extractLsb' 24 8 = 0xFF ∨ p.extractLsb' 24 8 = 0x00))

/-- R109, R113: COMP_DRAW saves the canvas to PREV, blends each frame pixel that lands inside the canvas at
`(Y+fy)*CW + X+fx`, and changes nothing else. -/
def Obligations.CompDrawPaintsTheClippedFrame : Prop :=
  encode .compDraw = 0x00000041
    ∧ ∀ s : State,
      (s.status.compRdy = false → exec .compDraw s = .next (refusedState .notInit s))
      ∧ (s.status.compRdy = true → ¬(s.numColors.toNat ∈ [2, 4, 8, 16, 32, 64, 128, 256] ∧ s.frameFits) →
          exec .compDraw s = .next (refusedState .badParam s))
      ∧ (s.status.compRdy = true → s.numColors.toNat ∈ [2, 4, 8, 16, 32, 64, 128, 256] → s.frameFits →
          WrittenBelow s.canvas s.canvasPixels → Paintable s →
          ∃ cv pv : Memory Pixel,
            exec .compDraw s = .next (doneState { s with canvas := cv, prev := pv })
            ∧ (∀ j, pv.read j = if j < s.canvasPixels then s.canvas.read j else s.prev.read j)
            ∧ (∀ fx < s.frameW, ∀ fy < s.frameH, s.frameX + fx < s.canvasW → s.frameY + fy < s.canvasH →
                ∀ e src dst, s.raster.read (fy * s.frameW + fx) = some e → color s e = .ok src →
                  s.canvas.read ((s.frameY + fy) * s.canvasW + (s.frameX + fx)) = some dst →
                  cv.read ((s.frameY + fy) * s.canvasW + (s.frameX + fx)) = some (blend src dst))
            ∧ ∀ j, (∀ fx < s.frameW, ∀ fy < s.frameH, s.frameX + fx < s.canvasW → s.frameY + fy < s.canvasH →
                (s.frameY + fy) * s.canvasW + (s.frameX + fx) ≠ j) → cv.read j = s.canvas.read j)

/-- R50 for COMP_DRAW: on a written canvas, a raster entry or colour it needs and that was never written is the fault
UnwrittenRead of such an element. -/
def Obligations.CompDrawStopsOnAnUnwrittenElement : Prop :=
  ∀ s : State, s.status.compRdy = true → legalColors s.inColors → s.frameFits → WrittenBelow s.canvas s.canvasPixels →
    ¬Paintable s →
    ∃ j, (s.raster.read j = none ∧ exec .compDraw s = .fault (.unwrittenRead .raster j))
      ∨ (s.ctab.read j = none ∧ exec .compDraw s = .fault (.unwrittenRead .ctab j))

/-- R114: COMP_SNAP copies the canvas to SNAP and changes nothing else. -/
def Obligations.CompSnapCopiesTheCanvas : Prop :=
  encode .compSnap = 0x00000042
    ∧ ∀ s : State,
      (s.status.compRdy = false → exec .compSnap s = .next (refusedState .notInit s))
      ∧ (s.status.compRdy = true → WrittenBelow s.canvas s.canvasPixels →
          ∃ sn : Memory Pixel,
            exec .compSnap s = .next (doneState { s with snap := sn })
            ∧ ∀ j, sn.read j = if j < s.canvasPixels then s.canvas.read j else s.snap.read j)

/-- R110, R115: COMP_DISPOSE, every method: 2 clears the clipped frame rectangle, 3 restores PREV, the others do
nothing (4 to 7: the spec's own choice, log 15). -/
def Obligations.CompDisposeAppliesTheMethod : Prop :=
  encode .compDispose = 0x00000043
    ∧ ∀ s : State,
      (s.status.compRdy = false → exec .compDispose s = .next (refusedState .notInit s))
      ∧ (s.status.compRdy = true →
        (s.frCtrl.disposal ≠ 2 → s.frCtrl.disposal ≠ 3 → exec .compDispose s = .next (doneState s))
        ∧ (s.frCtrl.disposal = 2 →
          ∃ cv : Memory Pixel,
            exec .compDispose s = .next (doneState { s with canvas := cv })
            ∧ (∀ fx < s.frameW, ∀ fy < s.frameH, s.frameX + fx < s.canvasW → s.frameY + fy < s.canvasH →
                cv.read ((s.frameY + fy) * s.canvasW + (s.frameX + fx)) = some 0)
            ∧ ∀ j, (∀ fx < s.frameW, ∀ fy < s.frameH, s.frameX + fx < s.canvasW → s.frameY + fy < s.canvasH →
                (s.frameY + fy) * s.canvasW + (s.frameX + fx) ≠ j) → cv.read j = s.canvas.read j)
        ∧ (s.frCtrl.disposal = 3 → WrittenBelow s.prev s.canvasPixels →
          ∃ cv : Memory Pixel,
            exec .compDispose s = .next (doneState { s with canvas := cv })
            ∧ ∀ j, cv.read j = if j < s.canvasPixels then s.prev.read j else s.canvas.read j))

/-- R111: method 3 after a draw gives back, pixel for pixel, the canvas as it stood just before that draw. -/
def Obligations.RestorePreviousUndoesTheDraw : Prop :=
  ∀ s t u : State, s.frCtrl.disposal = 3 → s.status.compRdy = true → legalColors s.inColors → s.frameFits →
    exec .compDraw s = .next t → exec .compDispose t = .next u → ∀ j, u.canvas.read j = s.canvas.read j

/-- R116: with the canvas created, legal parameters and the frame's data and colours loaded, FRAME answers a next state:
the decode gives an end reason, ERR is untouched, PREV holds the canvas as it stood before, and SNAP holds the drawn
canvas, which is the canvas left behind unless a disposal method changes it (methods 2 and 3:
`FrameIsTheFourCommandsInSequence`). -/
def Obligations.FrameCompletes : Prop :=
  ∀ s : State, s.status.compRdy = true → s.decodeParamsLegal → CanvasOk s → DataLoaded s → ColorsLoaded s →
    ∃ t, exec .frame s = .next t
      ∧ t.status.endReason ≠ .none ∧ t.status.err = s.status.err
      ∧ (∀ j < s.canvasPixels, t.prev.read j = s.canvas.read j)
      ∧ (s.frCtrl.disposal ≠ 2 → s.frCtrl.disposal ≠ 3 → ∀ j < s.canvasPixels, t.canvas.read j = t.snap.read j)
      ∧ (s.frCtrl.disposal = 3 → ∀ j, t.canvas.read j = s.canvas.read j)

/-- R116, R142, R146: one FRAME does exactly what RAST_DECODE, COMP_DRAW, COMP_SNAP and COMP_DISPOSE do one after
another. -/
def Obligations.FrameIsTheFourCommandsInSequence : Prop :=
  ∀ s u : State, s.status.compRdy = true → s.decodeParamsLegal →
    (exec .frame s = .next u ↔
      ∃ t₁ t₂ t₃, exec .rastDecode s = .next t₁ ∧ exec .compDraw t₁ = .next t₂ ∧ exec .compSnap t₂ = .next t₃
        ∧ exec .compDispose t₃ = .next u)

/-! ### Whole-machine rules -/

/-- R63, R56, R144: which commands write which memory; the Host's turns and records and the capacities are no command's
to change. -/
def Obligations.CommandsWriteOnlyTheirMemories : Prop :=
  ∀ (i : Instr) (s t : State), exec i s = .next t →
    t.cdata = s.cdata ∧ t.ctab = s.ctab ∧ t.caps = s.caps ∧ t.turns = s.turns ∧ t.hostReads = s.hostReads
    ∧ (i ≠ .ctInit → (∀ pre k, i ≠ .ctAdd pre k) → i ≠ .rastDecode → i ≠ .frame → t.dict = s.dict)
    ∧ (i ≠ .rastDecode → i ≠ .rastDeinterlace → i ≠ .frame → t.raster = s.raster)
    ∧ (i ≠ .compReset → i ≠ .compDraw → i ≠ .compDispose → i ≠ .frame → t.canvas = s.canvas)
    ∧ (i ≠ .compReset → i ≠ .compDraw → i ≠ .frame → t.prev = s.prev)
    ∧ (i ≠ .compReset → i ≠ .compSnap → i ≠ .frame → t.snap = s.snap)

/-- The "state written" of R79 to R118, register by register: which commands write the Host's registers, the units'
registers and the fields of STATUS (R21). -/
def Obligations.CommandsWriteOnlyTheirRegisters : Prop :=
  ∀ (i : Instr) (s t : State), i ≠ .softReset → exec i s = .next t →
    t.canvasSize = s.canvasSize ∧ t.frPos = s.frPos ∧ t.frSize = s.frSize ∧ t.frCtrl = s.frCtrl ∧ t.frDlen = s.frDlen
    ∧ t.numColors = s.numColors ∧ t.status.ovr = s.status.ovr
    ∧ (i ≠ .compReset → t.compSize = s.compSize ∧ t.status.compRdy = s.status.compRdy)
    ∧ (i ≠ .rastDecode → i ≠ .frame → t.rast = s.rast ∧ t.status.endReason = s.status.endReason)
    ∧ (i ≠ .brInit → i ≠ .rastDecode → i ≠ .frame → t.br.len = s.br.len ∧ t.status.brRdy = s.status.brRdy)
    ∧ (i ≠ .brInit → i ≠ .brRead → i ≠ .rastDecode → i ≠ .frame →
        t.br.cursor = s.br.cursor ∧ t.br.data = s.br.data ∧ t.status.brOob = s.status.brOob)
    ∧ ((∀ nb, i ≠ .brSetnb nb) → i ≠ .ctInit → i ≠ .ctClear → (∀ pre k, i ≠ .ctAdd pre k) → i ≠ .rastDecode → i ≠ .frame →
        t.br.nbits = s.br.nbits)
    ∧ (i ≠ .ctInit → i ≠ .rastDecode → i ≠ .frame →
        t.ct.minCode = s.ct.minCode ∧ t.ct.numColors = s.ct.numColors ∧ t.status.ctRdy = s.status.ctRdy)
    ∧ (i ≠ .ctInit → i ≠ .ctClear → (∀ pre k, i ≠ .ctAdd pre k) → i ≠ .rastDecode → i ≠ .frame →
        t.ct.codeSize = s.ct.codeSize ∧ t.ct.nextCode = s.ct.nextCode ∧ t.ct.limit = s.ct.limit)
    ∧ ((∀ code, i ≠ .ctLookup code) → t.ct.lookup = s.ct.lookup)

/-- The invariant holds after hardware reset. -/
def Obligations.ResetMeetsTheInvariant : Prop := Inv State.reset

/-- Every step, the Host's or the engine's, keeps the invariant: the memories keep their canonical form and capacities, the
registers fit their fields, the table obeys R82 and R85, the canvas is written, and a pending command has DONE and ERR
clear. -/
def Obligations.EveryStepKeepsTheInvariant : Prop :=
  ∀ s t : State, Inv s → step s = .next t → Inv t

/-- R50, R127: the only fault a command meets in a state of the invariant is the read of an element of CDATA, CTAB or RASTER
that has never been written. -/
def Obligations.OnlyUnwrittenElementsStopTheEngine : Prop :=
  ∀ (i : Instr) (s : State) (f : Fault), Inv s → exec i s = .fault f →
    ∃ j, (f = .unwrittenRead .cdata j ∧ s.cdata.read j = none)
      ∨ (f = .unwrittenRead .ctab j ∧ s.ctab.read j = none)
      ∨ (f = .unwrittenRead .raster j ∧ s.raster.read j = none)
end

