-- ==== Sys2Proof/Laws/Memory.lean ====
section
/-! SUPPORT. Laws of memories: read after write, the canonical form, and the element loops built from them. -/

namespace Sys2Proof.Machine

variable {α : Type}

/-- A read after a write: the written element, or what was there. -/
theorem Memory.read_write (m : Memory α) (i : Nat) (v : α) (j : Nat) :
    (m.write i v).read j = if j = i then some v else m.read j := by
  induction m with
  | nil => simp [Memory.write, Memory.read]
  | cons p m ih =>
    obtain ⟨k, u⟩ := p
    simp only [Memory.write]
    split
    · simp only [Memory.read]
    · split
      · rename_i _ h
        subst h
        simp only [Memory.read]
        split <;> rfl
      · rename_i _ h
        simp only [Memory.read, ih]
        by_cases hk : j = k
        · subst hk
          simp [Ne.symm h]
        · simp [hk]

@[simp] theorem Memory.read_write_self (m : Memory α) (i : Nat) (v : α) : (m.write i v).read i = some v := by
  simp [Memory.read_write]

theorem Memory.read_write_of_ne (m : Memory α) {i j : Nat} (v : α) (h : j ≠ i) :
    (m.write i v).read j = m.read j := by
  simp [Memory.read_write, h]

/-- Writing lists no index but the one written. -/
theorem Memory.mem_write {m : Memory α} {i : Nat} {v : α} {p : Nat × α} (h : p ∈ m.write i v) :
    p = (i, v) ∨ p ∈ m := by
  induction m with
  | nil => simpa [Memory.write] using h
  | cons q m ih =>
    obtain ⟨k, u⟩ := q
    simp only [Memory.write] at h
    split at h
    · simpa using h
    · split at h
      · rcases List.mem_cons.mp h with h | h
        · exact .inl h
        · exact .inr (List.mem_cons_of_mem _ h)
      · rcases List.mem_cons.mp h with h | h
        · exact .inr (h ▸ List.mem_cons_self)
        · exact (ih h).imp_right (List.mem_cons_of_mem _)

/-- A write keeps the canonical form. -/
theorem Memory.write_wf {m : Memory α} (i : Nat) (v : α) (h : m.wf) : (m.write i v).wf := by
  induction m with
  | nil => simp [Memory.write]
  | cons q m ih =>
    obtain ⟨k, u⟩ := q
    obtain ⟨hk, hm⟩ := List.pairwise_cons.mp h
    simp only [Memory.write]
    split
    · rename_i hi
      refine List.pairwise_cons.mpr ⟨fun p hp => ?_, h⟩
      rcases List.mem_cons.mp hp with rfl | hp
      · exact hi
      · exact Nat.lt_trans hi (hk p hp)
    · split
      · rename_i _ hi
        exact List.pairwise_cons.mpr ⟨fun p hp => hi ▸ hk p hp, hm⟩
      · rename_i h₁ h₂
        refine List.pairwise_cons.mpr ⟨fun p hp => ?_, ih hm⟩
        rcases Memory.mem_write hp with rfl | hp
        · exact Nat.lt_of_le_of_ne (Nat.le_of_not_lt h₁) (Ne.symm h₂)
        · exact hk p hp

/-- A write at an index below the capacity stays inside it. -/
theorem Memory.write_within {m : Memory α} {cap i : Nat} (v : α) (h : m.within cap) (hi : i < cap) :
    (m.write i v).within cap := fun _ hp =>
  (Memory.mem_write hp).elim (fun e => e ▸ hi) (h _)

/-- An index that reads as a value is listed, so it lies below the capacity. -/
theorem Memory.lt_of_read {m : Memory α} {cap i : Nat} {v : α} (h : m.within cap) (hr : m.read i = some v) : i < cap := by
  induction m with
  | nil => simp [Memory.read] at hr
  | cons p m ih =>
    obtain ⟨k, u⟩ := p
    simp only [Memory.read] at hr
    split at hr
    · rename_i hk
      exact hk ▸ h (k, u) List.mem_cons_self
    · exact ih (fun q hq => h q (List.mem_cons_of_mem _ hq)) hr

/-- The canonical form: an index below every listed one reads as no value. -/
theorem Memory.read_of_lt {m : Memory α} {i : Nat} (h : ∀ p ∈ m, i < p.1) : m.read i = none := by
  induction m with
  | nil => rfl
  | cons p m ih =>
    obtain ⟨k, u⟩ := p
    have hk := h (k, u) List.mem_cons_self
    simp only [Memory.read]
    rw [if_neg (Nat.ne_of_lt hk)]
    exact ih fun q hq => h q (List.mem_cons_of_mem _ hq)

/-- Two memories in canonical form that read alike are equal data. -/
theorem Memory.ext_of_read {m m' : Memory α} (h : m.wf) (h' : m'.wf) (e : ∀ i, m.read i = m'.read i) : m = m' := by
  induction m generalizing m' with
  | nil =>
    cases m' with
    | nil => rfl
    | cons q _ => simpa [Memory.read] using e q.1
  | cons p m ih =>
    obtain ⟨k, u⟩ := p
    obtain ⟨hk, hm⟩ := List.pairwise_cons.mp h
    cases m' with
    | nil => simpa [Memory.read] using e k
    | cons q m' =>
      obtain ⟨k', u'⟩ := q
      obtain ⟨hk', hm'⟩ := List.pairwise_cons.mp h'
      have hkk : k = k' := by
        rcases Nat.lt_trichotomy k k' with hlt | heq | hgt
        · have := e k
          rw [Memory.read_of_lt (m := (k', u') :: m')] at this
          · simp [Memory.read] at this
          · intro p hp
            rcases List.mem_cons.mp hp with rfl | hp
            · exact hlt
            · exact Nat.lt_trans hlt (hk' p hp)
        · exact heq
        · have := e k'
          rw [Memory.read_of_lt (m := (k, u) :: m)] at this
          · simp [Memory.read] at this
          · intro p hp
            rcases List.mem_cons.mp hp with rfl | hp
            · exact hgt
            · exact Nat.lt_trans hgt (hk p hp)
      subst hkk
      have hu : u = u' := by simpa [Memory.read] using e k
      subst hu
      have : m = m' := ih hm hm' fun i => by
        by_cases hi : i = k
        · subst hi
          rw [Memory.read_of_lt hk, Memory.read_of_lt hk']
        · simpa [Memory.read, hi] using e i
      rw [this]

/-- Writing two lists one after the other. -/
theorem Memory.writeAll_append (m : Memory α) (ws us : List (Nat × α)) :
    m.writeAll (ws ++ us) = (m.writeAll ws).writeAll us := by
  induction ws generalizing m with
  | nil => rfl
  | cons p ws ih => exact ih _

/-- Writing a list keeps the canonical form. -/
theorem Memory.writeAll_wf {m : Memory α} (ws : List (Nat × α)) (h : m.wf) : (m.writeAll ws).wf := by
  induction ws generalizing m with
  | nil => exact h
  | cons p ws ih => exact ih (Memory.write_wf p.1 p.2 h)

/-- Writing a list of indices below the capacity stays inside it. -/
theorem Memory.writeAll_within {m : Memory α} {cap : Nat} {ws : List (Nat × α)} (h : m.within cap)
    (hws : ∀ p ∈ ws, p.1 < cap) : (m.writeAll ws).within cap := by
  induction ws generalizing m with
  | nil => exact h
  | cons p ws ih =>
    exact ih (Memory.write_within p.2 h (hws p List.mem_cons_self)) fun q hq => hws q (List.mem_cons_of_mem _ hq)

/-- An index the list does not write reads as before. -/
theorem Memory.read_writeAll_of_notMem {m : Memory α} {ws : List (Nat × α)} {j : Nat} (h : ∀ p ∈ ws, p.1 ≠ j) :
    (m.writeAll ws).read j = m.read j := by
  induction ws generalizing m with
  | nil => rfl
  | cons p ws ih =>
    simp only [Memory.writeAll]
    rw [ih fun q hq => h q (List.mem_cons_of_mem _ hq), Memory.read_write_of_ne]
    exact Ne.symm (h p List.mem_cons_self)

/-- If all the values the list writes at `j` are `v`, and it writes there, `j` reads `v`. -/
theorem Memory.read_writeAll_of_mem {m : Memory α} {ws : List (Nat × α)} {j : Nat} {v : α} (hm : (j, v) ∈ ws)
    (h : ∀ p ∈ ws, p.1 = j → p.2 = v) : (m.writeAll ws).read j = some v := by
  induction ws generalizing m with
  | nil => cases hm
  | cons p ws ih =>
    simp only [Memory.writeAll]
    by_cases hin : (j, v) ∈ ws
    · exact ih hin fun q hq => h q (List.mem_cons_of_mem _ hq)
    · rcases List.mem_cons.mp hm with rfl | hm
      · rw [Memory.read_writeAll_of_notMem, Memory.read_write_self]
        rintro ⟨k, u⟩ hq (rfl : k = j)
        have hu : u = v := h _ (List.mem_cons_of_mem _ hq) rfl
        exact hin (hu ▸ hq)
      · exact absurd hm hin

/-- Written elements stay written. -/
theorem Memory.isSome_read_writeAll {m : Memory α} (ws : List (Nat × α)) {j : Nat} (h : (m.read j).isSome) :
    ((m.writeAll ws).read j).isSome := by
  induction ws generalizing m with
  | nil => exact h
  | cons p ws ih =>
    refine ih ?_
    rw [Memory.read_write]
    split
    · rfl
    · exact h

/-- Every index a list writes is written afterwards. -/
theorem Memory.isSome_read_writeAll_of_mem {m : Memory α} {ws : List (Nat × α)} {p : Nat × α} (h : p ∈ ws) :
    ((m.writeAll ws).read p.1).isSome := by
  induction ws generalizing m with
  | nil => cases h
  | cons q ws ih =>
    rcases List.mem_cons.mp h with rfl | h
    · exact Memory.isSome_read_writeAll ws (by simp)
    · exact ih h

/-- `fill` writes `v` below `n` and leaves the rest. -/
theorem Memory.read_fill (m : Memory α) (n : Nat) (v : α) (j : Nat) :
    (m.fill n v).read j = if j < n then some v else m.read j := by
  unfold Memory.fill
  split
  · rename_i h
    refine Memory.read_writeAll_of_mem (List.mem_map.mpr ⟨j, List.mem_range.mpr h, rfl⟩) ?_
    intro p hp _
    obtain ⟨_, _, rfl⟩ := List.mem_map.mp hp
    rfl
  · rename_i h
    refine Memory.read_writeAll_of_notMem ?_
    intro p hp
    obtain ⟨k, hk, rfl⟩ := List.mem_map.mp hp
    have := List.mem_range.mp hk
    simp only
    omega

/-- `fetch` answers exactly what is written. -/
theorem fetch_eq_ok {sp : Space} {m : Memory α} {i : Nat} {v : α} : fetch sp m i = .ok v ↔ m.read i = some v := by
  unfold fetch
  split <;> simp_all

/-- `fetch` stops exactly on an element never written. -/
theorem fetch_eq_error {sp : Space} {m : Memory α} {i : Nat} {f : Fault} :
    fetch sp m i = .error f ↔ m.read i = none ∧ f = .unwrittenRead sp i := by
  unfold fetch
  cases m.read i <;> simp [eq_comm]

/-- `gather` answers, for each move in order, the element at its source. -/
theorem gather_eq_ok {sp : Space} {m : Memory α} {moves : List (Nat × Nat)} {ws : List (Nat × α)} :
    gather sp m moves = .ok ws ↔
      List.Forall₂ (fun mv w => w.1 = mv.1 ∧ m.read mv.2 = some w.2) moves ws := by
  induction moves generalizing ws with
  | nil =>
    simp only [gather, List.forall₂_nil_left_iff, Except.ok.injEq]
    exact eq_comm
  | cons mv moves ih =>
    obtain ⟨d, i⟩ := mv
    simp only [gather]
    cases hf : fetch sp m i with
    | error f =>
      have := (fetch_eq_error.mp hf).1
      simp only [reduceCtorEq, false_iff]
      intro h
      cases h with
      | cons h _ => simp [this] at h
    | ok v =>
      have hv := fetch_eq_ok.mp hf
      cases hg : gather sp m moves with
      | error f =>
        simp only [reduceCtorEq, false_iff]
        intro h
        cases h with
        | cons _ h => simp [ih.mpr h] at hg
      | ok us =>
        simp only [Except.ok.injEq]
        constructor
        · rintro rfl
          exact .cons ⟨rfl, hv⟩ (ih.mp hg)
        · intro h
          cases h with
          | @cons _ w _ ws' h hs =>
            obtain ⟨wi, wv⟩ := w
            have := ih.mpr hs
            simp_all

/-- `gather` stops only on a source never written. -/
theorem gather_eq_error {sp : Space} {m : Memory α} {moves : List (Nat × Nat)} {f : Fault}
    (h : gather sp m moves = .error f) : ∃ mv ∈ moves, m.read mv.2 = none ∧ f = .unwrittenRead sp mv.2 := by
  induction moves with
  | nil => simp [gather] at h
  | cons mv moves ih =>
    obtain ⟨d, i⟩ := mv
    simp only [gather] at h
    cases hf : fetch sp m i with
    | error f' =>
      simp only [hf, Except.error.injEq] at h
      exact ⟨(d, i), List.mem_cons_self, (fetch_eq_error.mp hf).1, h ▸ (fetch_eq_error.mp hf).2⟩
    | ok v =>
      simp only [hf] at h
      cases hg : gather sp m moves with
      | error f' =>
        simp only [hg, Except.error.injEq] at h
        obtain ⟨mv, hmv, hr⟩ := ih (h ▸ hg)
        exact ⟨mv, List.mem_cons_of_mem _ hmv, hr⟩
      | ok us => simp [hg] at h

/-- If every source is written, `gather` answers. -/
theorem gather_ok_of_written {sp : Space} {m : Memory α} {moves : List (Nat × Nat)}
    (h : ∀ mv ∈ moves, (m.read mv.2).isSome) : ∃ ws, gather sp m moves = .ok ws := by
  cases hg : gather sp m moves with
  | ok ws => exact ⟨ws, rfl⟩
  | error f =>
    obtain ⟨mv, hmv, hr, _⟩ := gather_eq_error hg
    simpa [hr] using h mv hmv

/-- What `gather` answers comes from the moves: the destination and the element read. -/
theorem gather_mem {sp : Space} {m : Memory α} {moves : List (Nat × Nat)} {ws : List (Nat × α)}
    (h : gather sp m moves = .ok ws) {w : Nat × α} (hw : w ∈ ws) :
    ∃ mv ∈ moves, w.1 = mv.1 ∧ m.read mv.2 = some w.2 := by
  replace h := gather_eq_ok.mp h
  induction h with
  | nil => cases hw
  | cons hd _ ih =>
    rcases List.mem_cons.mp hw with rfl | hw
    · exact ⟨_, List.mem_cons_self, hd⟩
    · obtain ⟨mv, hmv, hr⟩ := ih hw
      exact ⟨mv, List.mem_cons_of_mem _ hmv, hr⟩

/-- Every move is carried out in what `gather` answers. -/
theorem gather_mem_of_move {sp : Space} {m : Memory α} {moves : List (Nat × Nat)} {ws : List (Nat × α)}
    (h : gather sp m moves = .ok ws) {mv : Nat × Nat} (hmv : mv ∈ moves) :
    ∃ v, m.read mv.2 = some v ∧ (mv.1, v) ∈ ws := by
  replace h := gather_eq_ok.mp h
  induction h with
  | nil => cases hmv
  | @cons _ w _ _ hd _ ih =>
    rcases List.mem_cons.mp hmv with rfl | hmv
    · exact ⟨w.2, hd.2, hd.1 ▸ List.mem_cons_self⟩
    · obtain ⟨v, hv, hw⟩ := ih hmv
      exact ⟨v, hv, List.mem_cons_of_mem _ hw⟩

/-- The moves of `copyTo`. -/
theorem mem_copyMoves {n : Nat} {mv : Nat × Nat} :
    mv ∈ (List.range n).map (fun j => (j, j)) ↔ mv.1 = mv.2 ∧ mv.2 < n := by
  obtain ⟨d, i⟩ := mv
  simp only [List.mem_map, List.mem_range, Prod.mk.injEq]
  constructor
  · rintro ⟨_, h, rfl, rfl⟩
    exact ⟨rfl, h⟩
  · rintro ⟨rfl, h⟩
    exact ⟨_, h, rfl, rfl⟩

/-- `copyTo` copies the first `n` elements, all of them written, and leaves the rest. -/
theorem read_copyTo {sp : Space} {src dst r : Memory α} {n : Nat} (h : copyTo sp src dst n = .ok r) (j : Nat) :
    r.read j = if j < n then src.read j else dst.read j := by
  unfold copyTo at h
  cases hg : gather sp src ((List.range n).map fun j => (j, j)) with
  | error f => simp [hg] at h
  | ok ws =>
    simp only [hg, Except.ok.injEq] at h
    subst h
    split
    · rename_i hj
      obtain ⟨v, hv, hw⟩ := gather_mem_of_move hg (mem_copyMoves (mv := (j, j)).mpr ⟨rfl, hj⟩)
      simp only at hv hw
      rw [hv]
      refine Memory.read_writeAll_of_mem hw ?_
      rintro ⟨k, u⟩ hp (rfl : k = j)
      obtain ⟨mv, hmv, hk, hu⟩ := gather_mem hg hp
      obtain ⟨he, _⟩ := mem_copyMoves.mp hmv
      simp only at hk hu
      rw [← he, ← hk, hv] at hu
      exact (Option.some.inj hu).symm
    · rename_i hj
      refine Memory.read_writeAll_of_notMem ?_
      rintro ⟨k, u⟩ hp (rfl : k = j)
      obtain ⟨mv, hmv, hk, _⟩ := gather_mem hg hp
      obtain ⟨he, hlt⟩ := mem_copyMoves.mp hmv
      simp only at hk
      omega

theorem written_of_copyTo {sp : Space} {src dst r : Memory α} {n : Nat} (h : copyTo sp src dst n = .ok r) {j : Nat}
    (hj : j < n) : (src.read j).isSome := by
  unfold copyTo at h
  cases hg : gather sp src ((List.range n).map fun j => (j, j)) with
  | error f => simp [hg] at h
  | ok ws =>
    obtain ⟨v, hv, _⟩ := gather_mem_of_move hg (mem_copyMoves (mv := (j, j)).mpr ⟨rfl, hj⟩)
    simp only at hv
    simp [hv]

/-- `copyTo` answers when the first `n` elements of its source are written. -/
theorem copyTo_ok {sp : Space} {src : Memory α} (dst : Memory α) {n : Nat} (h : ∀ j < n, (src.read j).isSome) :
    ∃ r, copyTo sp src dst n = .ok r := by
  obtain ⟨ws, hws⟩ := gather_ok_of_written (sp := sp) (m := src) (moves := (List.range n).map fun j => (j, j))
    fun mv hmv => h _ (mem_copyMoves.mp hmv).2
  exact ⟨dst.writeAll ws, by simp [copyTo, hws]⟩

/-- `copyTo` stops only on an element of its source never written. -/
theorem copyTo_error {sp : Space} {src dst : Memory α} {n : Nat} {f : Fault} (h : copyTo sp src dst n = .error f) :
    ∃ j < n, src.read j = none ∧ f = .unwrittenRead sp j := by
  unfold copyTo at h
  cases hg : gather sp src ((List.range n).map fun j => (j, j)) with
  | error f' =>
    simp only [hg, Except.error.injEq] at h
    obtain ⟨mv, hmv, hr, hf⟩ := gather_eq_error hg
    exact ⟨mv.2, (mem_copyMoves.mp hmv).2, hr, h ▸ hf⟩
  | ok ws => simp [hg] at h

/-- `m'` is `m` with elements written at indices below `n` only. -/
def Memory.WritesBelow (n : Nat) (m m' : Memory α) : Prop := ∃ ws, m' = m.writeAll ws ∧ ∀ p ∈ ws, p.1 < n

theorem Memory.WritesBelow.refl (n : Nat) (m : Memory α) : Memory.WritesBelow n m m := ⟨[], rfl, nofun⟩

theorem Memory.WritesBelow.trans {n : Nat} {m m' m'' : Memory α} (h : Memory.WritesBelow n m m')
    (h' : Memory.WritesBelow n m' m'') : Memory.WritesBelow n m m'' := by
  obtain ⟨ws, rfl, hw⟩ := h
  obtain ⟨us, rfl, hu⟩ := h'
  exact ⟨ws ++ us, (Memory.writeAll_append _ _ _).symm, fun p hp => (List.mem_append.mp hp).elim (hw p) (hu p)⟩

theorem Memory.WritesBelow.wf {n : Nat} {m m' : Memory α} (h : Memory.WritesBelow n m m') (hm : m.wf) : m'.wf := by
  obtain ⟨ws, rfl, _⟩ := h
  exact Memory.writeAll_wf ws hm

theorem Memory.WritesBelow.within {n cap : Nat} {m m' : Memory α} (h : Memory.WritesBelow n m m') (hm : m.within cap)
    (hn : n ≤ cap) : m'.within cap := by
  obtain ⟨ws, rfl, hw⟩ := h
  exact Memory.writeAll_within hm fun p hp => Nat.lt_of_lt_of_le (hw p hp) hn

theorem Memory.WritesBelow.read {n j : Nat} {m m' : Memory α} (h : Memory.WritesBelow n m m') (hj : n ≤ j) :
    m'.read j = m.read j := by
  obtain ⟨ws, rfl, hw⟩ := h
  refine Memory.read_writeAll_of_notMem fun p hp => ?_
  have := hw p hp
  omega

theorem Memory.WritesBelow.written {n j : Nat} {m m' : Memory α} (h : Memory.WritesBelow n m m')
    (hj : (m.read j).isSome = true) : (m'.read j).isSome = true := by
  obtain ⟨ws, rfl, _⟩ := h
  exact Memory.isSome_read_writeAll ws hj

theorem Memory.fill_writesBelow (m : Memory α) (n : Nat) (v : α) : Memory.WritesBelow n m (m.fill n v) := by
  refine ⟨_, rfl, fun p hp => ?_⟩
  obtain ⟨k, hk, rfl⟩ := List.mem_map.mp hp
  exact List.mem_range.mp hk

theorem copyTo_writesBelow {sp : Space} {src dst r : Memory α} {n : Nat} (h : copyTo sp src dst n = .ok r) :
    Memory.WritesBelow n dst r := by
  unfold copyTo at h
  cases hg : gather sp src ((List.range n).map fun j => (j, j)) with
  | error f => simp [hg] at h
  | ok ws =>
    simp only [hg, Except.ok.injEq] at h
    refine ⟨ws, h.symm, fun p hp => ?_⟩
    obtain ⟨mv, hmv, hk, _⟩ := gather_mem hg hp
    obtain ⟨he, hlt⟩ := mem_copyMoves.mp hmv
    omega

end Sys2Proof.Machine
end

