-- ==== Sys2Proof/Laws/State.lean ====
section
/-! SUPPORT. The fields of the state after each shared update of it, so that no proof unfolds a record update. -/

namespace Sys2Proof.Machine

variable (s : State)

/-! `complete` (R17). -/

@[simp] theorem State.complete_caps : (s.complete).caps = s.caps := rfl
@[simp] theorem State.complete_canvasSize : (s.complete).canvasSize = s.canvasSize := rfl
@[simp] theorem State.complete_frPos : (s.complete).frPos = s.frPos := rfl
@[simp] theorem State.complete_frSize : (s.complete).frSize = s.frSize := rfl
@[simp] theorem State.complete_frCtrl : (s.complete).frCtrl = s.frCtrl := rfl
@[simp] theorem State.complete_frDlen : (s.complete).frDlen = s.frDlen := rfl
@[simp] theorem State.complete_numColors : (s.complete).numColors = s.numColors := rfl
@[simp] theorem State.complete_br : (s.complete).br = s.br := rfl
@[simp] theorem State.complete_ct : (s.complete).ct = s.ct := rfl
@[simp] theorem State.complete_rast : (s.complete).rast = s.rast := rfl
@[simp] theorem State.complete_compSize : (s.complete).compSize = s.compSize := rfl
@[simp] theorem State.complete_cdata : (s.complete).cdata = s.cdata := rfl
@[simp] theorem State.complete_ctab : (s.complete).ctab = s.ctab := rfl
@[simp] theorem State.complete_dict : (s.complete).dict = s.dict := rfl
@[simp] theorem State.complete_raster : (s.complete).raster = s.raster := rfl
@[simp] theorem State.complete_canvas : (s.complete).canvas = s.canvas := rfl
@[simp] theorem State.complete_prev : (s.complete).prev = s.prev := rfl
@[simp] theorem State.complete_snap : (s.complete).snap = s.snap := rfl
@[simp] theorem State.complete_turns : (s.complete).turns = s.turns := rfl
@[simp] theorem State.complete_hostReads : (s.complete).hostReads = s.hostReads := rfl
@[simp] theorem State.complete_status_done : (s.complete).status.done = true := rfl
@[simp] theorem State.complete_status_ovr : (s.complete).status.ovr = s.status.ovr := rfl
@[simp] theorem State.complete_status_brOob : (s.complete).status.brOob = s.status.brOob := rfl
@[simp] theorem State.complete_status_err : (s.complete).status.err = s.status.err := rfl
@[simp] theorem State.complete_status_endReason : (s.complete).status.endReason = s.status.endReason := rfl
@[simp] theorem State.complete_status_brRdy : (s.complete).status.brRdy = s.status.brRdy := rfl
@[simp] theorem State.complete_status_ctRdy : (s.complete).status.ctRdy = s.status.ctRdy := rfl
@[simp] theorem State.complete_status_compRdy : (s.complete).status.compRdy = s.status.compRdy := rfl
@[simp] theorem State.complete_pending : (s.complete).pending = none := rfl

/-! `withErr` (R123). -/

@[simp] theorem State.withErr_caps (e : ErrCode) : (s.withErr e).caps = s.caps := rfl
@[simp] theorem State.withErr_pending (e : ErrCode) : (s.withErr e).pending = s.pending := rfl
@[simp] theorem State.withErr_canvasSize (e : ErrCode) : (s.withErr e).canvasSize = s.canvasSize := rfl
@[simp] theorem State.withErr_frPos (e : ErrCode) : (s.withErr e).frPos = s.frPos := rfl
@[simp] theorem State.withErr_frSize (e : ErrCode) : (s.withErr e).frSize = s.frSize := rfl
@[simp] theorem State.withErr_frCtrl (e : ErrCode) : (s.withErr e).frCtrl = s.frCtrl := rfl
@[simp] theorem State.withErr_frDlen (e : ErrCode) : (s.withErr e).frDlen = s.frDlen := rfl
@[simp] theorem State.withErr_numColors (e : ErrCode) : (s.withErr e).numColors = s.numColors := rfl
@[simp] theorem State.withErr_br (e : ErrCode) : (s.withErr e).br = s.br := rfl
@[simp] theorem State.withErr_ct (e : ErrCode) : (s.withErr e).ct = s.ct := rfl
@[simp] theorem State.withErr_rast (e : ErrCode) : (s.withErr e).rast = s.rast := rfl
@[simp] theorem State.withErr_compSize (e : ErrCode) : (s.withErr e).compSize = s.compSize := rfl
@[simp] theorem State.withErr_cdata (e : ErrCode) : (s.withErr e).cdata = s.cdata := rfl
@[simp] theorem State.withErr_ctab (e : ErrCode) : (s.withErr e).ctab = s.ctab := rfl
@[simp] theorem State.withErr_dict (e : ErrCode) : (s.withErr e).dict = s.dict := rfl
@[simp] theorem State.withErr_raster (e : ErrCode) : (s.withErr e).raster = s.raster := rfl
@[simp] theorem State.withErr_canvas (e : ErrCode) : (s.withErr e).canvas = s.canvas := rfl
@[simp] theorem State.withErr_prev (e : ErrCode) : (s.withErr e).prev = s.prev := rfl
@[simp] theorem State.withErr_snap (e : ErrCode) : (s.withErr e).snap = s.snap := rfl
@[simp] theorem State.withErr_turns (e : ErrCode) : (s.withErr e).turns = s.turns := rfl
@[simp] theorem State.withErr_hostReads (e : ErrCode) : (s.withErr e).hostReads = s.hostReads := rfl
@[simp] theorem State.withErr_status_done (e : ErrCode) : (s.withErr e).status.done = s.status.done := rfl
@[simp] theorem State.withErr_status_ovr (e : ErrCode) : (s.withErr e).status.ovr = s.status.ovr := rfl
@[simp] theorem State.withErr_status_brOob (e : ErrCode) : (s.withErr e).status.brOob = s.status.brOob := rfl
@[simp] theorem State.withErr_status_err (e : ErrCode) : (s.withErr e).status.err = e := rfl
@[simp] theorem State.withErr_status_endReason (e : ErrCode) : (s.withErr e).status.endReason = s.status.endReason := rfl
@[simp] theorem State.withErr_status_brRdy (e : ErrCode) : (s.withErr e).status.brRdy = s.status.brRdy := rfl
@[simp] theorem State.withErr_status_ctRdy (e : ErrCode) : (s.withErr e).status.ctRdy = s.status.ctRdy := rfl
@[simp] theorem State.withErr_status_compRdy (e : ErrCode) : (s.withErr e).status.compRdy = s.status.compRdy := rfl

/-! `withOob` (R77). -/

@[simp] theorem State.withOob_caps : (s.withOob).caps = s.caps := rfl
@[simp] theorem State.withOob_pending : (s.withOob).pending = s.pending := rfl
@[simp] theorem State.withOob_canvasSize : (s.withOob).canvasSize = s.canvasSize := rfl
@[simp] theorem State.withOob_frPos : (s.withOob).frPos = s.frPos := rfl
@[simp] theorem State.withOob_frSize : (s.withOob).frSize = s.frSize := rfl
@[simp] theorem State.withOob_frCtrl : (s.withOob).frCtrl = s.frCtrl := rfl
@[simp] theorem State.withOob_frDlen : (s.withOob).frDlen = s.frDlen := rfl
@[simp] theorem State.withOob_numColors : (s.withOob).numColors = s.numColors := rfl
@[simp] theorem State.withOob_br : (s.withOob).br = s.br := rfl
@[simp] theorem State.withOob_ct : (s.withOob).ct = s.ct := rfl
@[simp] theorem State.withOob_rast : (s.withOob).rast = s.rast := rfl
@[simp] theorem State.withOob_compSize : (s.withOob).compSize = s.compSize := rfl
@[simp] theorem State.withOob_cdata : (s.withOob).cdata = s.cdata := rfl
@[simp] theorem State.withOob_ctab : (s.withOob).ctab = s.ctab := rfl
@[simp] theorem State.withOob_dict : (s.withOob).dict = s.dict := rfl
@[simp] theorem State.withOob_raster : (s.withOob).raster = s.raster := rfl
@[simp] theorem State.withOob_canvas : (s.withOob).canvas = s.canvas := rfl
@[simp] theorem State.withOob_prev : (s.withOob).prev = s.prev := rfl
@[simp] theorem State.withOob_snap : (s.withOob).snap = s.snap := rfl
@[simp] theorem State.withOob_turns : (s.withOob).turns = s.turns := rfl
@[simp] theorem State.withOob_hostReads : (s.withOob).hostReads = s.hostReads := rfl
@[simp] theorem State.withOob_status_done : (s.withOob).status.done = s.status.done := rfl
@[simp] theorem State.withOob_status_ovr : (s.withOob).status.ovr = s.status.ovr := rfl
@[simp] theorem State.withOob_status_brOob : (s.withOob).status.brOob = true := rfl
@[simp] theorem State.withOob_status_err : (s.withOob).status.err = s.status.err := rfl
@[simp] theorem State.withOob_status_endReason : (s.withOob).status.endReason = s.status.endReason := rfl
@[simp] theorem State.withOob_status_brRdy : (s.withOob).status.brRdy = s.status.brRdy := rfl
@[simp] theorem State.withOob_status_ctRdy : (s.withOob).status.ctRdy = s.status.ctRdy := rfl
@[simp] theorem State.withOob_status_compRdy : (s.withOob).status.compRdy = s.status.compRdy := rfl

/-! `finish` (R90). -/

@[simp] theorem State.finish_caps (r : EndReason) : (s.finish r).caps = s.caps := rfl
@[simp] theorem State.finish_pending (r : EndReason) : (s.finish r).pending = s.pending := rfl
@[simp] theorem State.finish_canvasSize (r : EndReason) : (s.finish r).canvasSize = s.canvasSize := rfl
@[simp] theorem State.finish_frPos (r : EndReason) : (s.finish r).frPos = s.frPos := rfl
@[simp] theorem State.finish_frSize (r : EndReason) : (s.finish r).frSize = s.frSize := rfl
@[simp] theorem State.finish_frCtrl (r : EndReason) : (s.finish r).frCtrl = s.frCtrl := rfl
@[simp] theorem State.finish_frDlen (r : EndReason) : (s.finish r).frDlen = s.frDlen := rfl
@[simp] theorem State.finish_numColors (r : EndReason) : (s.finish r).numColors = s.numColors := rfl
@[simp] theorem State.finish_br (r : EndReason) : (s.finish r).br = s.br := rfl
@[simp] theorem State.finish_ct (r : EndReason) : (s.finish r).ct = s.ct := rfl
@[simp] theorem State.finish_rast (r : EndReason) : (s.finish r).rast = s.rast := rfl
@[simp] theorem State.finish_compSize (r : EndReason) : (s.finish r).compSize = s.compSize := rfl
@[simp] theorem State.finish_cdata (r : EndReason) : (s.finish r).cdata = s.cdata := rfl
@[simp] theorem State.finish_ctab (r : EndReason) : (s.finish r).ctab = s.ctab := rfl
@[simp] theorem State.finish_dict (r : EndReason) : (s.finish r).dict = s.dict := rfl
@[simp] theorem State.finish_raster (r : EndReason) : (s.finish r).raster = s.raster := rfl
@[simp] theorem State.finish_canvas (r : EndReason) : (s.finish r).canvas = s.canvas := rfl
@[simp] theorem State.finish_prev (r : EndReason) : (s.finish r).prev = s.prev := rfl
@[simp] theorem State.finish_snap (r : EndReason) : (s.finish r).snap = s.snap := rfl
@[simp] theorem State.finish_turns (r : EndReason) : (s.finish r).turns = s.turns := rfl
@[simp] theorem State.finish_hostReads (r : EndReason) : (s.finish r).hostReads = s.hostReads := rfl
@[simp] theorem State.finish_status_done (r : EndReason) : (s.finish r).status.done = s.status.done := rfl
@[simp] theorem State.finish_status_ovr (r : EndReason) : (s.finish r).status.ovr = s.status.ovr := rfl
@[simp] theorem State.finish_status_brOob (r : EndReason) : (s.finish r).status.brOob = s.status.brOob := rfl
@[simp] theorem State.finish_status_err (r : EndReason) : (s.finish r).status.err = s.status.err := rfl
@[simp] theorem State.finish_status_endReason (r : EndReason) : (s.finish r).status.endReason = r := rfl
@[simp] theorem State.finish_status_brRdy (r : EndReason) : (s.finish r).status.brRdy = s.status.brRdy := rfl
@[simp] theorem State.finish_status_ctRdy (r : EndReason) : (s.finish r).status.ctRdy = s.status.ctRdy := rfl
@[simp] theorem State.finish_status_compRdy (r : EndReason) : (s.finish r).status.compRdy = s.status.compRdy := rfl

/-! `latch` (R15). -/

@[simp] theorem State.latch_caps (w : Word) : (s.latch w).caps = s.caps := rfl
@[simp] theorem State.latch_canvasSize (w : Word) : (s.latch w).canvasSize = s.canvasSize := rfl
@[simp] theorem State.latch_frPos (w : Word) : (s.latch w).frPos = s.frPos := rfl
@[simp] theorem State.latch_frSize (w : Word) : (s.latch w).frSize = s.frSize := rfl
@[simp] theorem State.latch_frCtrl (w : Word) : (s.latch w).frCtrl = s.frCtrl := rfl
@[simp] theorem State.latch_frDlen (w : Word) : (s.latch w).frDlen = s.frDlen := rfl
@[simp] theorem State.latch_numColors (w : Word) : (s.latch w).numColors = s.numColors := rfl
@[simp] theorem State.latch_br (w : Word) : (s.latch w).br = s.br := rfl
@[simp] theorem State.latch_ct (w : Word) : (s.latch w).ct = s.ct := rfl
@[simp] theorem State.latch_rast (w : Word) : (s.latch w).rast = s.rast := rfl
@[simp] theorem State.latch_compSize (w : Word) : (s.latch w).compSize = s.compSize := rfl
@[simp] theorem State.latch_cdata (w : Word) : (s.latch w).cdata = s.cdata := rfl
@[simp] theorem State.latch_ctab (w : Word) : (s.latch w).ctab = s.ctab := rfl
@[simp] theorem State.latch_dict (w : Word) : (s.latch w).dict = s.dict := rfl
@[simp] theorem State.latch_raster (w : Word) : (s.latch w).raster = s.raster := rfl
@[simp] theorem State.latch_canvas (w : Word) : (s.latch w).canvas = s.canvas := rfl
@[simp] theorem State.latch_prev (w : Word) : (s.latch w).prev = s.prev := rfl
@[simp] theorem State.latch_snap (w : Word) : (s.latch w).snap = s.snap := rfl
@[simp] theorem State.latch_turns (w : Word) : (s.latch w).turns = s.turns := rfl
@[simp] theorem State.latch_hostReads (w : Word) : (s.latch w).hostReads = s.hostReads := rfl
@[simp] theorem State.latch_status_done (w : Word) : (s.latch w).status.done = false := rfl
@[simp] theorem State.latch_status_ovr (w : Word) : (s.latch w).status.ovr = false := rfl
@[simp] theorem State.latch_status_brOob (w : Word) : (s.latch w).status.brOob = s.status.brOob := rfl
@[simp] theorem State.latch_status_err (w : Word) : (s.latch w).status.err = .none := rfl
@[simp] theorem State.latch_status_endReason (w : Word) : (s.latch w).status.endReason = s.status.endReason := rfl
@[simp] theorem State.latch_status_brRdy (w : Word) : (s.latch w).status.brRdy = s.status.brRdy := rfl
@[simp] theorem State.latch_status_ctRdy (w : Word) : (s.latch w).status.ctRdy = s.status.ctRdy := rfl
@[simp] theorem State.latch_status_compRdy (w : Word) : (s.latch w).status.compRdy = s.status.compRdy := rfl
@[simp] theorem State.latch_pending (w : Word) : (s.latch w).pending = some w := rfl

/-! `overrun` (R16). -/

@[simp] theorem State.overrun_caps : (s.overrun).caps = s.caps := rfl
@[simp] theorem State.overrun_pending : (s.overrun).pending = s.pending := rfl
@[simp] theorem State.overrun_canvasSize : (s.overrun).canvasSize = s.canvasSize := rfl
@[simp] theorem State.overrun_frPos : (s.overrun).frPos = s.frPos := rfl
@[simp] theorem State.overrun_frSize : (s.overrun).frSize = s.frSize := rfl
@[simp] theorem State.overrun_frCtrl : (s.overrun).frCtrl = s.frCtrl := rfl
@[simp] theorem State.overrun_frDlen : (s.overrun).frDlen = s.frDlen := rfl
@[simp] theorem State.overrun_numColors : (s.overrun).numColors = s.numColors := rfl
@[simp] theorem State.overrun_br : (s.overrun).br = s.br := rfl
@[simp] theorem State.overrun_ct : (s.overrun).ct = s.ct := rfl
@[simp] theorem State.overrun_rast : (s.overrun).rast = s.rast := rfl
@[simp] theorem State.overrun_compSize : (s.overrun).compSize = s.compSize := rfl
@[simp] theorem State.overrun_cdata : (s.overrun).cdata = s.cdata := rfl
@[simp] theorem State.overrun_ctab : (s.overrun).ctab = s.ctab := rfl
@[simp] theorem State.overrun_dict : (s.overrun).dict = s.dict := rfl
@[simp] theorem State.overrun_raster : (s.overrun).raster = s.raster := rfl
@[simp] theorem State.overrun_canvas : (s.overrun).canvas = s.canvas := rfl
@[simp] theorem State.overrun_prev : (s.overrun).prev = s.prev := rfl
@[simp] theorem State.overrun_snap : (s.overrun).snap = s.snap := rfl
@[simp] theorem State.overrun_turns : (s.overrun).turns = s.turns := rfl
@[simp] theorem State.overrun_hostReads : (s.overrun).hostReads = s.hostReads := rfl
@[simp] theorem State.overrun_status_done : (s.overrun).status.done = s.status.done := rfl
@[simp] theorem State.overrun_status_ovr : (s.overrun).status.ovr = true := rfl
@[simp] theorem State.overrun_status_brOob : (s.overrun).status.brOob = s.status.brOob := rfl
@[simp] theorem State.overrun_status_err : (s.overrun).status.err = s.status.err := rfl
@[simp] theorem State.overrun_status_endReason : (s.overrun).status.endReason = s.status.endReason := rfl
@[simp] theorem State.overrun_status_brRdy : (s.overrun).status.brRdy = s.status.brRdy := rfl
@[simp] theorem State.overrun_status_ctRdy : (s.overrun).status.ctRdy = s.status.ctRdy := rfl
@[simp] theorem State.overrun_status_compRdy : (s.overrun).status.compRdy = s.status.compRdy := rfl

/-! `brInit` (R79). -/

@[simp] theorem brInit_caps : (brInit s).caps = s.caps := rfl
@[simp] theorem brInit_pending : (brInit s).pending = s.pending := rfl
@[simp] theorem brInit_canvasSize : (brInit s).canvasSize = s.canvasSize := rfl
@[simp] theorem brInit_frPos : (brInit s).frPos = s.frPos := rfl
@[simp] theorem brInit_frSize : (brInit s).frSize = s.frSize := rfl
@[simp] theorem brInit_frCtrl : (brInit s).frCtrl = s.frCtrl := rfl
@[simp] theorem brInit_frDlen : (brInit s).frDlen = s.frDlen := rfl
@[simp] theorem brInit_numColors : (brInit s).numColors = s.numColors := rfl
@[simp] theorem brInit_ct : (brInit s).ct = s.ct := rfl
@[simp] theorem brInit_rast : (brInit s).rast = s.rast := rfl
@[simp] theorem brInit_compSize : (brInit s).compSize = s.compSize := rfl
@[simp] theorem brInit_cdata : (brInit s).cdata = s.cdata := rfl
@[simp] theorem brInit_ctab : (brInit s).ctab = s.ctab := rfl
@[simp] theorem brInit_dict : (brInit s).dict = s.dict := rfl
@[simp] theorem brInit_raster : (brInit s).raster = s.raster := rfl
@[simp] theorem brInit_canvas : (brInit s).canvas = s.canvas := rfl
@[simp] theorem brInit_prev : (brInit s).prev = s.prev := rfl
@[simp] theorem brInit_snap : (brInit s).snap = s.snap := rfl
@[simp] theorem brInit_turns : (brInit s).turns = s.turns := rfl
@[simp] theorem brInit_hostReads : (brInit s).hostReads = s.hostReads := rfl
@[simp] theorem brInit_status_done : (brInit s).status.done = s.status.done := rfl
@[simp] theorem brInit_status_ovr : (brInit s).status.ovr = s.status.ovr := rfl
@[simp] theorem brInit_status_brOob : (brInit s).status.brOob = false := rfl
@[simp] theorem brInit_status_err : (brInit s).status.err = s.status.err := rfl
@[simp] theorem brInit_status_endReason : (brInit s).status.endReason = s.status.endReason := rfl
@[simp] theorem brInit_status_brRdy : (brInit s).status.brRdy = true := rfl
@[simp] theorem brInit_status_ctRdy : (brInit s).status.ctRdy = s.status.ctRdy := rfl
@[simp] theorem brInit_status_compRdy : (brInit s).status.compRdy = s.status.compRdy := rfl
@[simp] theorem brInit_br : (brInit s).br = { s.br with len := s.inLen, cursor := 0, data := 0 } := rfl

/-! `takePrev` (R93). -/

@[simp] theorem takePrev_caps (c : Code) : (takePrev c s).caps = s.caps := rfl
@[simp] theorem takePrev_pending (c : Code) : (takePrev c s).pending = s.pending := rfl
@[simp] theorem takePrev_status (c : Code) : (takePrev c s).status = s.status := rfl
@[simp] theorem takePrev_canvasSize (c : Code) : (takePrev c s).canvasSize = s.canvasSize := rfl
@[simp] theorem takePrev_frPos (c : Code) : (takePrev c s).frPos = s.frPos := rfl
@[simp] theorem takePrev_frSize (c : Code) : (takePrev c s).frSize = s.frSize := rfl
@[simp] theorem takePrev_frCtrl (c : Code) : (takePrev c s).frCtrl = s.frCtrl := rfl
@[simp] theorem takePrev_frDlen (c : Code) : (takePrev c s).frDlen = s.frDlen := rfl
@[simp] theorem takePrev_numColors (c : Code) : (takePrev c s).numColors = s.numColors := rfl
@[simp] theorem takePrev_br (c : Code) : (takePrev c s).br = s.br := rfl
@[simp] theorem takePrev_ct (c : Code) : (takePrev c s).ct = s.ct := rfl
@[simp] theorem takePrev_compSize (c : Code) : (takePrev c s).compSize = s.compSize := rfl
@[simp] theorem takePrev_cdata (c : Code) : (takePrev c s).cdata = s.cdata := rfl
@[simp] theorem takePrev_ctab (c : Code) : (takePrev c s).ctab = s.ctab := rfl
@[simp] theorem takePrev_dict (c : Code) : (takePrev c s).dict = s.dict := rfl
@[simp] theorem takePrev_raster (c : Code) : (takePrev c s).raster = s.raster := rfl
@[simp] theorem takePrev_canvas (c : Code) : (takePrev c s).canvas = s.canvas := rfl
@[simp] theorem takePrev_prev (c : Code) : (takePrev c s).prev = s.prev := rfl
@[simp] theorem takePrev_snap (c : Code) : (takePrev c s).snap = s.snap := rfl
@[simp] theorem takePrev_turns (c : Code) : (takePrev c s).turns = s.turns := rfl
@[simp] theorem takePrev_hostReads (c : Code) : (takePrev c s).hostReads = s.hostReads := rfl
@[simp] theorem takePrev_rast (c : Code) : (takePrev c s).rast = { s.rast with prev := c, pv := true } := rfl

/-! `clearStep` (R96). -/

@[simp] theorem clearStep_caps : (clearStep s).caps = s.caps := rfl
@[simp] theorem clearStep_pending : (clearStep s).pending = s.pending := rfl
@[simp] theorem clearStep_status : (clearStep s).status = s.status := rfl
@[simp] theorem clearStep_canvasSize : (clearStep s).canvasSize = s.canvasSize := rfl
@[simp] theorem clearStep_frPos : (clearStep s).frPos = s.frPos := rfl
@[simp] theorem clearStep_frSize : (clearStep s).frSize = s.frSize := rfl
@[simp] theorem clearStep_frCtrl : (clearStep s).frCtrl = s.frCtrl := rfl
@[simp] theorem clearStep_frDlen : (clearStep s).frDlen = s.frDlen := rfl
@[simp] theorem clearStep_numColors : (clearStep s).numColors = s.numColors := rfl
@[simp] theorem clearStep_compSize : (clearStep s).compSize = s.compSize := rfl
@[simp] theorem clearStep_cdata : (clearStep s).cdata = s.cdata := rfl
@[simp] theorem clearStep_ctab : (clearStep s).ctab = s.ctab := rfl
@[simp] theorem clearStep_dict : (clearStep s).dict = s.dict := rfl
@[simp] theorem clearStep_raster : (clearStep s).raster = s.raster := rfl
@[simp] theorem clearStep_canvas : (clearStep s).canvas = s.canvas := rfl
@[simp] theorem clearStep_prev : (clearStep s).prev = s.prev := rfl
@[simp] theorem clearStep_snap : (clearStep s).snap = s.snap := rfl
@[simp] theorem clearStep_turns : (clearStep s).turns = s.turns := rfl
@[simp] theorem clearStep_hostReads : (clearStep s).hostReads = s.hostReads := rfl
@[simp] theorem clearStep_rast : (clearStep s).rast = { s.rast with pv := false } := rfl
@[simp] theorem clearStep_ct : (clearStep s).ct = (ctClear s).ct := rfl
@[simp] theorem clearStep_br : (clearStep s).br = (ctClear s).br := rfl

end Sys2Proof.Machine
end

