-- ==== Sys2Proof/Laws/Reader.lean ====
section
/-! SUPPORT. Laws of the Bit Reader: what a read answers, when it stops, and the bits it returns (R76 to R78). -/

namespace Sys2Proof.Machine

open Sys2Proof.Safety

/-- A byte of the reader's buffer that exists is CDATA's byte below BL, and 0 in the two pad bytes (R76). -/
theorem readerByte_eq_ok {s : State} {i : Nat} {b : Byte} :
    readerByte s i = .ok b ↔
      (i < s.br.len ∧ s.cdata.read i = some b) ∨ (s.br.len ≤ i ∧ i ≤ s.br.len + 1 ∧ b = 0) := by
  unfold readerByte
  split
  · rename_i h
    rw [fetch_eq_ok]
    constructor
    · exact fun h' => .inl ⟨h, h'⟩
    · rintro (⟨_, h'⟩ | ⟨h', _⟩)
      · exact h'
      · omega
  · rename_i h
    split
    · rename_i h'
      simp only [Except.ok.injEq]
      constructor
      · exact fun e => .inr ⟨by omega, h', e.symm⟩
      · rintro (⟨e, _⟩ | ⟨_, _, e⟩)
        · exact absurd e h
        · exact e.symm
    · rename_i h'
      simp only [reduceCtorEq, false_iff]
      rintro (⟨e, _⟩ | ⟨_, e, _⟩)
      · exact h e
      · exact h' e

/-- Inside the buffer of `BL + 2` bytes, `readerByte` stops only on a byte below BL never written (R50, R76). -/
theorem readerByte_eq_error {s : State} {i : Nat} {f : Fault} (hi : i ≤ s.br.len + 1) (h : readerByte s i = .error f) :
    i < s.br.len ∧ s.cdata.read i = none ∧ f = .unwrittenRead .cdata i := by
  unfold readerByte at h
  split at h
  · exact ⟨‹_›, fetch_eq_error.mp h⟩
  · cases h

/-- The window is made of the three bytes from `p`, the first one lowest (R77). -/
theorem readerWindow_eq_ok {s : State} {p : Nat} {win : BitVec 24} :
    readerWindow s p = .ok win ↔
      ∃ b0 b1 b2, readerByte s p = .ok b0 ∧ readerByte s (p + 1) = .ok b1 ∧ readerByte s (p + 2) = .ok b2
        ∧ win = b2 ++ b1 ++ b0 := by
  unfold readerWindow
  cases readerByte s p <;> cases readerByte s (p + 1) <;> cases readerByte s (p + 2) <;> simp [eq_comm]

/-- For a window in range, `readerWindow` stops only on a byte below BL never written. -/
theorem readerWindow_eq_error {s : State} {p : Nat} {f : Fault} (hp : p < s.br.len) (h : readerWindow s p = .error f) :
    ∃ i, p ≤ i ∧ i ≤ p + 2 ∧ i < s.br.len ∧ s.cdata.read i = none ∧ f = .unwrittenRead .cdata i := by
  unfold readerWindow at h
  cases h0 : readerByte s p with
  | error f0 =>
    obtain ⟨hl, hr, hf⟩ := readerByte_eq_error (by omega) h0
    rw [h0] at h
    cases h
    exact ⟨p, by omega, by omega, hl, hr, hf⟩
  | ok b0 =>
    cases h1 : readerByte s (p + 1) with
    | error f1 =>
      obtain ⟨hl, hr, hf⟩ := readerByte_eq_error (by omega) h1
      rw [h0, h1] at h
      cases h
      exact ⟨p + 1, by omega, by omega, hl, hr, hf⟩
    | ok b1 =>
      cases h2 : readerByte s (p + 2) with
      | error f2 =>
        obtain ⟨hl, hr, hf⟩ := readerByte_eq_error (by omega) h2
        rw [h0, h1, h2] at h
        cases h
        exact ⟨p + 2, by omega, by omega, hl, hr, hf⟩
      | ok b2 => simp [h0, h1, h2] at h

/-- What a read answers: out of range, BR_OOB; in range, a code, and the cursor past it (R77). -/
theorem readCode_cases {s t : State} {r : ReadResult} (h : readCode s = .ok (r, t)) :
    (s.br.len ≤ s.br.cursor / 8 ∧ r = .oob ∧ t = s.withOob) ∨
    (s.br.cursor / 8 < s.br.len ∧ ∃ win v, readerWindow s (s.br.cursor / 8) = .ok win
      ∧ v = windowBits win (s.br.cursor % 8) s.br.nbits ∧ r = .code v
      ∧ t = { s with br := { s.br with cursor := s.br.cursor + s.br.nbits, data := v } }) := by
  unfold readCode at h
  split at h
  · cases h
    exact .inl ⟨‹_›, rfl, rfl⟩
  · rename_i hlt
    cases hw : readerWindow s (s.br.cursor / 8) with
    | error f => simp [hw] at h
    | ok win =>
      simp only [hw, Except.ok.injEq, Prod.mk.injEq] at h
      exact .inr ⟨by omega, win, _, rfl, rfl, h.1.symm, h.2.symm⟩

/-- A read out of range. -/
theorem readCode_oob {s : State} (h : s.br.len ≤ s.br.cursor / 8) : readCode s = .ok (.oob, s.withOob) := by
  simp [readCode, h]

/-- A read in range. -/
theorem readCode_ok {s : State} {win : BitVec 24} (h : s.br.cursor / 8 < s.br.len)
    (hw : readerWindow s (s.br.cursor / 8) = .ok win) :
    readCode s = .ok (.code (windowBits win (s.br.cursor % 8) s.br.nbits),
      { s with br := { s.br with
          cursor := s.br.cursor + s.br.nbits, data := windowBits win (s.br.cursor % 8) s.br.nbits } }) := by
  simp [readCode, Nat.not_le.mpr h, hw]

/-- A read stops only on a byte below BL never written. -/
theorem readCode_eq_error {s : State} {f : Fault} (h : readCode s = .error f) :
    s.br.cursor / 8 < s.br.len ∧
    ∃ i, s.br.cursor / 8 ≤ i ∧ i ≤ s.br.cursor / 8 + 2 ∧ i < s.br.len ∧ s.cdata.read i = none
      ∧ f = .unwrittenRead .cdata i := by
  unfold readCode at h
  split at h
  · cases h
  · rename_i hlt
    cases hw : readerWindow s (s.br.cursor / 8) with
    | error f' =>
      rw [hw] at h
      cases h
      exact ⟨by omega, readerWindow_eq_error (by omega) hw⟩
    | ok win => simp [hw] at h

/-- If the bytes below BL that a window needs are written, it is read. -/
theorem readerWindow_ok_of_written {s : State} {p : Nat} (hp : p < s.br.len)
    (h : ∀ i, p ≤ i → i ≤ p + 2 → i < s.br.len → Written s.cdata i) : ∃ win, readerWindow s p = .ok win := by
  cases hw : readerWindow s p with
  | ok win => exact ⟨win, rfl⟩
  | error f =>
    obtain ⟨i, h1, h2, h3, h4, _⟩ := readerWindow_eq_error hp hw
    have := h i h1 h2 h3
    simp [Written, h4] at this

/-- A read of written data answers. -/
theorem readCode_ok_of_written {s : State} (h : WindowWritten s) : ∃ r t, readCode s = .ok (r, t) := by
  by_cases hp : s.br.cursor / 8 < s.br.len
  · obtain ⟨win, hw⟩ := readerWindow_ok_of_written hp h
    exact ⟨_, _, readCode_ok hp hw⟩
  · exact ⟨_, _, readCode_oob (by omega)⟩

/-- Bit `j` of a read is bit `sh + j` of the window, below `n` (R77). -/
theorem windowBits_getLsbD (win : BitVec 24) (sh n j : Nat) :
    (windowBits win sh n).getLsbD j = (decide (j < 12) && decide (j < n) && win.getLsbD (sh + j)) := by
  simp only [windowBits, BitVec.getLsbD_setWidth, BitVec.getLsbD_and, BitVec.getLsbD_ushiftRight, BitVec.getLsbD_ofNat,
    Nat.testBit_two_pow_sub_one]
  by_cases h : j < 12
  · simp [h, show j < 24 by omega, Bool.and_comm]
  · simp [h]

/-- Bit `k` of byte `i` of the reader's buffer is stream bit `8*i + k` (R51). -/
theorem readerByte_getLsbD {s : State} {i k : Nat} {b : Byte} (h : readerByte s i = .ok b) (hk : k < 8) :
    b.getLsbD k = streamBit s (8 * i + k) := by
  have h8 : (8 * i + k) / 8 = i := by omega
  have hm : (8 * i + k) % 8 = k := by omega
  rcases readerByte_eq_ok.mp h with ⟨hl, hr⟩ | ⟨hl, _, rfl⟩
  · simp [streamBit, h8, hm, hl, hr]
  · simp [streamBit, h8, Nat.not_lt.mpr hl]

/-- Bit `k` of the window at byte `p` is stream bit `8*p + k` (R51, R77). -/
theorem readerWindow_getLsbD {s : State} {p k : Nat} {win : BitVec 24} (h : readerWindow s p = .ok win) (hk : k < 24) :
    win.getLsbD k = streamBit s (8 * p + k) := by
  obtain ⟨b0, b1, b2, h0, h1, h2, rfl⟩ := readerWindow_eq_ok.mp h
  rw [BitVec.getLsbD_append]
  split
  · exact readerByte_getLsbD h0 ‹_›
  · rename_i hk8
    rw [BitVec.getLsbD_append]
    split
    · rw [readerByte_getLsbD h1 ‹_›]
      congr 1
      omega
    · rw [readerByte_getLsbD h2 (by omega)]
      congr 1
      omega

/-- The bits of a read are the next `n` bits of the stream, least significant first (R51, R77, R78). -/
theorem windowBits_streamBit {s : State} {win : BitVec 24} {n : Nat} (h : readerWindow s (s.br.cursor / 8) = .ok win)
    (hn : n ≤ 12) (j : Nat) :
    (windowBits win (s.br.cursor % 8) n).getLsbD j = (decide (j < n) && streamBit s (s.br.cursor + j)) := by
  rw [windowBits_getLsbD]
  by_cases hj : j < n
  · rw [readerWindow_getLsbD h (by omega), show 8 * (s.br.cursor / 8) + (s.br.cursor % 8 + j) = s.br.cursor + j by omega]
    simp [hj, show j < 12 by omega]
  · simp [hj]

/-- Changing CDATA at and beyond BL changes no byte of the reader's buffer (R76, R148). -/
theorem readerByte_congr {s : State} {m : Memory Byte} (h : ∀ i < s.br.len, m.read i = s.cdata.read i) (i : Nat) :
    readerByte { s with cdata := m } i = readerByte s i := by
  unfold readerByte fetch
  by_cases hi : i < s.br.len
  · simp [hi, h i hi]
  · simp [hi]

theorem readerWindow_congr {s : State} {m : Memory Byte} (h : ∀ i < s.br.len, m.read i = s.cdata.read i) (p : Nat) :
    readerWindow { s with cdata := m } p = readerWindow s p := by
  simp only [readerWindow, readerByte_congr h]

end Sys2Proof.Machine
end

