-- ==== Sys2Proof/Laws/Table.lean ====
section
/-! SUPPORT. Laws of the Code Table: the seeded slots, the width invariant of R85, and the slots of R82 through
CT_INIT, CT_CLEAR and `addEntry`. -/

namespace Sys2Proof.Machine

open Sys2Proof.Safety

/-! ### Sequences -/

@[simp] theorem IndexSeq.length_toList (q : IndexSeq) : q.toList.length = q.len := by
  simp [IndexSeq.toList, IndexSeq.len]

@[simp] theorem IndexSeq.toList_snoc (q : IndexSeq) (k : Index) : (q.snoc k).toList = q.toList ++ [k] := by
  simp [IndexSeq.snoc, IndexSeq.toList]

@[simp] theorem IndexSeq.len_snoc (q : IndexSeq) (k : Index) : (q.snoc k).len = q.len + 1 := by
  simp [IndexSeq.snoc, IndexSeq.len]

theorem IndexSeq.len_pos (q : IndexSeq) : 0 < q.len := Nat.succ_pos _

/-- `last` is the last index of the sequence. -/
theorem IndexSeq.getLast?_toList (q : IndexSeq) : q.toList.getLast? = some q.last := by
  simp [IndexSeq.toList, IndexSeq.last, List.getLast?_cons]

theorem IndexSeq.toList_injective {p q : IndexSeq} (h : p.toList = q.toList) : p = q := by
  obtain ⟨a, l⟩ := p
  obtain ⟨b, l'⟩ := q
  simpa [IndexSeq.toList] using h

/-! ### CT_INIT -/

/-- The slots of a seeded table (R86). -/
theorem read_seededDict (m nc c : Nat) :
    (seededDict m nc).read c =
      if c = 2 ^ m ∨ c = 2 ^ m + 1 then some .control
      else if c < nc then some (.seq ⟨BitVec.ofNat 8 c, []⟩)
      else none := by
  rw [seededDict, seedSlots, Memory.writeAll_append]
  simp only [Memory.writeAll, Memory.read_write]
  by_cases h1 : c = 2 ^ m + 1
  · simp [h1]
  · by_cases h0 : c = 2 ^ m
    · simp [h0]
    · simp only [h0, h1, if_false, or_self]
      split
      · rename_i h
        refine Memory.read_writeAll_of_mem (List.mem_map.mpr ⟨c, List.mem_range.mpr h, rfl⟩) ?_
        intro p hp hc
        obtain ⟨k, _, rfl⟩ := List.mem_map.mp hp
        simp only at hc
        rw [hc]
        rfl
      · rename_i h
        rw [Memory.read_writeAll_of_notMem]
        · rfl
        · intro p hp
          obtain ⟨k, hk, rfl⟩ := List.mem_map.mp hp
          have := List.mem_range.mp hk
          simp only
          omega

theorem seededDict_wf (m nc : Nat) : (seededDict m nc).wf := Memory.writeAll_wf _ List.Pairwise.nil

theorem legalColors_le {nc : Nat} (h : legalColors nc) : nc ≤ 256 := by
  simp only [legalColors, List.mem_cons, List.not_mem_nil, or_false] at h
  omega

theorem two_pow_le_of_legal {m : Nat} (h : legalMinCode m) : 4 ≤ 2 ^ m ∧ 2 ^ m ≤ 2048 :=
  ⟨Nat.pow_le_pow_right (show 0 < 2 by decide) h.1, Nat.pow_le_pow_right (show 0 < 2 by decide) h.2⟩

theorem seededDict_within {m nc : Nat} (hm : legalMinCode m) (hc : legalColors nc) :
    (seededDict m nc).within Config.dictSlots := by
  refine Memory.writeAll_within (by simp) ?_
  intro p hp
  have h1 := legalColors_le hc
  have h2 := two_pow_le_of_legal hm
  simp only [seedSlots, List.mem_append, List.mem_map, List.mem_range, List.mem_cons, List.not_mem_nil, or_false] at hp
  simp only [Config.dictSlots]
  rcases hp with ⟨k, hk, rfl⟩ | rfl | rfl <;> simp only <;> omega

/-- The width of the first code after CT_INIT or CT_CLEAR: `2^m + 2` has `m + 1` bits (R73). -/
theorem size_rewound {m : Nat} (h : legalMinCode m) : Nat.size (2 ^ m + 2) = m + 1 := by
  have h4 := two_pow_le_of_legal h
  apply Nat.le_antisymm
  · rw [Nat.size_le, Nat.pow_succ]
    omega
  · exact Nat.lt_size.mpr (by omega)

theorem width_rewound {m : Nat} (h : legalMinCode m) : m + 1 = min 12 (Nat.size (2 ^ m + 2)) := by
  rw [size_rewound h]
  have := h.2
  omega

/-- CT_INIT with legal parameters makes a table (R85, R86). -/
theorem ctInit_tableOk {s : State} (hm : legalMinCode s.inMinCode) (hc : legalColors s.inColors) :
    TableOk (ctInit s).ct (ctInit s).dict := by
  have h4 := two_pow_le_of_legal hm
  refine ⟨hm, hc, Nat.le_refl _, ?_, width_rewound hm, rfl, ?_, ?_, ?_⟩
  · simp only [ctInit, Config.dictSlots]
    omega
  · intro c h
    simp only [CodeTable.lit, CodeTable.clearCode, ctInit, lt_min_iff] at h
    rw [ctInit, read_seededDict, if_neg (by omega), if_pos h.1]
    rfl
  · intro c h
    simp only [CodeTable.clearCode, CodeTable.endCode, ctInit] at h
    rw [ctInit, read_seededDict, if_pos h]
  · intro c h1 h2
    simp only [CodeTable.endCode, ctInit] at h1 h2
    omega

/-! ### CT_CLEAR -/

/-- CT_CLEAR rewinds a table to a table: the literal and control slots stand, and no entry is left (R85, R87). -/
theorem ctClear_tableOk {s : State} (h : TableOk s.ct s.dict) : TableOk (ctClear s).ct (ctClear s).dict := by
  have h4 := two_pow_le_of_legal h.minCode
  refine ⟨h.minCode, h.colors, Nat.le_refl _, ?_, width_rewound h.minCode, rfl, h.slots.literal, h.slots.control, ?_⟩
  · simp only [ctClear, CodeTable.endCode, Config.dictSlots]
    omega
  · intro c h1 h2
    simp only [ctClear, CodeTable.endCode] at h1 h2
    omega

/-! ### addEntry -/

@[simp] theorem growWidth_nextCode (s : State) : (growWidth s).ct.nextCode = s.ct.nextCode := by
  unfold growWidth
  split <;> rfl

@[simp] theorem growWidth_minCode (s : State) : (growWidth s).ct.minCode = s.ct.minCode := by
  unfold growWidth
  split <;> rfl

@[simp] theorem growWidth_numColors (s : State) : (growWidth s).ct.numColors = s.ct.numColors := by
  unfold growWidth
  split <;> rfl

@[simp] theorem growWidth_dict (s : State) : (growWidth s).dict = s.dict := by
  unfold growWidth
  split <;> rfl

/-- `addEntry` on a full table does nothing (R84). -/
theorem addEntry_full (q : IndexSeq) {s : State} (h : Config.dictSlots ≤ s.ct.nextCode) : addEntry q s = s := by
  simp [addEntry, h]

/-- `addEntry` below a full table stores (R84). -/
theorem addEntry_eq (q : IndexSeq) {s : State} (h : s.ct.nextCode < Config.dictSlots) :
    addEntry q s = storeEntry q (growWidth s) := by
  simp [addEntry, Nat.not_le.mpr h]

/-- One more entry, with the growth `addEntry` makes, keeps the width the number of bits of nextCode, up to 12 (R85). -/
theorem width_step {size next : Nat} (h : size = min 12 (Nat.size next)) :
    (if next = 2 ^ size - 1 ∧ size < 12 then size + 1 else size) = min 12 (Nat.size (next + 1)) := by
  have hmono : Nat.size next ≤ Nat.size (next + 1) := Nat.size_le_size (Nat.le_succ _)
  have hpos : 1 ≤ 2 ^ size := Nat.one_le_two_pow
  split
  · rename_i hg
    have : Nat.size (next + 1) = size + 1 := by
      rw [hg.1, Nat.sub_add_cancel hpos, Nat.size_pow]
    omega
  · rename_i hg
    by_cases h12 : size < 12
    · have hs : Nat.size next = size := by omega
      have hlt : next < 2 ^ size := Nat.size_le.mp (Nat.le_of_eq hs)
      have : Nat.size (next + 1) ≤ size := Nat.size_le.mpr (by omega)
      omega
    · omega

/-- `addEntry` of a sequence within the length bound keeps a table a table (R82, R84, R85, R89). -/
theorem addEntry_tableOk {s : State} {q : IndexSeq} (h : TableOk s.ct s.dict)
    (hq : q.len + s.ct.endCode ≤ s.ct.nextCode + 1) : TableOk (addEntry q s).ct (addEntry q s).dict := by
  by_cases hfull : Config.dictSlots ≤ s.ct.nextCode
  · rwa [addEntry_full q hfull]
  · have hlt : s.ct.nextCode < Config.dictSlots := Nat.not_le.mp hfull
    have hw := width_step h.width
    have hlow := h.lower
    rw [addEntry_eq q hlt]
    have hend : (storeEntry q (growWidth s)).ct.endCode = s.ct.endCode := by
      simp [storeEntry, CodeTable.endCode]
    have hclear : (storeEntry q (growWidth s)).ct.clearCode = s.ct.clearCode := by
      simp [storeEntry, CodeTable.clearCode]
    have hlit : (storeEntry q (growWidth s)).ct.lit = s.ct.lit := by
      rw [CodeTable.lit, hclear]
      simp [CodeTable.lit, storeEntry]
    have hnext : (storeEntry q (growWidth s)).ct.nextCode = s.ct.nextCode + 1 := by simp [storeEntry]
    have hdict : (storeEntry q (growWidth s)).dict = s.dict.write s.ct.nextCode (.seq q) := by simp [storeEntry]
    have hsz : (storeEntry q (growWidth s)).ct.codeSize =
        if s.ct.nextCode = 2 ^ s.ct.codeSize - 1 ∧ s.ct.codeSize < 12 then s.ct.codeSize + 1 else s.ct.codeSize := by
      simp only [storeEntry, growWidth, h.limit]
      split <;> rfl
    have hend' : s.ct.clearCode < s.ct.endCode := Nat.lt_succ_self _
    refine ⟨?_, ?_, ?_, ?_, ?_, ?_, ?_, ?_, ?_⟩
    · simpa [storeEntry] using h.minCode
    · simpa [storeEntry] using h.colors
    · rw [hend, hnext]
      omega
    · rw [hnext]
      exact hlt
    · rw [hsz, hnext, hw]
    · simp only [storeEntry, growWidth]
      split
      · rfl
      · exact h.limit
    · intro c hc
      rw [hlit] at hc
      rw [hdict, Memory.read_write_of_ne _ _ ?_]
      · exact h.slots.literal c hc
      · have : s.ct.lit ≤ s.ct.clearCode := Nat.min_le_right _ _
        omega
    · intro c hc
      rw [hclear, hend] at hc
      rw [hdict, Memory.read_write_of_ne _ _ (by omega)]
      exact h.slots.control c hc
    · intro c h1 h2
      rw [hend] at h1
      rw [hnext] at h2
      rw [hdict, hend]
      by_cases hc : c = s.ct.nextCode
      · subst hc
        exact ⟨q, by simp, hq⟩
      · rw [Memory.read_write_of_ne _ _ hc]
        exact h.slots.entry c h1 (by omega)

/-! ### The slots of valid codes -/

/-- A valid code that is no control code has a sequence, short enough to be a prefix (R82, R89). -/
theorem tableOk_read_valid {t : CodeTable} {d : Memory Slot} (h : TableOk t d) {c : Nat} (hv : t.valid c)
    (hclear : c ≠ t.clearCode) (hend : c ≠ t.endCode) :
    ∃ q : IndexSeq, d.read c = some (.seq q) ∧ q.len + t.endCode ≤ t.nextCode := by
  obtain ⟨hlt, hgap⟩ := hv
  have hce : t.endCode = t.clearCode + 1 := rfl
  by_cases hl : c < t.lit
  · refine ⟨_, h.slots.literal c hl, ?_⟩
    have := h.lower
    simp only [IndexSeq.single, IndexSeq.len, List.length_nil]
    omega
  · obtain ⟨q, hq, hb⟩ := h.slots.entry c (by omega) hlt
    exact ⟨q, hq, by omega⟩

/-- A valid code's slot is always written (R82). -/
theorem tableOk_written_valid {t : CodeTable} {d : Memory Slot} (h : TableOk t d) {c : Nat} (hv : t.valid c) :
    ∃ slot, d.read c = some slot := by
  by_cases hc : c = t.clearCode ∨ c = t.endCode
  · exact ⟨_, h.slots.control c hc⟩
  · obtain ⟨q, hq, _⟩ := tableOk_read_valid h hv (fun e => hc (.inl e)) (fun e => hc (.inr e))
    exact ⟨_, hq⟩

/-- `seqOf` answers the sequence its slot holds. -/
theorem seqOf_eq_ok {s : State} {c : Nat} {q : IndexSeq} : seqOf s c = .ok q ↔ s.dict.read c = some (.seq q) := by
  unfold seqOf
  cases hf : fetch .dict s.dict c with
  | error f => simp [(fetch_eq_error.mp hf).1]
  | ok slot =>
    rw [fetch_eq_ok.mp hf]
    cases slot <;> simp

end Sys2Proof.Machine
end

