-- ==== Sys2Proof/Laws/Raster.lean ====
section
/-! SUPPORT. Laws of the decode: emission, what one turn of the loop can do, the loop's invariant, and its end
(R91 to R102). -/

namespace Sys2Proof.Machine

open Sys2Proof.Safety

/-! ### What a decode leaves alone -/

/-- The fields no part of a decode writes after its setup (R105, "State written"). -/
structure DecodeFrame (s t : State) : Prop where
  caps : t.caps = s.caps
  pending : t.pending = s.pending
  done : t.status.done = s.status.done
  ovr : t.status.ovr = s.status.ovr
  err : t.status.err = s.status.err
  brRdy : t.status.brRdy = s.status.brRdy
  ctRdy : t.status.ctRdy = s.status.ctRdy
  compRdy : t.status.compRdy = s.status.compRdy
  canvasSize : t.canvasSize = s.canvasSize
  frPos : t.frPos = s.frPos
  frSize : t.frSize = s.frSize
  frCtrl : t.frCtrl = s.frCtrl
  frDlen : t.frDlen = s.frDlen
  numColors : t.numColors = s.numColors
  len : t.br.len = s.br.len
  minCode : t.ct.minCode = s.ct.minCode
  ctColors : t.ct.numColors = s.ct.numColors
  lookup : t.ct.lookup = s.ct.lookup
  compSize : t.compSize = s.compSize
  cdata : t.cdata = s.cdata
  ctab : t.ctab = s.ctab
  canvas : t.canvas = s.canvas
  prev : t.prev = s.prev
  snap : t.snap = s.snap
  turns : t.turns = s.turns
  hostReads : t.hostReads = s.hostReads

theorem DecodeFrame.refl (s : State) : DecodeFrame s s := by constructor <;> rfl

theorem DecodeFrame.trans {s t u : State} (h : DecodeFrame s t) (k : DecodeFrame t u) : DecodeFrame s u :=
  ⟨k.1.trans h.1, k.2.trans h.2, k.3.trans h.3, k.4.trans h.4, k.5.trans h.5, k.6.trans h.6, k.7.trans h.7,
    k.8.trans h.8, k.9.trans h.9, k.10.trans h.10, k.11.trans h.11, k.12.trans h.12, k.13.trans h.13, k.14.trans h.14,
    k.15.trans h.15, k.16.trans h.16, k.17.trans h.17, k.18.trans h.18, k.19.trans h.19, k.20.trans h.20, k.21.trans h.21,
    k.22.trans h.22, k.23.trans h.23, k.24.trans h.24, k.25.trans h.25, k.26.trans h.26⟩

theorem DecodeFrame.pixels {s t : State} (h : DecodeFrame s t) : t.framePixels = s.framePixels := by
  simp [State.framePixels, State.frameW, State.frameH, h.frSize]

theorem DecodeFrame.clearCode {s t : State} (h : DecodeFrame s t) : t.ct.clearCode = s.ct.clearCode := by
  simp [CodeTable.clearCode, h.minCode]

theorem DecodeFrame.endCode {s t : State} (h : DecodeFrame s t) : t.ct.endCode = s.ct.endCode := by
  simp [CodeTable.endCode, h.minCode]

theorem finish_frame (s : State) (r : EndReason) : DecodeFrame s (s.finish r) := by constructor <;> rfl

theorem clearStep_frame (s : State) : DecodeFrame s (clearStep s) := by constructor <;> rfl

theorem takePrev_frame (c : Code) (s : State) : DecodeFrame s (takePrev c s) := by constructor <;> rfl

/-- `addEntry` writes DICT, the table's counts and the reader's width, and nothing else (R84). -/
theorem addEntry_shape (q : IndexSeq) (s : State) :
    ∃ (d : Memory Slot) (size next lim n : Nat),
      addEntry q s = { s with
        dict := d, ct := { s.ct with codeSize := size, nextCode := next, limit := lim }, br := { s.br with nbits := n } } := by
  unfold addEntry
  split
  · exact ⟨s.dict, s.ct.codeSize, s.ct.nextCode, s.ct.limit, s.br.nbits, rfl⟩
  · unfold storeEntry growWidth
    split <;> exact ⟨_, _, _, _, _, rfl⟩

theorem addEntry_frame (q : IndexSeq) (s : State) : DecodeFrame s (addEntry q s) := by
  obtain ⟨d, size, next, lim, n, h⟩ := addEntry_shape q s
  rw [h]
  constructor <;> rfl

@[simp] theorem addEntry_raster (q : IndexSeq) (s : State) : (addEntry q s).raster = s.raster := by
  obtain ⟨d, size, next, lim, n, h⟩ := addEntry_shape q s
  rw [h]

@[simp] theorem addEntry_rast (q : IndexSeq) (s : State) : (addEntry q s).rast = s.rast := by
  obtain ⟨d, size, next, lim, n, h⟩ := addEntry_shape q s
  rw [h]

@[simp] theorem addEntry_status (q : IndexSeq) (s : State) : (addEntry q s).status = s.status := by
  obtain ⟨d, size, next, lim, n, h⟩ := addEntry_shape q s
  rw [h]

@[simp] theorem addEntry_cursor (q : IndexSeq) (s : State) : (addEntry q s).br.cursor = s.br.cursor := by
  obtain ⟨d, size, next, lim, n, h⟩ := addEntry_shape q s
  rw [h]

/-- `addEntry` keeps the reader's width equal to codeSize (R72, R84). -/
theorem addEntry_nbits {q : IndexSeq} {s : State} (h : s.br.nbits = s.ct.codeSize) :
    (addEntry q s).br.nbits = (addEntry q s).ct.codeSize := by
  unfold addEntry
  split
  · exact h
  · unfold storeEntry growWidth
    split
    · rfl
    · exact h

/-! ### Emission -/

/-- `emit` in range (R91). -/
theorem emit_eq_some {q : IndexSeq} {s t : State} :
    emit q s = some t ↔ s.rast.outPos + q.len ≤ s.framePixels ∧
      t = { s with
        raster := s.raster.writeAll (emitWrites s.rast.outPos q)
        rast := { s.rast with outPos := s.rast.outPos + q.len } } := by
  unfold emit
  split
  · simp only [reduceCtorEq, false_iff]
    omega
  · simp only [Option.some.injEq]
    exact ⟨fun h => ⟨by omega, h.symm⟩, fun h => h.2.symm⟩

/-- `emit` out of range (R91). -/
theorem emit_eq_none {q : IndexSeq} {s : State} : emit q s = none ↔ s.framePixels < s.rast.outPos + q.len := by
  unfold emit
  split <;> simp_all

/-- The writes of an emission, one per index of the sequence. -/
theorem mem_emitWrites {pos : Nat} {q : IndexSeq} {p : Nat × RasterEntry} :
    p ∈ emitWrites pos q ↔ ∃ i k, q.toList[i]? = some k ∧ p = (pos + i, pixelEntry k) := by
  simp only [emitWrites, List.mem_map]
  constructor
  · rintro ⟨⟨k, i⟩, h, rfl⟩
    exact ⟨i, k, by simpa [List.mem_zipIdx_iff_getElem?] using h, rfl⟩
  · rintro ⟨i, k, h, rfl⟩
    exact ⟨(k, i), by simpa [List.mem_zipIdx_iff_getElem?] using h, rfl⟩

/-- The entries an emission writes (R91). -/
theorem read_emitWrites (m : Memory RasterEntry) {pos : Nat} {q : IndexSeq} {i : Nat} {k : Index}
    (h : q.toList[i]? = some k) : (m.writeAll (emitWrites pos q)).read (pos + i) = some (pixelEntry k) := by
  refine Memory.read_writeAll_of_mem (mem_emitWrites.mpr ⟨i, k, h, rfl⟩) ?_
  intro p hp hj
  obtain ⟨i', k', h', rfl⟩ := mem_emitWrites.mp hp
  have : i' = i := by simpa using hj
  subst this
  rw [h] at h'
  cases h'
  rfl

/-- The entries an emission leaves (R91). -/
theorem read_emitWrites_of_notMem (m : Memory RasterEntry) {pos : Nat} {q : IndexSeq} {j : Nat}
    (h : j < pos ∨ pos + q.len ≤ j) : (m.writeAll (emitWrites pos q)).read j = m.read j := by
  refine Memory.read_writeAll_of_notMem ?_
  intro p hp
  obtain ⟨i, k, hi, rfl⟩ := mem_emitWrites.mp hp
  obtain ⟨hlt, _⟩ := List.getElem?_eq_some_iff.mp hi
  rw [IndexSeq.length_toList] at hlt
  simp only
  omega

theorem emitWrites_within {pos cap : Nat} {q : IndexSeq} (h : pos + q.len ≤ cap) :
    ∀ p ∈ emitWrites pos q, p.1 < cap := by
  intro p hp
  obtain ⟨i, k, hi, rfl⟩ := mem_emitWrites.mp hp
  obtain ⟨hlt, _⟩ := List.getElem?_eq_some_iff.mp hi
  rw [IndexSeq.length_toList] at hlt
  simp only
  omega

theorem emit_frame {q : IndexSeq} {s t : State} (h : emit q s = some t) : DecodeFrame s t := by
  obtain ⟨_, rfl⟩ := emit_eq_some.mp h
  constructor <;> rfl

/-! ### One code -/

/-- What `codeStep` can do with a code: rewind the table, end the decode in the same state but for END_REASON, or emit a
sequence that fits, take the code as `prev`, and, when there was a previous code, add its sequence with one index more. -/
theorem codeStep_cases {c : Code} {s : State} {p : Progress} (h : codeStep c s = .ok p) :
    (c.toNat = s.ct.clearCode ∧ p = .more (clearStep s))
    ∨ (∃ r, p = .ended (s.finish r) ∧ r ≠ .none ∧ r ≠ .readOob)
    ∨ (c.toNat ≠ s.ct.clearCode ∧ c.toNat ≠ s.ct.endCode ∧ ∃ q t, emit q s = some t ∧
        (p = .more (takePrev c t)
        ∨ ∃ e k, s.rast.pv = true ∧ s.ct.valid s.rast.prev.toNat ∧ s.dict.read s.rast.prev.toNat = some (.seq e)
            ∧ p = .more (takePrev c (addEntry (e.snoc k) t)))) := by
  have hend (q : IndexSeq) (f : State → State) :
      (∃ r, emitOrEnd q f s = .ended (s.finish r) ∧ r ≠ .none ∧ r ≠ .readOob)
      ∨ ∃ t, emit q s = some t ∧ emitOrEnd q f s = .more (f t) := by
    unfold emitOrEnd
    cases emit q s with
    | none => exact .inl ⟨.outputFull, rfl, by decide, by decide⟩
    | some t => exact .inr ⟨t, rfl, rfl⟩
  unfold codeStep at h
  split at h
  · cases h
    exact .inl ⟨‹_›, rfl⟩
  · rename_i hclear
    split at h
    · cases h
      exact .inr (.inl ⟨.endCode, rfl, by decide, by decide⟩)
    · rename_i hne
      split at h
      · rename_i hpv
        unfold nextCode at h
        split at h
        · cases h
          exact .inr (.inl ⟨.badCode, rfl, by decide, by decide⟩)
        · rename_i hv
          have hv := not_not.mp hv
          split at h
          · cases h
          · rename_i e he
            have he := seqOf_eq_ok.mp he
            split at h
            · unfold knownCode at h
              split at h
              · cases h
                exact .inr (.inl ⟨.badCode, rfl, by decide, by decide⟩)
              · split at h
                · cases h
                · rename_i q _
                  cases h
                  rcases hend q (fun t => takePrev c (addEntry (e.snoc q.first) t)) with h | ⟨t, ht, h⟩
                  · exact .inr (.inl h)
                  · exact .inr (.inr ⟨hclear, hne, q, t, ht, .inr ⟨e, q.first, hpv, hv, he, h⟩⟩)
            · cases h
              rcases hend (e.snoc e.first) (fun t => takePrev c (addEntry (e.snoc e.first) t)) with h | ⟨t, ht, h⟩
              · exact .inr (.inl h)
              · exact .inr (.inr ⟨hclear, hne, _, t, ht, .inr ⟨e, e.first, hpv, hv, he, h⟩⟩)
      · unfold freshCode at h
        split at h
        · cases h
          exact .inr (.inl ⟨.badCode, rfl, by decide, by decide⟩)
        · split at h
          · cases h
          · rename_i q _
            cases h
            rcases hend q (takePrev c) with h | ⟨t, ht, h⟩
            · exact .inr (.inl h)
            · exact .inr (.inr ⟨hclear, hne, q, t, ht, .inl h⟩)

/-- The loop's invariant: a table, the reader at the table's width, a previous code that is no control code, and a raster
that is indices below outPos and NONE from there to the frame's end. -/
structure LoopOk (s : State) : Prop where
  table : TableOk s.ct s.dict
  width : s.br.nbits = s.ct.codeSize
  prev : s.rast.pv = true → s.rast.prev.toNat ≠ s.ct.clearCode ∧ s.rast.prev.toNat ≠ s.ct.endCode
  outPos : s.rast.outPos ≤ s.framePixels
  indices : ∀ j < s.rast.outPos, ∃ k, s.raster.read j = some (pixelEntry k)
  rest : ∀ j, s.rast.outPos ≤ j → j < s.framePixels → s.raster.read j = some noPixel
  entries : s.dict.wf ∧ s.dict.within Config.dictSlots

/-- `codeStep` answers in a state of the invariant: every slot it needs is a sequence (R82, R83). -/
theorem codeStep_ok {s : State} (h : LoopOk s) (c : Code) : ∃ p, codeStep c s = .ok p := by
  unfold codeStep
  split
  · exact ⟨_, rfl⟩
  · rename_i hclear
    split
    · exact ⟨_, rfl⟩
    · rename_i hend
      split
      · rename_i hpv
        unfold nextCode
        split
        · exact ⟨_, rfl⟩
        · rename_i hv
          obtain ⟨e, he, _⟩ := tableOk_read_valid h.table (not_not.mp hv) (h.prev hpv).1 (h.prev hpv).2
          rw [seqOf_eq_ok.mpr he]
          simp only
          split
          · unfold knownCode
            split
            · exact ⟨_, rfl⟩
            · rename_i hvc
              obtain ⟨q, hq, _⟩ := tableOk_read_valid h.table (not_not.mp hvc) hclear hend
              rw [seqOf_eq_ok.mpr hq]
              exact ⟨_, rfl⟩
          · exact ⟨_, rfl⟩
      · unfold freshCode
        split
        · exact ⟨_, rfl⟩
        · rename_i hvc
          obtain ⟨q, hq, _⟩ := tableOk_read_valid h.table (not_not.mp hvc) hclear hend
          rw [seqOf_eq_ok.mpr hq]
          exact ⟨_, rfl⟩

/-- An emission keeps the raster indices below outPos and NONE above (R91, R92). -/
theorem emit_loopOk {q : IndexSeq} {s t : State} (h : LoopOk s) (ht : emit q s = some t) : LoopOk t := by
  obtain ⟨hfit, rfl⟩ := emit_eq_some.mp ht
  refine ⟨h.table, h.width, h.prev, hfit, ?_, ?_, h.entries⟩
  · intro j hj
    simp only at hj ⊢
    by_cases hjo : j < s.rast.outPos
    · obtain ⟨k, hk⟩ := h.indices j hjo
      exact ⟨k, by rw [read_emitWrites_of_notMem _ (.inl hjo), hk]⟩
    · have hi : j - s.rast.outPos < q.toList.length := by
        rw [IndexSeq.length_toList]
        omega
      refine ⟨q.toList[j - s.rast.outPos], ?_⟩
      have := read_emitWrites s.raster (pos := s.rast.outPos) (List.getElem?_eq_getElem hi)
      rwa [show s.rast.outPos + (j - s.rast.outPos) = j by omega] at this
  · intro j hj hjp
    simp only at hj hjp ⊢
    rw [read_emitWrites_of_notMem _ (.inr hj)]
    exact h.rest j (by omega) hjp

theorem addEntry_dictOk {s : State} {q : IndexSeq} (h : s.dict.wf ∧ s.dict.within Config.dictSlots) :
    (addEntry q s).dict.wf ∧ (addEntry q s).dict.within Config.dictSlots := by
  by_cases hfull : Config.dictSlots ≤ s.ct.nextCode
  · rwa [addEntry_full q hfull]
  · rw [addEntry_eq q (Nat.not_le.mp hfull)]
    simp only [storeEntry, growWidth_dict, growWidth_nextCode]
    exact ⟨Memory.write_wf _ _ h.1, Memory.write_within _ h.2 (Nat.not_le.mp hfull)⟩

/-- What `codeStep` leaves satisfies the loop's invariant again, whether the loop goes on or has ended. -/
theorem codeStep_loopOk {c : Code} {s : State} {p : Progress} (h : LoopOk s) (hp : codeStep c s = .ok p) :
    (∀ t, p = .more t → LoopOk t ∧ DecodeFrame s t ∧ t.br.cursor = s.br.cursor ∧ t.status = s.status)
    ∧ ∀ t, p = .ended t → LoopOk t ∧ DecodeFrame s t ∧ t.br.cursor = s.br.cursor
        ∧ t.status.endReason ≠ .none ∧ t.status.endReason ≠ .readOob ∧ t.status.brOob = s.status.brOob := by
  rcases codeStep_cases hp with ⟨_, rfl⟩ | ⟨r, rfl, hr, hr'⟩ | ⟨hclear, hend, q, t, ht, hpt⟩
  · refine ⟨fun t e => ?_, fun t e => Progress.noConfusion e⟩
    cases e
    exact ⟨⟨ctClear_tableOk h.table, rfl, nofun, h.outPos, h.indices, h.rest, h.entries⟩, clearStep_frame s, rfl, rfl⟩
  · refine ⟨fun t e => Progress.noConfusion e, fun t e => ?_⟩
    cases e
    exact ⟨⟨h.table, h.width, h.prev, h.outPos, h.indices, h.rest, h.entries⟩, finish_frame s r, rfl, hr, hr', rfl⟩
  · have hl := emit_loopOk h ht
    have hf := emit_frame ht
    obtain ⟨hfit, hte⟩ := emit_eq_some.mp ht
    have hc : t.br.cursor = s.br.cursor := by rw [hte]
    have hs : t.status = s.status := by rw [hte]
    have hct : t.ct = s.ct := by rw [hte]
    have hd : t.dict = s.dict := by rw [hte]
    rcases hpt with rfl | ⟨e, k, hpv, hv, he, rfl⟩
    · refine ⟨fun u e => ?_, fun u e => Progress.noConfusion e⟩
      cases e
      refine ⟨⟨hl.table, hl.width, fun _ => ⟨?_, ?_⟩, hl.outPos, hl.indices, hl.rest, hl.entries⟩,
        hf.trans (takePrev_frame c t), hc, hs⟩
      · simpa [hct] using hclear
      · simpa [hct] using hend
    · refine ⟨fun u e => ?_, fun u e => Progress.noConfusion e⟩
      cases e
      obtain ⟨e', he', hb⟩ := tableOk_read_valid h.table hv (h.prev hpv).1 (h.prev hpv).2
      rw [he] at he'
      cases he'
      have hadd := addEntry_frame (e.snoc k) t
      have htab : TableOk (addEntry (e.snoc k) t).ct (addEntry (e.snoc k) t).dict := by
        refine addEntry_tableOk hl.table ?_
        rw [IndexSeq.len_snoc, hct]
        omega
      refine ⟨⟨htab, addEntry_nbits hl.width, fun _ => ⟨?_, ?_⟩, ?_, ?_, ?_, addEntry_dictOk hl.entries⟩,
        hf.trans (hadd.trans (takePrev_frame c _)), ?_, ?_⟩
      · rw [(takePrev_frame c _).clearCode, hadd.clearCode, hct]
        exact hclear
      · rw [(takePrev_frame c _).endCode, hadd.endCode, hct]
        exact hend
      · simpa [hadd.pixels, State.framePixels, State.frameW, State.frameH, hadd.frSize] using hl.outPos
      · simpa using hl.indices
      · simpa [State.framePixels, State.frameW, State.frameH, hadd.frSize] using hl.rest
      · simpa using hc
      · simpa using hs

/-! ### The loop -/

/-- The width of a code is 1 to 12 bits (R72, R73). -/
theorem LoopOk.width_range {s : State} (h : LoopOk s) : 1 ≤ s.br.nbits ∧ s.br.nbits ≤ 12 := by
  have hsize : 0 < Nat.size s.ct.nextCode := Nat.lt_size.mpr (Nat.le_trans (Nat.le_add_left _ _) h.table.lower)
  rw [h.width, h.table.width]
  omega

/-- A read changes the cursor, BR_DATA and BR_OOB only. -/
theorem readCode_frame {s t : State} {r : ReadResult} (h : readCode s = .ok (r, t)) : DecodeFrame s t := by
  rcases readCode_cases h with ⟨_, _, rfl⟩ | ⟨_, _, _, _, _, _, rfl⟩ <;> constructor <;> rfl

theorem readCode_loopOk {s t : State} {r : ReadResult} (hs : LoopOk s) (h : readCode s = .ok (r, t)) : LoopOk t := by
  rcases readCode_cases h with ⟨_, _, rfl⟩ | ⟨_, _, _, _, _, _, rfl⟩ <;>
    exact ⟨hs.table, hs.width, hs.prev, hs.outPos, hs.indices, hs.rest, hs.entries⟩

/-- What a turn of the loop does from a state of the invariant: it goes on with a cursor advanced by the width, or ends with
a reason, which is READ_OOB exactly when the read was out of range (R90, R93, R101). -/
theorem decodeTurn_spec {s : State} (h : LoopOk s) {p : Progress} (hp : decodeTurn s = .ok p) :
    (∃ t, p = .more t ∧ LoopOk t ∧ DecodeFrame s t ∧ s.br.cursor < 8 * s.br.len
      ∧ t.br.cursor = s.br.cursor + s.br.nbits ∧ t.status = s.status)
    ∨ ∃ t, p = .ended t ∧ LoopOk t ∧ DecodeFrame s t ∧ t.status.endReason ≠ .none
      ∧ ((s.br.cursor < 8 * s.br.len ∧ t.br.cursor = s.br.cursor + s.br.nbits ∧ t.status.endReason ≠ .readOob
          ∧ t.status.brOob = s.status.brOob)
        ∨ (8 * s.br.len ≤ s.br.cursor ∧ t.br.cursor = s.br.cursor ∧ t.status.endReason = .readOob
          ∧ t.status.brOob = true)) := by
  unfold decodeTurn at hp
  split at hp
  · cases hp
  · rename_i t hr
    cases hp
    rcases readCode_cases hr with ⟨hlen, _, rfl⟩ | ⟨_, _, _, _, _, e, _⟩
    · refine .inr ⟨_, rfl, ?_, ?_, nofun, .inr ⟨by omega, rfl, rfl, rfl⟩⟩
      · exact ⟨h.table, h.width, h.prev, h.outPos, h.indices, h.rest, h.entries⟩
      · constructor <;> rfl
    · cases e
  · rename_i c t hr
    have hl := readCode_loopOk h hr
    have hf := readCode_frame hr
    rcases readCode_cases hr with ⟨_, e, _⟩ | ⟨hlt, win, v, _, _, _, ht⟩
    · cases e
    · have hcur : t.br.cursor = s.br.cursor + s.br.nbits := by rw [ht]
      have hst : t.status = s.status := by rw [ht]
      obtain ⟨hm, he⟩ := codeStep_loopOk hl hp
      cases p with
      | more u =>
        obtain ⟨h1, h2, h3, h4⟩ := hm u rfl
        exact .inl ⟨u, rfl, h1, hf.trans h2, by omega, h3.trans hcur, h4.trans hst⟩
      | ended u =>
        obtain ⟨h1, h2, h3, h4, h5, h6⟩ := he u rfl
        exact .inr ⟨u, rfl, h1, hf.trans h2, h4, .inl ⟨by omega, h3.trans hcur, h5, h6.trans (by rw [hst])⟩⟩

/-- A turn stops only on a byte of the data never written (R50, R83). -/
theorem decodeTurn_error {s : State} (h : LoopOk s) {f : Fault} (hp : decodeTurn s = .error f) :
    ∃ i < s.br.len, s.cdata.read i = none ∧ f = .unwrittenRead .cdata i := by
  unfold decodeTurn at hp
  split at hp
  · rename_i f' hr
    cases hp
    obtain ⟨_, i, _, _, hi, hn, hf⟩ := readCode_eq_error hr
    exact ⟨i, hi, hn, hf⟩
  · cases hp
  · rename_i c t hr
    obtain ⟨p, hok⟩ := codeStep_ok (readCode_loopOk h hr) c
    rw [hok] at hp
    cases hp

/-- What the ended decode holds, relative to the state `s` it started from (R90, R102). -/
structure DecodeEnd (s t : State) : Prop where
  loop : LoopOk t
  frame : DecodeFrame s t
  reason : t.status.endReason ≠ .none
  oob : t.status.brOob = true ↔ t.status.endReason = .readOob
  cursor : t.br.cursor ≤ 8 * s.br.len + 11

/-- The loop, given a turn more than the bits left, ends, or stops on a byte of the data never written (R102). -/
theorem decodeLoop_spec (k : Nat) {s : State} (h : LoopOk s) (hk : 1 ≤ k) (hb : 8 * s.br.len + 1 ≤ s.br.cursor + k)
    (hc : s.br.cursor ≤ 8 * s.br.len + 11) (ho : s.status.brOob = false) :
    (∃ t, decodeLoop k s = .ok t ∧ DecodeEnd s t)
    ∨ ∃ i < s.br.len, s.cdata.read i = none ∧ decodeLoop k s = .error (.unwrittenRead .cdata i) := by
  induction k generalizing s with
  | zero => omega
  | succ k ih =>
    obtain ⟨hw, hw'⟩ := h.width_range
    unfold decodeLoop
    cases hp : decodeTurn s with
    | error f =>
      obtain ⟨i, hi, hn, rfl⟩ := decodeTurn_error h hp
      exact .inr ⟨i, hi, hn, rfl⟩
    | ok p =>
      rcases decodeTurn_spec h hp with ⟨t, rfl, hl, hf, hlt, hcur, hst⟩ | ⟨t, rfl, hl, hf, hr, hcase⟩
      · have hlen := hf.len
        rcases ih hl (by omega) (by omega) (by omega) (hst ▸ ho) with ⟨u, hu, he⟩ | ⟨i, hi, hn, hu⟩
        · exact .inl ⟨u, hu, he.loop, hf.trans he.frame, he.reason, he.oob, hlen ▸ he.cursor⟩
        · exact .inr ⟨i, hlen ▸ hi, hf.cdata ▸ hn, hu⟩
      · refine .inl ⟨t, rfl, hl, hf, hr, ?_, ?_⟩
        · rcases hcase with ⟨_, _, hne, hoob⟩ | ⟨_, _, he, hoob⟩
          · simp [hne, hoob, ho]
          · simp [he, hoob]
        · omega

/-- Setup makes the invariant of the loop (R92). -/
theorem decodeSetup_loopOk {s : State} (h : s.decodeParamsLegal) : LoopOk (decodeSetup s) := by
  obtain ⟨hm, hc, _, _⟩ := h
  have hpix : (decodeSetup s).framePixels = s.framePixels := rfl
  refine ⟨ctInit_tableOk hm hc, rfl, nofun, Nat.zero_le _, fun j hj => absurd hj (Nat.not_lt_zero j), ?_,
    seededDict_wf _ _, seededDict_within hm hc⟩
  intro j _ hj
  rw [hpix] at hj
  simp [decodeSetup, Memory.read_fill, hj]

/-- Every code of a decode with legal parameters: it ends, or stops on a byte of the data never written (R93, R102). -/
theorem decodeCodes_spec {s : State} (h : s.decodeParamsLegal) :
    (∃ t, decodeCodes (decodeSetup s) = .ok t ∧ DecodeEnd (decodeSetup s) t)
    ∨ ∃ i < s.inLen, s.cdata.read i = none ∧ decodeCodes (decodeSetup s) = .error (.unwrittenRead .cdata i) := by
  have hl := decodeSetup_loopOk h
  obtain ⟨hw, hw'⟩ := hl.width_range
  unfold decodeCodes
  cases hr : readCode (decodeSetup s) with
  | error f =>
    obtain ⟨_, i, _, _, hi, hn, rfl⟩ := readCode_eq_error hr
    exact .inr ⟨i, hi, hn, rfl⟩
  | ok rt =>
    obtain ⟨r, t⟩ := rt
    have hlt := readCode_loopOk hl hr
    have hf := readCode_frame hr
    rcases readCode_cases hr with ⟨_, rfl, rfl⟩ | ⟨_, _, v, _, _, rfl, ht⟩
    · refine .inl ⟨_, rfl, ?_, ?_, nofun, ?_, ?_⟩
      · exact ⟨hl.table, hl.width, hl.prev, hl.outPos, hl.indices, hl.rest, hl.entries⟩
      · constructor <;> rfl
      · simp [State.finish, State.withOob]
      · exact Nat.zero_le _
    · have hcur : t.br.cursor = (decodeSetup s).br.nbits := by rw [ht]; exact Nat.zero_add _
      have hlen := hf.len
      have ho : t.status.brOob = false := by rw [ht]; rfl
      simp only
      rcases decodeLoop_spec (decodeBound t) hlt (by simp [decodeBound]) (by simp only [decodeBound]; omega)
          (by omega) ho with ⟨u, hu, he⟩ | ⟨i, hi, hn, hu⟩
      · exact .inl ⟨u, hu, he.loop, hf.trans he.frame, he.reason, he.oob, hlen ▸ he.cursor⟩
      · exact .inr ⟨i, Nat.lt_of_lt_of_eq hi hlen, hf.cdata ▸ hn, hu⟩

/-- What every turn of the loop keeps, a decode keeps. -/
theorem decodeCodes_keeps {P : State → Prop} {s t : State} (h : decodeCodes s = .ok t)
    (hread : ∀ s r t, P s → readCode s = .ok (r, t) → P t)
    (hstep : ∀ c s t, P s → codeStep c s = .ok (.more t) ∨ codeStep c s = .ok (.ended t) → P t)
    (hfin : ∀ s r, P s → P (s.finish r)) (hs : P s) : P t := by
  have hturn (s t : State) (hs : P s) (h : decodeTurn s = .ok (.more t) ∨ decodeTurn s = .ok (.ended t)) : P t := by
    unfold decodeTurn at h
    cases hr : readCode s with
    | error f => simp [hr] at h
    | ok rt =>
      obtain ⟨_ | _, u⟩ := rt
      · exact hstep _ _ _ (hread _ _ _ hs hr) (by simpa [hr] using h)
      · simp only [hr, Except.ok.injEq, reduceCtorEq, Progress.ended.injEq, false_or] at h
        exact h ▸ hfin _ _ (hread _ _ _ hs hr)
  have hloop (k : Nat) (s t : State) (hs : P s) (h : decodeLoop k s = .ok t) : P t := by
    induction k generalizing s with
    | zero => cases h
    | succ k ih =>
      unfold decodeLoop at h
      cases hp : decodeTurn s with
      | error f => simp [hp] at h
      | ok p =>
        cases p with
        | more u => exact ih u (hturn s u hs (.inl hp)) (by simpa [hp] using h)
        | ended u =>
          simp only [hp, Except.ok.injEq] at h
          exact h ▸ hturn s u hs (.inr hp)
  unfold decodeCodes at h
  cases hr : readCode s with
  | error f => simp [hr] at h
  | ok rt =>
    obtain ⟨_ | _, u⟩ := rt
    · exact hloop _ _ _ (hread _ _ _ hs hr) (by simpa [hr] using h)
    · simp only [hr, Except.ok.injEq] at h
      exact h ▸ hfin _ _ (hread _ _ _ hs hr)

/-- A decode writes no raster entry at or above W*H (R91, R122). -/
theorem decodeCodes_raster {s t : State} (h : decodeCodes (decodeSetup s) = .ok t) :
    Memory.WritesBelow s.framePixels s.raster t.raster := by
  refine (decodeCodes_keeps
    (P := fun u => u.framePixels = s.framePixels ∧ Memory.WritesBelow s.framePixels s.raster u.raster) h
    ?_ ?_ (fun _ _ h => h) ⟨rfl, Memory.fill_writesBelow _ _ _⟩).2
  · intro u r v hu hr
    rcases readCode_cases hr with ⟨_, _, rfl⟩ | ⟨_, _, _, _, _, _, rfl⟩ <;> exact hu
  · intro c u v hu hv
    have key (p : Progress) (hp : codeStep c u = .ok p) (hpv : p = .more v ∨ p = .ended v) :
        v.framePixels = s.framePixels ∧ Memory.WritesBelow s.framePixels s.raster v.raster := by
      rcases codeStep_cases hp with ⟨_, rfl⟩ | ⟨_, rfl, _⟩ | ⟨_, _, q, w, hw, hpw⟩
      · simp only [Progress.more.injEq, reduceCtorEq, or_false] at hpv
        exact hpv ▸ hu
      · simp only [Progress.ended.injEq, reduceCtorEq, false_or] at hpv
        exact hpv ▸ hu
      · obtain ⟨hfit, rfl⟩ := emit_eq_some.mp hw
        have hem : Memory.WritesBelow s.framePixels s.raster (u.raster.writeAll (emitWrites u.rast.outPos q)) :=
          hu.2.trans ⟨_, rfl, emitWrites_within (by rw [← hu.1]; exact hfit)⟩
        rcases hpw with rfl | ⟨e, k, _, _, _, rfl⟩
        · simp only [Progress.more.injEq, reduceCtorEq, or_false] at hpv
          exact hpv ▸ ⟨hu.1, hem⟩
        · simp only [Progress.more.injEq, reduceCtorEq, or_false] at hpv
          subst hpv
          refine ⟨?_, by simpa [takePrev] using hem⟩
          rw [(takePrev_frame _ _).pixels, (addEntry_frame _ _).pixels]
          exact hu.1
    exact hv.elim (fun h => key _ h (.inl rfl)) (fun h => key _ h (.inr rfl))

/-! ### Deinterlace -/

/-- `order` names the rows of the frame and no others (R103). -/
theorem mem_interlaceOrder {h r : Nat} : r ∈ interlaceOrder h ↔ r < h := by
  simp only [interlaceOrder, List.mem_append, List.mem_filter, List.mem_range, decide_eq_true_eq]
  omega

/-- `order` names no row twice (R103). -/
theorem nodup_interlaceOrder (h : Nat) : (interlaceOrder h).Nodup := by
  simp only [interlaceOrder, List.nodup_append, List.mem_append, List.mem_filter, List.mem_range, decide_eq_true_eq]
  refine ⟨⟨⟨List.nodup_range.filter _, List.nodup_range.filter _, ?_⟩, List.nodup_range.filter _, ?_⟩,
    List.nodup_range.filter _, ?_⟩ <;>
    intro a ha b hb <;> omega

/-- `order` has an entry for each row (R103). -/
theorem length_interlaceOrder (h : Nat) : (interlaceOrder h).length = h := by
  have : (interlaceOrder h).Perm (List.range h) :=
    (List.perm_ext_iff_of_nodup (nodup_interlaceOrder h) List.nodup_range).mpr fun r => by
      rw [mem_interlaceOrder, List.mem_range]
  rw [this.length_eq, List.length_range]

/-- An entry of row `y` of a frame of `h` rows of `w` entries lies in the frame. -/
theorem row_lt {w h x y : Nat} (hx : x < w) (hy : y < h) : y * w + x < w * h := by
  have : (y + 1) * w ≤ h * w := Nat.mul_le_mul_right w hy
  rw [Nat.mul_comm w h]
  rw [Nat.add_mul] at this
  omega

/-- Entries of a frame are told apart by their row and column. -/
theorem row_inj {w x y x' y' : Nat} (hx : x < w) (hx' : x' < w) (h : y * w + x = y' * w + x') : y = y' ∧ x = x' := by
  have hw : 0 < w := by omega
  have hy : y = y' := by
    have := congrArg (· / w) h
    simpa [Nat.mul_comm _ w, Nat.mul_add_div hw, Nat.div_eq_of_lt, hx, hx'] using this
  subst hy
  exact ⟨rfl, by omega⟩

/-- The moves of a deinterlace: entry `x` of stored row `i` goes to row `order[i]` (R103). -/
theorem mem_deinterlaceMoves {w h : Nat} {mv : Nat × Nat} :
    mv ∈ deinterlaceMoves w h ↔
      ∃ i row x, (interlaceOrder h)[i]? = some row ∧ x < w ∧ mv = (row * w + x, i * w + x) := by
  simp only [deinterlaceMoves, List.mem_flatMap, List.mem_map, List.mem_range]
  constructor
  · rintro ⟨⟨row, i⟩, hi, x, hx, rfl⟩
    exact ⟨i, row, x, by simpa [List.mem_zipIdx_iff_getElem?] using hi, hx, rfl⟩
  · rintro ⟨i, row, x, hi, hx, rfl⟩
    exact ⟨(row, i), by simpa [List.mem_zipIdx_iff_getElem?] using hi, x, hx, rfl⟩

/-- Both ends of every move lie in the frame (R122). -/
theorem deinterlaceMoves_lt {w h : Nat} {mv : Nat × Nat} (hmv : mv ∈ deinterlaceMoves w h) :
    mv.1 < w * h ∧ mv.2 < w * h := by
  obtain ⟨i, row, x, hi, hx, rfl⟩ := mem_deinterlaceMoves.mp hmv
  obtain ⟨hlt, hrow⟩ := List.getElem?_eq_some_iff.mp hi
  exact ⟨row_lt hx (mem_interlaceOrder.mp (hrow ▸ List.getElem_mem hlt)),
    row_lt hx (length_interlaceOrder h ▸ hlt)⟩

/-- What a deinterlace leaves: RASTER alone is written, below W*H, row by row from what it held before (R103). -/
theorem deinterlace_spec {s t : State} (h : deinterlace s = .ok t) :
    t = { s with raster := t.raster } ∧ Memory.WritesBelow s.framePixels s.raster t.raster
    ∧ ∀ i row x, (interlaceOrder s.frameH)[i]? = some row → x < s.frameW →
        ∃ e, s.raster.read (i * s.frameW + x) = some e ∧ t.raster.read (row * s.frameW + x) = some e := by
  unfold deinterlace at h
  cases hg : gather .raster s.raster (deinterlaceMoves s.frameW s.frameH) with
  | error f => simp [hg] at h
  | ok ws =>
    simp only [hg, Except.ok.injEq] at h
    subst h
    refine ⟨rfl, ⟨ws, rfl, fun p hp => ?_⟩, ?_⟩
    · obtain ⟨mv, hmv, hd, _⟩ := gather_mem hg hp
      exact hd ▸ (deinterlaceMoves_lt hmv).1
    · intro i row x hi hx
      obtain ⟨e, he, hw⟩ := gather_mem_of_move hg (mem_deinterlaceMoves.mpr ⟨i, row, x, hi, hx, rfl⟩)
      refine ⟨e, he, Memory.read_writeAll_of_mem hw ?_⟩
      intro p hp hj
      obtain ⟨mv, hmv, hd, hv⟩ := gather_mem hg hp
      obtain ⟨i', row', x', hi', hx', rfl⟩ := mem_deinterlaceMoves.mp hmv
      obtain ⟨rfl, rfl⟩ := row_inj hx' hx (hd.symm.trans hj)
      have : i' = i := by
        obtain ⟨h1, h1'⟩ := List.getElem?_eq_some_iff.mp hi'
        obtain ⟨h2, h2'⟩ := List.getElem?_eq_some_iff.mp hi
        exact (nodup_interlaceOrder s.frameH).getElem_inj_iff.mp (h1'.trans h2'.symm)
      subst this
      simp only at he hv
      rw [he] at hv
      exact (Option.some.inj hv).symm

/-- A deinterlace of a written frame answers (R103). -/
theorem deinterlace_ok {s : State} (h : WrittenBelow s.raster s.framePixels) : ∃ t, deinterlace s = .ok t := by
  obtain ⟨ws, hws⟩ := gather_ok_of_written (sp := .raster) (m := s.raster)
    (moves := deinterlaceMoves s.frameW s.frameH) fun mv hmv => h _ (deinterlaceMoves_lt hmv).2
  exact ⟨{ s with raster := s.raster.writeAll ws }, by simp only [deinterlace, hws]⟩

/-- A deinterlace stops only on an entry of the frame never written (R50). -/
theorem deinterlace_error {s : State} {f : Fault} (h : deinterlace s = .error f) :
    ∃ j < s.framePixels, s.raster.read j = none ∧ f = .unwrittenRead .raster j := by
  unfold deinterlace at h
  cases hg : gather .raster s.raster (deinterlaceMoves s.frameW s.frameH) with
  | error f' =>
    simp only [hg, Except.error.injEq] at h
    obtain ⟨mv, hmv, hr, hf⟩ := gather_eq_error hg
    exact ⟨mv.2, (deinterlaceMoves_lt hmv).2, hr, h ▸ hf⟩
  | ok ws => simp [hg] at h

/-! ### RAST_DECODE's effects -/

/-- The raster of a decode's end is written everywhere below W*H (R91, R92). -/
theorem LoopOk.written {s : State} (h : LoopOk s) : WrittenBelow s.raster s.framePixels := by
  intro j hj
  by_cases ho : j < s.rast.outPos
  · obtain ⟨k, hk⟩ := h.indices j ho
    simp [Written, hk]
  · simp [Written, h.rest j (by omega) hj]

/-- RAST_DECODE's effects, with legal parameters: the decode ends, and its rows are put in order if the frame is
interlaced; or the model stops on a byte of the data never written (R92 to R105). -/
theorem rasterDecode_spec {s : State} (h : s.decodeParamsLegal) :
    (∃ u t, decodeCodes (decodeSetup s) = .ok u ∧ DecodeEnd (decodeSetup s) u ∧ rasterDecode s = .ok t
      ∧ t = { u with raster := t.raster }
      ∧ (s.frCtrl.interlaced = false → t = u) ∧ (s.frCtrl.interlaced = true → deinterlace u = .ok t)
      ∧ WrittenBelow t.raster s.framePixels ∧ Memory.WritesBelow s.framePixels s.raster t.raster)
    ∨ ∃ i < s.inLen, s.cdata.read i = none ∧ rasterDecode s = .error (.unwrittenRead .cdata i) := by
  rcases decodeCodes_spec h with ⟨u, hu, he⟩ | ⟨i, hi, hn, hu⟩
  · refine .inl ?_
    have hpix : u.framePixels = s.framePixels := he.frame.pixels
    have hint : u.frCtrl.interlaced = s.frCtrl.interlaced := by rw [he.frame.frCtrl]; rfl
    have hwr := he.loop.written
    by_cases hi : s.frCtrl.interlaced = true
    · obtain ⟨t, ht⟩ := deinterlace_ok hwr
      obtain ⟨heq, hb, _⟩ := deinterlace_spec ht
      refine ⟨u, t, hu, he, ?_, heq, fun hf => by simp [hi] at hf, fun _ => ht, ?_, ?_⟩
      · simp [rasterDecode, hu, hint, hi, ht]
      · intro j hj
        exact hb.written (hwr j (hpix ▸ hj))
      · exact (decodeCodes_raster hu).trans (hpix ▸ hb)
    · exact ⟨u, u, hu, he, by simp [rasterDecode, hu, hint, hi], rfl, fun _ => rfl, fun hf => absurd hf hi, hpix ▸ hwr,
        decodeCodes_raster hu⟩
  · exact .inr ⟨i, hi, hn, by simp [rasterDecode, hu]⟩

end Sys2Proof.Machine
end

