-- ==== Sys2Proof/Laws/Compositor.lean ====
section
/-! SUPPORT. Laws of the compositor: the clipped pixels, painting, and what each command leaves (R107 to R116). -/

namespace Sys2Proof.Machine

open Sys2Proof.Safety

/-! ### The clipped pixels -/

/-- The pixels that take part are those of the frame that land inside the canvas (R109). -/
theorem mem_clippedPixels {s : State} {fx fy : Nat} :
    (fx, fy) ∈ s.clippedPixels ↔ fx < s.frameW ∧ fy < s.frameH ∧ s.inCanvas fx fy := by
  simp only [State.clippedPixels, List.mem_flatMap, List.mem_range, List.mem_filter, List.mem_map, Prod.mk.injEq,
    decide_eq_true_eq]
  constructor
  · rintro ⟨y, hy, ⟨x, hx, rfl, rfl⟩, hin⟩
    exact ⟨hx, hy, hin⟩
  · rintro ⟨hx, hy, hin⟩
    exact ⟨fy, hy, ⟨fx, hx, rfl, rfl⟩, hin⟩

/-- A pixel that takes part lands below CW*CH (R122). -/
theorem canvasIndex_lt {s : State} {fx fy : Nat} (h : s.inCanvas fx fy) : s.canvasIndex fx fy < s.canvasPixels :=
  row_lt h.1 h.2

/-- Different frame pixels land on different canvas pixels. -/
theorem canvasIndex_inj {s : State} {fx fy fx' fy' : Nat} (h : s.inCanvas fx fy) (h' : s.inCanvas fx' fy')
    (e : s.canvasIndex fx fy = s.canvasIndex fx' fy') : fx = fx' ∧ fy = fy' := by
  obtain ⟨hy, hx⟩ := row_inj h.1 h'.1 e
  omega

theorem nodup_clippedPixels (s : State) : s.clippedPixels.Nodup := by
  unfold State.clippedPixels
  rw [List.nodup_flatMap]
  refine ⟨fun y _ => ((List.nodup_range.map fun a b h => (Prod.mk.inj h).1).filter _), ?_⟩
  refine List.nodup_range.imp fun {a b} hab p hp hp' => hab ?_
  simp only [List.mem_filter, List.mem_map] at hp hp'
  obtain ⟨⟨_, _, rfl⟩, _⟩ := hp
  obtain ⟨⟨_, _, h⟩, _⟩ := hp'
  exact (Prod.mk.inj h).2.symm

/-! ### Painting -/

/-- `color` stops only on a colour never written (R50, R107). -/
theorem color_error {s : State} {e : RasterEntry} {f : Fault} (h : color s e = .error f) :
    ∃ j < s.inColors, s.ctab.read j = none ∧ f = .unwrittenRead .ctab j := by
  unfold color at h
  split at h
  · cases h
  · simp only at h
    split at h
    · cases h
    · rename_i hlt
      split at h
      · cases h
      · split at h
        · rename_i hf
          cases h
          obtain ⟨hn, rfl⟩ := fetch_eq_error.mp hf
          exact ⟨_, Nat.lt_of_not_le hlt, hn, rfl⟩
        · cases h

/-- `color` answers when the active colours are written (R107). -/
theorem color_ok {s : State} (h : ColorsLoaded s) (e : RasterEntry) : ∃ src, color s e = .ok src := by
  cases hc : color s e with
  | ok src => exact ⟨src, rfl⟩
  | error f =>
    obtain ⟨j, hj, hn, _⟩ := color_error hc
    have := h j hj
    simp [Written, hn] at this

/-- What painting the listed pixels leaves: the pixels they land on are blended, the others stand (R108, R109, R113). -/
theorem paintPixels_spec {s : State} {ps : List (Nat × Nat)} {cv r : Memory Pixel} (h : paintPixels s ps cv = .ok r)
    (hin : ∀ p ∈ ps, s.inCanvas p.1 p.2) (hnd : ps.Nodup) :
    Memory.WritesBelow s.canvasPixels cv r
    ∧ (∀ p ∈ ps, ∃ e src dst, s.raster.read (p.2 * s.frameW + p.1) = some e ∧ color s e = .ok src
        ∧ cv.read (s.canvasIndex p.1 p.2) = some dst ∧ r.read (s.canvasIndex p.1 p.2) = some (blend src dst))
    ∧ ∀ j, (∀ p ∈ ps, s.canvasIndex p.1 p.2 ≠ j) → r.read j = cv.read j := by
  induction ps generalizing cv with
  | nil =>
    cases h
    exact ⟨.refl _ _, nofun, fun _ _ => rfl⟩
  | cons p ps ih =>
    obtain ⟨fx, fy⟩ := p
    obtain ⟨hnot, hnd⟩ := List.nodup_cons.mp hnd
    have hp : s.inCanvas fx fy := hin _ List.mem_cons_self
    have hps : ∀ p ∈ ps, s.inCanvas p.1 p.2 := fun p hp => hin p (List.mem_cons_of_mem _ hp)
    have hne : ∀ p ∈ ps, s.canvasIndex p.1 p.2 ≠ s.canvasIndex fx fy := by
      rintro ⟨x, y⟩ hm e
      obtain ⟨rfl, rfl⟩ := canvasIndex_inj (hps _ hm) hp e
      exact hnot hm
    unfold paintPixels at h
    cases he : fetch .raster s.raster (fy * s.frameW + fx) with
    | error f => simp [he] at h
    | ok e =>
      cases hc : color s e with
      | error f => simp [he, hc] at h
      | ok src =>
        cases hd : fetch .canvas cv (s.canvasIndex fx fy) with
        | error f => simp [he, hc, hd] at h
        | ok dst =>
          simp only [he, hc, hd] at h
          obtain ⟨hw, hpix, hrest⟩ := ih h hps hnd
          refine ⟨.trans ⟨[(s.canvasIndex fx fy, blend src dst)], rfl, ?_⟩ hw, ?_, ?_⟩
          · intro q hq
            rw [List.mem_singleton.mp hq]
            exact canvasIndex_lt hp
          · intro q hq
            rcases List.mem_cons.mp hq with rfl | hq
            · refine ⟨e, src, dst, fetch_eq_ok.mp he, hc, fetch_eq_ok.mp hd, ?_⟩
              rw [hrest _ hne, Memory.read_write_self]
            · obtain ⟨e', src', dst', h1, h2, h3, h4⟩ := hpix q hq
              rw [Memory.read_write_of_ne _ _ (hne q hq)] at h3
              exact ⟨e', src', dst', h1, h2, h3, h4⟩
          · intro j hj
            rw [hrest j fun q hq => hj q (List.mem_cons_of_mem _ hq),
              Memory.read_write_of_ne _ _ (hj (fx, fy) List.mem_cons_self).symm]

/-- Painting answers when every entry, colour and pixel it reads is there. -/
theorem paintPixels_ok {s : State} {ps : List (Nat × Nat)} {cv : Memory Pixel}
    (hsrc : ∀ p ∈ ps, ∃ e src, s.raster.read (p.2 * s.frameW + p.1) = some e ∧ color s e = .ok src)
    (hdst : ∀ p ∈ ps, Written cv (s.canvasIndex p.1 p.2)) : ∃ r, paintPixels s ps cv = .ok r := by
  induction ps generalizing cv with
  | nil => exact ⟨cv, rfl⟩
  | cons p ps ih =>
    obtain ⟨fx, fy⟩ := p
    obtain ⟨e, src, he, hc⟩ := hsrc _ List.mem_cons_self
    obtain ⟨dst, hd⟩ := Option.isSome_iff_exists.mp (hdst _ List.mem_cons_self)
    simp only at he hd
    simp only [paintPixels, fetch_eq_ok.mpr he, hc, fetch_eq_ok.mpr hd]
    refine ih (fun q hq => hsrc q (List.mem_cons_of_mem _ hq)) fun q hq => ?_
    have := hdst q (List.mem_cons_of_mem _ hq)
    simp only [Written, Memory.read_write] at this ⊢
    split
    · rfl
    · exact this

/-- Painting onto written pixels stops only on a raster entry or a colour never written (R50). -/
theorem paintPixels_error {s : State} {ps : List (Nat × Nat)} {cv : Memory Pixel} {f : Fault}
    (h : paintPixels s ps cv = .error f) (hdst : ∀ p ∈ ps, Written cv (s.canvasIndex p.1 p.2)) :
    ∃ j, (s.raster.read j = none ∧ f = .unwrittenRead .raster j ∧ ∃ p ∈ ps, j = p.2 * s.frameW + p.1)
      ∨ (s.ctab.read j = none ∧ f = .unwrittenRead .ctab j ∧ j < s.inColors) := by
  induction ps generalizing cv with
  | nil => cases h
  | cons p ps ih =>
    obtain ⟨fx, fy⟩ := p
    obtain ⟨dst, hd⟩ := Option.isSome_iff_exists.mp (hdst _ List.mem_cons_self)
    simp only at hd
    unfold paintPixels at h
    cases he : fetch .raster s.raster (fy * s.frameW + fx) with
    | error f' =>
      simp only [he, Except.error.injEq] at h
      exact ⟨_, .inl ⟨(fetch_eq_error.mp he).1, h ▸ (fetch_eq_error.mp he).2, _, List.mem_cons_self, rfl⟩⟩
    | ok e =>
      cases hc : color s e with
      | error f' =>
        simp only [he, hc, Except.error.injEq] at h
        obtain ⟨j, hj, hn, hf⟩ := color_error hc
        exact ⟨j, .inr ⟨hn, h ▸ hf, hj⟩⟩
      | ok src =>
        simp only [he, hc, fetch_eq_ok.mpr hd] at h
        obtain ⟨j, hj⟩ := ih h fun q hq => by
          have := hdst q (List.mem_cons_of_mem _ hq)
          simp only [Written, Memory.read_write] at this ⊢
          split
          · rfl
          · exact this
        refine ⟨j, hj.imp_left fun ⟨h1, h2, q, hq, h3⟩ => ⟨h1, h2, q, List.mem_cons_of_mem _ hq, h3⟩⟩

/-! ### The commands' effects -/

/-- PREV has no part in painting (R113). -/
theorem paintPixels_prev (s : State) (p : Memory Pixel) (ps : List (Nat × Nat)) (cv : Memory Pixel) :
    paintPixels { s with prev := p } ps cv = paintPixels s ps cv := by
  induction ps generalizing cv with
  | nil => rfl
  | cons q ps ih =>
    simp only [paintPixels, ih]
    rfl

/-- COMP_DRAW's effects: PREV and CANVAS alone are written, from the copy and the painting (R111, R113). -/
theorem compDraw_eq_ok {s t : State} :
    compDraw s = .ok t ↔
      ∃ p cv, copyTo .canvas s.canvas s.prev s.canvasPixels = .ok p
        ∧ paintPixels s s.clippedPixels s.canvas = .ok cv ∧ t = { s with canvas := cv, prev := p } := by
  unfold compDraw savePrev paintFrame
  cases hc : copyTo .canvas s.canvas s.prev s.canvasPixels with
  | error f => simp
  | ok p =>
    simp only [paintPixels_prev]
    have : State.clippedPixels { s with prev := p } = s.clippedPixels := rfl
    rw [this]
    cases paintPixels s s.clippedPixels s.canvas <;> simp [eq_comm]

/-- COMP_DRAW's effects stop only on an element never written: of the canvas, of the raster, or of the colour table
(R50, R113). -/
theorem compDraw_error {s : State} {f : Fault} (h : compDraw s = .error f) (hcv : WrittenBelow s.canvas s.canvasPixels) :
    ∃ j, (s.raster.read j = none ∧ f = .unwrittenRead .raster j ∧ ∃ p ∈ s.clippedPixels, j = p.2 * s.frameW + p.1)
      ∨ (s.ctab.read j = none ∧ f = .unwrittenRead .ctab j ∧ j < s.inColors) := by
  obtain ⟨p, hp⟩ := copyTo_ok (sp := .canvas) s.prev hcv
  have hpaint : paintPixels s s.clippedPixels s.canvas = .error f := by
    cases hpt : paintPixels s s.clippedPixels s.canvas with
    | ok cv => rw [compDraw_eq_ok.mpr ⟨p, cv, hp, hpt, rfl⟩] at h; cases h
    | error f' =>
      have hcl : State.clippedPixels { s with prev := p } = s.clippedPixels := rfl
      simp only [compDraw, savePrev, paintFrame, hp, paintPixels_prev, hcl, hpt, Except.error.injEq] at h
      rw [h]
  exact paintPixels_error hpaint fun q hq => hcv _ (canvasIndex_lt (mem_clippedPixels.mp hq).2.2)

/-- COMP_DRAW's effects answer on a written canvas when everything they read is written (R113). -/
theorem compDraw_ok {s : State} (hcv : WrittenBelow s.canvas s.canvasPixels) (hp : Paintable s) :
    ∃ t, compDraw s = .ok t := by
  obtain ⟨p, hc⟩ := copyTo_ok (sp := .canvas) s.prev hcv
  obtain ⟨cv, hpt⟩ := paintPixels_ok (s := s) (ps := s.clippedPixels) (cv := s.canvas)
    (fun q hq => by
      obtain ⟨h1, h2, h3⟩ := mem_clippedPixels.mp hq
      exact hp q.1 h1 q.2 h2 h3)
    fun q hq => hcv _ (canvasIndex_lt (mem_clippedPixels.mp hq).2.2)
  exact ⟨_, compDraw_eq_ok.mpr ⟨p, cv, hc, hpt, rfl⟩⟩

/-- What painting the whole frame leaves (R109, R113). -/
theorem paintFrame_spec {s : State} {cv r : Memory Pixel} (h : paintPixels s s.clippedPixels cv = .ok r) :
    Memory.WritesBelow s.canvasPixels cv r
    ∧ (∀ fx fy, fx < s.frameW → fy < s.frameH → s.inCanvas fx fy →
        ∃ e src dst, s.raster.read (fy * s.frameW + fx) = some e ∧ color s e = .ok src
          ∧ cv.read (s.canvasIndex fx fy) = some dst ∧ r.read (s.canvasIndex fx fy) = some (blend src dst))
    ∧ ∀ j, (∀ fx fy, fx < s.frameW → fy < s.frameH → s.inCanvas fx fy → s.canvasIndex fx fy ≠ j) →
        r.read j = cv.read j := by
  obtain ⟨h1, h2, h3⟩ := paintPixels_spec h (fun p hp => (mem_clippedPixels.mp hp).2.2) (nodup_clippedPixels s)
  refine ⟨h1, fun fx fy hx hy hin => h2 (fx, fy) (mem_clippedPixels.mpr ⟨hx, hy, hin⟩), fun j hj => h3 j ?_⟩
  rintro ⟨fx, fy⟩ hp
  obtain ⟨hx, hy, hin⟩ := mem_clippedPixels.mp hp
  exact hj fx fy hx hy hin

/-- COMP_SNAP's effects: SNAP alone is written (R114). -/
theorem compSnap_eq_ok {s t : State} :
    compSnap s = .ok t ↔ ∃ p, copyTo .canvas s.canvas s.snap s.canvasPixels = .ok p ∧ t = { s with snap := p } := by
  unfold compSnap
  cases copyTo .canvas s.canvas s.snap s.canvasPixels <;> simp [eq_comm]

/-- Method 2 sets the clipped rectangle to 0x00000000 and leaves the rest (R115). -/
theorem clearRectangle_spec (s : State) :
    clearRectangle s = { s with canvas := (clearRectangle s).canvas }
    ∧ Memory.WritesBelow s.canvasPixels s.canvas (clearRectangle s).canvas
    ∧ (∀ fx fy, fx < s.frameW → fy < s.frameH → s.inCanvas fx fy →
        (clearRectangle s).canvas.read (s.canvasIndex fx fy) = some 0)
    ∧ ∀ j, (∀ fx fy, fx < s.frameW → fy < s.frameH → s.inCanvas fx fy → s.canvasIndex fx fy ≠ j) →
        (clearRectangle s).canvas.read j = s.canvas.read j := by
  have hmem (p : Nat × Pixel) : p ∈ s.clippedPixels.map (fun p => (s.canvasIndex p.1 p.2, (0 : Pixel))) ↔
      ∃ fx fy, fx < s.frameW ∧ fy < s.frameH ∧ s.inCanvas fx fy ∧ p = (s.canvasIndex fx fy, 0) := by
    simp only [List.mem_map]
    constructor
    · rintro ⟨⟨fx, fy⟩, hp, rfl⟩
      obtain ⟨hx, hy, hin⟩ := mem_clippedPixels.mp hp
      exact ⟨fx, fy, hx, hy, hin, rfl⟩
    · rintro ⟨fx, fy, hx, hy, hin, rfl⟩
      exact ⟨(fx, fy), mem_clippedPixels.mpr ⟨hx, hy, hin⟩, rfl⟩
  refine ⟨rfl, ⟨_, rfl, fun p hp => ?_⟩, fun fx fy hx hy hin => ?_, fun j hj => ?_⟩
  · obtain ⟨fx, fy, _, _, hin, rfl⟩ := (hmem p).mp hp
    exact canvasIndex_lt hin
  · refine Memory.read_writeAll_of_mem ((hmem _).mpr ⟨fx, fy, hx, hy, hin, rfl⟩) fun p hp _ => ?_
    obtain ⟨_, _, _, _, _, rfl⟩ := (hmem p).mp hp
    rfl
  · refine Memory.read_writeAll_of_notMem fun p hp => ?_
    obtain ⟨fx, fy, hx, hy, hin, rfl⟩ := (hmem p).mp hp
    exact hj fx fy hx hy hin

/-- The disposal method, by FR_CTRL.DISPOSAL's value (R110). -/
theorem disposalOf_cases (d : BitVec 3) :
    (d = 2 ∧ disposalOf d = .restoreBackground) ∨ (d = 3 ∧ disposalOf d = .restorePrevious)
    ∨ (d ≠ 2 ∧ d ≠ 3 ∧ (disposalOf d = .noOp ∨ disposalOf d = .persist)) := by
  revert d
  decide

/-- COMP_DISPOSE's effects, by method: CANVAS alone is written (R115). -/
theorem compDispose_eq_ok {s t : State} :
    compDispose s = .ok t ↔
      (s.frCtrl.disposal = 2 ∧ t = clearRectangle s)
      ∨ (s.frCtrl.disposal = 3 ∧ ∃ p, copyTo .prev s.prev s.canvas s.canvasPixels = .ok p ∧ t = { s with canvas := p })
      ∨ (s.frCtrl.disposal ≠ 2 ∧ s.frCtrl.disposal ≠ 3 ∧ t = s) := by
  unfold compDispose
  rcases disposalOf_cases s.frCtrl.disposal with ⟨h, hd⟩ | ⟨h, hd⟩ | ⟨h2, h3, hd | hd⟩
  · rw [hd, h]
    simp [eq_comm]
  · rw [hd, h]
    simp only [show (3 : BitVec 3) ≠ 2 by decide, false_and, true_and, ne_eq, not_true, and_false, or_false, false_or]
    unfold restorePrev
    cases copyTo .prev s.prev s.canvas s.canvasPixels <;> simp [eq_comm]
  all_goals
    rw [hd]
    simp only [h2, h3, false_and, false_or, ne_eq, not_false_eq_true, true_and, Except.ok.injEq, eq_comm]

end Sys2Proof.Machine
end

