-- ==== Sys2Proof/Laws/Decode.lean ====
section
/-! SUPPORT. Laws of the decoder and the encoder: what each checks of a word, as arithmetic on its number. -/

namespace Sys2Proof

/-- A word's field is a field of its number. -/
theorem field_ofNat {n : Nat} (h : n < 2 ^ 32) (hi lo : Nat) :
    field (BitVec.ofNat 32 n) hi lo = n / 2 ^ lo % 2 ^ (hi + 1 - lo) := by
  rw [field, BitVec.toNat_ofNat, Nat.mod_eq_of_lt h]

/-- The command a word decodes to has its reserved bits clear. -/
theorem ifReservedClear_eq_ok {w : Word} {lo : Nat} {i j : Instr} :
    ifReservedClear w lo i = .ok j ↔ field w 31 lo = 0 ∧ i = j := by
  unfold ifReservedClear
  split <;> simp_all

/-- The number `encode` puts in the word of a well-formed command fits it. -/
theorem encode_bound {i : Instr} (h : i.wellFormed = true) : i.operandBits + i.opcode < 2 ^ 32 := by
  cases i <;> simp_all [Instr.wellFormed, Instr.operandBits, Instr.opcode] <;> omega

/-- A field of a well-formed command's word, as arithmetic on its number. -/
theorem encode_field {i : Instr} (h : i.wellFormed = true) (hi lo : Nat) :
    field (encode i) hi lo = (i.operandBits + i.opcode) / 2 ^ lo % 2 ^ (hi + 1 - lo) :=
  field_ofNat (encode_bound h) hi lo

/-- The opcode is the low byte of the encoding. -/
theorem encode_opcode {i : Instr} (h : i.wellFormed = true) : field (encode i) 7 0 = i.opcode := by
  rw [encode_field h]
  cases i <;> simp_all [Instr.wellFormed, Instr.operandBits, Instr.opcode]
  omega

/-- What a word decodes to is well formed, and its operands and opcode make up the whole word. -/
theorem decode_eq_ok {w : Word} {i : Instr} (h : decode w = .ok i) :
    i.wellFormed = true ∧ w.toNat = i.operandBits + i.opcode := by
  have hw := w.isLt
  unfold decode at h
  split at h <;>
    first
    | (rw [ifReservedClear_eq_ok] at h
       obtain ⟨h, rfl⟩ := h
       simp only [field, Nat.reducePow, Nat.reduceAdd, Nat.reduceSub, Nat.div_one] at *
       simp [Instr.wellFormed, Instr.operandBits, Instr.opcode]
       omega)
    | cases h

/-- Matching a word under a mask of its low byte and its bits from `k` up, as arithmetic on its number (R67). -/
theorem and_mask_eq_iff (w mask pattern : Word) (k : Nat) (h8k : 8 ≤ k) (hp : pattern.toNat < 2 ^ 8)
    (hm : ∀ i < 32, mask.getLsbD i = (decide (i < 8) || decide (k ≤ i))) :
    w &&& mask = pattern ↔ w.toNat % 2 ^ 8 = pattern.toNat ∧ w.toNat / 2 ^ k = 0 := by
  have hp' : ∀ i, 8 ≤ i → pattern.toNat.testBit i = false := fun i hi =>
    Nat.testBit_lt_two_pow (Nat.lt_of_lt_of_le hp (Nat.pow_le_pow_right (by decide) hi))
  have hbit : (w &&& mask = pattern) ↔
      ∀ i < 32, (w.toNat.testBit i && (decide (i < 8) || decide (k ≤ i))) = pattern.toNat.testBit i := by
    constructor
    · rintro rfl i hi
      rw [← hm i hi, ← BitVec.getLsbD, ← BitVec.getLsbD, BitVec.getLsbD_and]
    · intro h
      refine BitVec.eq_of_getLsbD_eq fun i hi => ?_
      rw [BitVec.getLsbD_and, hm i hi, BitVec.getLsbD, BitVec.getLsbD]
      exact h i hi
  rw [hbit]
  constructor
  · intro h
    constructor
    · refine Nat.eq_of_testBit_eq fun i => ?_
      rw [Nat.testBit_mod_two_pow]
      by_cases hi : i < 8
      · have := h i (by omega)
        simpa [hi] using this
      · simp [hi, hp' i (by omega)]
    · refine Nat.eq_of_testBit_eq fun i => ?_
      rw [Nat.testBit_div_two_pow, Nat.zero_testBit]
      by_cases hi : i + k < 32
      · have := h (i + k) hi
        simpa [hp' (i + k) (by omega), show ¬i + k < 8 by omega] using this
      · exact Nat.testBit_lt_two_pow (Nat.lt_of_lt_of_le w.isLt (Nat.pow_le_pow_right (by decide) (by omega)))
  · rintro ⟨h₁, h₂⟩ i hi
    by_cases h8 : i < 8
    · rw [← h₁, Nat.testBit_mod_two_pow]
      simp [h8]
    · rw [hp' i (by omega)]
      by_cases hk : k ≤ i
      · have : (w.toNat / 2 ^ k).testBit (i - k) = false := by simp [h₂]
        rw [Nat.testBit_div_two_pow, Nat.sub_add_cancel hk] at this
        simp [this]
      · simp [h8, hk]

end Sys2Proof
end

