-- ==== Sys2Proof/Laws/PerInstr.lean ====
section
/-! SUPPORT. The per-instruction family: the opcode byte of each command's word is its own opcode of R67, and the word's
number is the operand fields plus that opcode (R65). -/

namespace Sys2Proof.Laws.OpcodeByte

/-- The opcode byte of a well-formed command's word is its opcode, and no operand bit is lost (R65, R67). -/
def Statement (i : Instr) : Prop :=
  i.wellFormed = true → field (encode i) 7 0 = i.opcode ∧ (encode i).toNat = i.operandBits + i.opcode

theorem of_wellFormed (i : Instr) : Statement i := fun h =>
  ⟨encode_opcode h, by rw [encode, BitVec.toNat_ofNat, Nat.mod_eq_of_lt (encode_bound h)]⟩

theorem nop : Statement .nop := of_wellFormed _
theorem softReset : Statement .softReset := of_wellFormed _
theorem brInit : Statement .brInit := of_wellFormed _
theorem brSetnb (nb : Nat) : Statement (.brSetnb nb) := of_wellFormed _
theorem brRead : Statement .brRead := of_wellFormed _
theorem ctInit : Statement .ctInit := of_wellFormed _
theorem ctClear : Statement .ctClear := of_wellFormed _
theorem ctAdd (pre k : Nat) : Statement (.ctAdd pre k) := of_wellFormed _
theorem ctLookup (code : Nat) : Statement (.ctLookup code) := of_wellFormed _
theorem rastDecode : Statement .rastDecode := of_wellFormed _
theorem rastDeinterlace : Statement .rastDeinterlace := of_wellFormed _
theorem compReset : Statement .compReset := of_wellFormed _
theorem compDraw : Statement .compDraw := of_wellFormed _
theorem compSnap : Statement .compSnap := of_wellFormed _
theorem compDispose : Statement .compDispose := of_wellFormed _
theorem frame : Statement .frame := of_wellFormed _

end Sys2Proof.Laws.OpcodeByte
end

