-- ==== Sys2Proof/Laws/Registers.lean ====
section
/-! SUPPORT. The register file: what an RW register reads after it was written. -/

namespace Sys2Proof.Machine

/-- A size register reads back as written. -/
theorem Size.toWord_ofWord (v : Word) : (Size.ofWord v).toWord = v := by
  have h : ∀ i < 32, (Size.ofWord v).toWord.getLsbD i = v.getLsbD i := by
    intro i hi
    interval_cases i <;>
      simp only [Size.ofWord, Size.toWord, BitVec.getLsbD_setWidth, BitVec.getLsbD_append, BitVec.getLsbD_extractLsb'] <;>
      simp
  exact BitVec.eq_of_getLsbD_eq h

/-- FR_POS reads back as written. -/
theorem Pos.toWord_ofWord (v : Word) : (Pos.ofWord v).toWord = v := Size.toWord_ofWord v

/-- FR_CTRL reads back without its reserved bits. -/
theorem FrCtrl.toWord_ofWord (v : Word) : (FrCtrl.ofWord v).toWord = v &&& 0x00FFFF1F := by
  have h : ∀ i < 32, (FrCtrl.ofWord v).toWord.getLsbD i = (v &&& 0x00FFFF1F).getLsbD i := by
    intro i hi
    interval_cases i <;>
      simp only [FrCtrl.ofWord, FrCtrl.toWord, BitVec.getLsbD_setWidth, BitVec.getLsbD_append, BitVec.getLsbD_extractLsb',
        BitVec.getLsbD_ofBool] <;>
      simp
  exact BitVec.eq_of_getLsbD_eq h

/-- NUM_COLORS reads back without its reserved bits. -/
theorem numColors_readback (v : Word) : (v.extractLsb' 0 9).setWidth 32 = v &&& 0x1FF := by
  have h : ∀ i < 32, ((v.extractLsb' 0 9).setWidth 32).getLsbD i = (v &&& 0x1FF).getLsbD i := by
    intro i hi
    interval_cases i <;> simp
  exact BitVec.eq_of_getLsbD_eq h

end Sys2Proof.Machine
end

