-- ==== Sys2Proof/Laws/Step.lean ====
section
/-! SUPPORT. What a step is: the turn taken, and the ways a command ends. -/

namespace Sys2Proof.Machine

open Sys2Proof.Safety

/-- A step at the engine's turn. -/
theorem step_engine {s : State} {ts : List Turn} (h : EngineNext s ts) : step s = engineTurn { s with turns := ts } := by
  rcases h with ⟨h, rfl⟩ | h <;> simp only [step, h]
  obtain ⟨⟩ := s
  simp_all

/-- A step at the Host's turn. -/
theorem step_host {s : State} {a : HostAccess} {ts : List Turn} (h : HostNext s a ts) :
    step s = hostTurn a { s with turns := ts } := by
  simp only [HostNext] at h
  simp only [step, h]

theorem complete_eq_doneState (s : State) : s.complete = doneState s := rfl

theorem completed_eq (s : State) : completed s = .next (doneState s) := rfl

theorem raiseErr_eq (e : ErrCode) (s : State) : raiseErr e s = .next (refusedState e s) := rfl

/-- The ways a command with effects `r` ends. -/
theorem settle_eq_next {r : Except Fault State} {t : State} : settle r = .next t ↔ ∃ u, r = .ok u ∧ t = doneState u := by
  cases r <;> simp [settle, completed_eq, eq_comm]

theorem settle_eq_fault {r : Except Fault State} {f : Fault} : settle r = .fault f ↔ r = .error f := by
  cases r <;> simp [settle, completed_eq]

theorem settle_ne_refused (r : Except Fault State) (x : Refusal) : settle r ≠ .refused x := by
  cases r <;> simp [settle, completed_eq]

/-- The pending command word, at the engine's turn. -/
theorem step_pending {s : State} {w : Word} {ts : List Turn} (hp : s.pending = some w) (h : EngineNext s ts) :
    step s = runWord w { s with turns := ts } := by
  simp [step_engine h, engineTurn, hp]

end Sys2Proof.Machine
end

