-- ==== Sys2Proof/Tests/Slice0.lean ====
section
/-! SUPPORT. The model's own tests: ill-formed terms, words written out from the spec's encoding, one step of each command
with the results of 95_test_vectors.md, and a witness for the hypotheses of each statement. -/

namespace Sys2Proof.Tests

open Sys2Proof.Machine Sys2Proof.Safety

/-! ### WellFormed: one ill-formed term for each check -/

theorem test_wf_nb_range : (Instr.brSetnb 16).wellFormed = false := by decide
theorem test_wf_prefix_range : (Instr.ctAdd 4096 0).wellFormed = false := by decide
theorem test_wf_k_range : (Instr.ctAdd 0 256).wellFormed = false := by decide
theorem test_wf_code_range : (Instr.ctLookup 4096).wellFormed = false := by decide
theorem test_wf_largest : (Instr.ctAdd 4095 255).wellFormed = true := by decide

/-! ### Decode: words written bit by bit from R65 and R67 -/

theorem test_decode_nop : decode 0b00000000000000000000000000000000 = .ok .nop := by decide
theorem test_decode_softReset : decode 0b00000000000000000000000000000001 = .ok .softReset := by decide
theorem test_decode_brInit : decode 0b00000000000000000000000000010000 = .ok .brInit := by decide
theorem test_decode_brSetnb : decode 0b00000000000000000000110000010001 = .ok (.brSetnb 12) := by decide
theorem test_decode_brRead : decode 0b00000000000000000000000000010010 = .ok .brRead := by decide
theorem test_decode_ctInit : decode 0b00000000000000000000000000100000 = .ok .ctInit := by decide
theorem test_decode_ctClear : decode 0b00000000000000000000000000100001 = .ok .ctClear := by decide
theorem test_decode_ctAdd : decode 0b00000000011100000000010100100010 = .ok (.ctAdd 5 7) := by decide
theorem test_decode_ctLookup : decode 0b00000000000011111111111100100011 = .ok (.ctLookup 4095) := by decide
theorem test_decode_rastDecode : decode 0b00000000000000000000000000110000 = .ok .rastDecode := by decide
theorem test_decode_rastDeinterlace : decode 0b00000000000000000000000000110001 = .ok .rastDeinterlace := by decide
theorem test_decode_compReset : decode 0b00000000000000000000000001000000 = .ok .compReset := by decide
theorem test_decode_compDraw : decode 0b00000000000000000000000001000001 = .ok .compDraw := by decide
theorem test_decode_compSnap : decode 0b00000000000000000000000001000010 = .ok .compSnap := by decide
theorem test_decode_compDispose : decode 0b00000000000000000000000001000011 = .ok .compDispose := by decide
theorem test_decode_frame : decode 0b00000000000000000000000001010000 = .ok .frame := by decide
/-- BR-4: bits 15:12 set. -/
theorem test_decode_reserved : decode 0b00000000000000000001001100010001 = .error .reservedBitSet := by decide
/-- CT-6: CT_CLEAR with bit 8 set. -/
theorem test_decode_reserved_n : decode 0b00000000000000000000000100100001 = .error .reservedBitSet := by decide
theorem test_decode_unknown : decode 0b00000000000000000000000001010001 = .error .unknownOpcode := by decide

/-! ### Helpers -/

/-- A small machine: capacities of 16 elements. -/
def small : State := { State.reset with caps := ⟨16, 16, 16⟩ }

/-- Elements 0, 1, … of a memory. -/
def elems {α : Type} (vs : List α) : Memory α := vs.zipIdx.map fun p => (p.2, p.1)

/-- The first `n` elements of a memory. -/
def firsts {α : Type} (m : Memory α) (n : Nat) : List (Option α) := (List.range n).map m.read

/-- Does a step answer a next state? -/
def isNext : Host.Outcome State Fault Refusal → Bool
  | .next _ => true
  | _ => false

/-- The next state a step answers, `d` where it answers none. -/
def nextOr (d : State) : Host.Outcome State Fault Refusal → State
  | .next t => t
  | _ => d

theorem goes_nextOr {o : Host.Outcome State Fault Refusal} (d : State) (h : isNext o = true) : o = .next (nextOr d o) := by
  cases o with
  | next t => rfl
  | fault f => cases h
  | refused r => cases h

/-- The fault a step ends in. -/
def faultOf : Host.Outcome State Fault Refusal → Option Fault
  | .fault f => some f
  | _ => none

theorem fault_of {o : Host.Outcome State Fault Refusal} {f : Fault} (h : faultOf o = some f) : o = .fault f := by
  cases o with
  | fault g => cases h; rfl
  | next t => cases h
  | refused r => cases h

/-- The frame of V-R1, loaded on a created 2×2 canvas of 0s; RASTER holds the grid of R113's example. -/
def demo : State :=
  { small with
    canvasSize := ⟨2, 2⟩
    frSize := ⟨2, 2⟩
    frCtrl := { FrCtrl.reset with minCode := 2 }
    frDlen := 3
    numColors := 2
    compSize := ⟨2, 2⟩
    status := { Status.reset with compRdy := true }
    cdata := elems [0x44, 0x02, 0x05]
    ctab := elems [0x000000, 0xFFFFFF]
    raster := elems [0, 1, 1, 0]
    canvas := elems [0, 0, 0, 0]
    prev := elems [0, 0, 0, 0]
    snap := elems [0, 0, 0, 0] }

/-- `demo` with the Code Table initialised. -/
def demoTable : State := ctInit demo

/-- `demo` with the Bit Reader initialised and a width of 3. -/
def demoReader : State := { brInit demo with br := { (brInit demo).br with nbits := 3 } }

/-- `demo` with a command pending. -/
def demoBusy (w : Word) : State := demo.latch w

/-- `demo` with one turn to come. -/
def demoTurn (t : Turn) : State := { demo with turns := [t] }

/-! ### One step of each command -/

/-- R117's example: ERR = 3 from a refused command is cleared by `do NOP`. -/
theorem test_nop :
    (nextOr small (step ({ small with status := { Status.reset with err := .badParam } }.withFetchWord 32 0))).statusWord = 2 := by
  decide

/-- R118's example: STATUS = 0x00000002, COMP_CSIZE = 0, and SNAP keeps the image. -/
theorem test_softReset :
    (fun t : State => (t.statusWord, t.compSize, t.snap)) (nextOr small (step (demo.withFetchWord 32 0x01))) =
      (0x00000002, ⟨0, 0⟩, demo.snap) := by decide

/-- BR-1, first row. -/
theorem test_brInit :
    (fun t : State => (t.statusWord, t.br.len, t.br.cursor)) (nextOr small (step ({ demo with
      status := .reset }.withFetchWord 32 0x10))) = (0x00001002, 3, 0) := by decide

/-- BR-4: the capacity is 16 here, and FR_DLEN = 17. -/
theorem test_brInit_param :
    (nextOr small (step ({ small with frDlen := 17 }.withFetchWord 32 0x10))).statusWord = 0x00000032 := by decide

/-- BR-1: BR_SETNB 3. -/
theorem test_brSetnb : (nextOr small (step (small.withFetchWord 32 0x311))).br.nbits = 3 := by decide

/-- BR-4: BR_SETNB 13. -/
theorem test_brSetnb_param :
    (fun t : State => (t.br.nbits, t.status.err)) (nextOr small (step (demoReader.withFetchWord 32 0xD11))) =
      (3, .badParam) := by decide

/-- BR-2: a read of 12 bits across three bytes. -/
theorem test_brRead :
    (fun t : State => (t.br.data, t.br.cursor)) (nextOr small (step ({ demoReader with
      cdata := elems [0x80, 0xFF, 0x07]
      br := { cursor := 7, nbits := 12, data := 0, len := 3 } }.withFetchWord 32 0x12))) = (0xFFF, 19) := by decide

/-- BR-3: the second read takes bits 8 and 9 from the pad; the third is out of range. -/
theorem test_brRead_pad :
    (fun t : State => (t.br.data, t.br.cursor, (nextOr small (step (t.withFetchWord 32 0x12))).statusWord))
      (nextOr small (step ({ small with
        cdata := elems [0x80]
        status := { Status.reset with brRdy := true }
        br := { cursor := 7, nbits := 3, data := 0, len := 1 } }.withFetchWord 32 0x12))) =
      (1, 10, 0x0000100A) := by decide

/-- CT-1: CT_INIT with m = 2 and nc = 4. -/
theorem test_ctInit :
    (fun t : State => (t.ct.codeSize, t.ct.nextCode, t.ct.limit, t.br.nbits, readReg t .ctCfg))
      (nextOr small (step ({ demo with numColors := 4 }.withFetchWord 32 0x20))) = (3, 6, 7, 3, 0x00040002) := by decide

/-- CT-6: NUM_COLORS 3. -/
theorem test_ctInit_param :
    (nextOr small (step ({ demo with numColors := 3 }.withFetchWord 32 0x20))).status.err = .badParam := by decide

/-- R87's example: ten adds grew the table to nextCode 16, codeSize 5. -/
theorem test_ctClear :
    (fun t : State => (t.ct.nextCode, t.ct.codeSize, t.ct.limit, t.br.nbits))
      (nextOr small (step ({ demoTable with
        ct := { demoTable.ct with nextCode := 16, codeSize := 5, limit := 31 } }.withFetchWord 32 0x21))) = (6, 3, 7, 3) := by
  decide

/-- CT-4, the add that stores entry 7: the width grows first. -/
theorem test_ctAdd_grows :
    (fun t : State => (t.ct.nextCode, t.ct.codeSize, t.ct.limit, t.br.nbits, t.dict.read 7))
      (nextOr small (step ({ demoTable with
        ct := { demoTable.ct with nextCode := 7 } }.withFetchWord 32 0x00100022))) =
      (8, 4, 15, 4, some (.seq ⟨0, [1]⟩)) := by decide

/-- CT-3: a control code is no prefix. -/
theorem test_ctAdd_control :
    (nextOr small (step (demoTable.withFetchWord 32 0x00000422))).status.err = .badCode := by decide

/-- CT-1: CT_LOOKUP of END, a control entry. -/
theorem test_ctLookup_control :
    readReg (nextOr small (step (demoTable.withFetchWord 32 0x523))) .ctLookup = 0x05054001 := by decide

/-- R89's example: slot 7 holds [1, 1]. -/
theorem test_ctLookup_seq :
    readReg (nextOr small (step ({ demoTable with
      ct := { demoTable.ct with nextCode := 8 }
      dict := demoTable.dict.write 7 (.seq ⟨1, [1]⟩) }.withFetchWord 32 0x723))) .ctLookup = 0x01012002 := by decide

/-- V-R1. -/
theorem test_rastDecode :
    (fun t : State => (t.statusWord, firsts t.raster 4, t.rast.outPos, t.ct.nextCode, t.br.cursor, readReg t .rastPrev))
      (nextOr small (step ({ demo with status := .reset }.withFetchWord 32 0x30))) =
      (0x00003102, [some 0, some 1, some 1, some 0], 4, 9, 20, 0x00008000) := by decide +kernel

/-- V-R6: the data runs out. -/
theorem test_rastDecode_oob :
    (fun t : State => (t.statusWord, firsts t.raster 5, t.br.cursor))
      (nextOr small (step ({ demo with
        status := .reset
        frSize := ⟨4, 2⟩
        cdata := elems [0x44, 0x00]
        frDlen := 2 }.withFetchWord 32 0x30))) =
      (0x0000330A, [some 0, some 1, some 0, some 0, some 0x100], 16) := by decide +kernel

/-- R106's example. -/
theorem test_rastDeinterlace :
    firsts (nextOr small (step ({ small with
      frSize := ⟨1, 5⟩
      raster := elems [10, 11, 12, 13, 14] }.withFetchWord 32 0x31))).raster 5 =
      [some 10, some 13, some 12, some 14, some 11] := by decide

/-- R112's example. -/
theorem test_compReset :
    (fun t : State => (readReg t .compCsize, firsts t.canvas 5, t.status.compRdy))
      (nextOr small (step ({ small with canvasSize := ⟨2, 2⟩ }.withFetchWord 32 0x40))) =
      (0x00020002, [some 0, some 0, some 0, some 0, none], true) := by decide

/-- R113's example. -/
theorem test_compDraw :
    firsts (nextOr small (step (demo.withFetchWord 32 0x41))).canvas 4 =
      [some 0xFF000000, some 0xFFFFFFFF, some 0xFFFFFFFF, some 0xFF000000] := by decide

/-- The same frame one pixel to the right, index 1 transparent, on a canvas of 1s: column 0 and index 1 leave the canvas,
the frame's column 1 is clipped (R108, R109). -/
theorem test_compDraw_clip :
    firsts (nextOr small (step ({ demo with
      frPos := ⟨1, 0⟩
      frCtrl := { demo.frCtrl with transp := true, tidx := 1 }
      canvas := elems [1, 1, 1, 1] }.withFetchWord 32 0x41))).canvas 4 =
      [some 1, some 0xFF000000, some 1, some 1] := by decide

theorem test_compSnap :
    firsts (nextOr small (step ({ demo with canvas := elems [5, 6, 7, 8] }.withFetchWord 32 0x42))).snap 4 =
      [some 5, some 6, some 7, some 8] := by decide

/-- R115's example. -/
theorem test_compDispose_background :
    firsts (nextOr small (step ({ demo with
      frPos := ⟨1, 0⟩
      frSize := ⟨1, 2⟩
      frCtrl := { demo.frCtrl with disposal := 2 }
      canvas := elems [0xFF0000FF, 0xFF0000FF, 0xFF0000FF, 0xFF0000FF] }.withFetchWord 32 0x43))).canvas 4 =
      [some 0xFF0000FF, some 0, some 0xFF0000FF, some 0] := by decide

theorem test_compDispose_previous :
    firsts (nextOr small (step ({ demo with
      frCtrl := { demo.frCtrl with disposal := 3 }
      prev := elems [5, 6, 7, 8] }.withFetchWord 32 0x43))).canvas 4 = [some 5, some 6, some 7, some 8] := by decide

/-- R116's example: the frame of V-R1 with DISPOSAL = 0. -/
theorem test_frame :
    (fun t : State => (t.statusWord, firsts t.canvas 4, firsts t.snap 4, firsts t.prev 4))
      (nextOr small (step ({ demo with raster := [] }.withFetchWord 32 0x50))) =
      (0x00007102, [some 0xFF000000, some 0xFFFFFFFF, some 0xFFFFFFFF, some 0xFF000000],
        [some 0xFF000000, some 0xFFFFFFFF, some 0xFFFFFFFF, some 0xFF000000], [some 0, some 0, some 0, some 0]) := by
  decide +kernel

/-- FRAME on an engine just reset: no canvas. -/
theorem test_frame_notInit : (nextOr small (step (small.withFetchWord 32 0x50))).statusWord = 0x00000022 := by decide

/-- BR-4: a word with reserved bits set. -/
theorem test_illegal : (nextOr small (step (small.withFetchWord 32 0x1311))).statusWord = 0x00000012 := by decide

/-- R71: the width of an `rdm` is its space's. -/
theorem test_rdm_widths :
    hostRdm .cdata 3 = [.host (.read .cdata 3 8)] ∧ hostRdm .raster 3 = [.host (.read .raster 3 16)]
      ∧ hostRdm .ctab 3 = [.host (.read .ctab 3 32)] ∧ hostRdm .canvas 3 = [.host (.read .canvas 3 32)]
      ∧ hostRdm .prev 3 = [.host (.read .prev 3 32)] ∧ hostRdm .snap 3 = [.host (.read .snap 3 32)] := by decide

/-- Each field set to a number of its own, in the places R35, R36 and R38 give. -/
theorem test_register_words :
    (readRegAt { demo with ct := { demo.ct with minCode := 11, numColors := 256 } } 0x40,
      readRegAt { demo with ct := { demo.ct with lookup := ⟨0x1234, .control, 0x56, 0x78⟩ } } 0x44,
      readRegAt { demo with rast := { outPos := 0, prev := 0xABC, pv := true } } 0x4C) =
      (0x0100000B, 0x78565234, 0x00008ABC) := by decide

/-! ### Memory -/

theorem test_reset_memory_wf :
    State.reset.cdata.wf ∧ State.reset.ctab.wf ∧ State.reset.dict.wf ∧ State.reset.raster.wf ∧ State.reset.canvas.wf
      ∧ State.reset.prev.wf ∧ State.reset.snap.wf := by decide

/-! ### Witnesses: each meets all hypotheses of the statement it names; several clauses have a witness each -/

theorem writtenBelow_of {α : Type} {m : Memory α} {n : Nat} (h : (List.range n).all (fun i => (m.read i).isSome) = true) :
    WrittenBelow m n := fun i hi => List.all_eq_true.mp h i (List.mem_range.mpr hi)

theorem wit_DecodeOfEncodeIsTheCommand : (Instr.ctAdd 4095 255).wellFormed = true := by decide

theorem wit_OfferedWordRunsNext : (Instr.brSetnb 15).wellFormed = true := by decide

theorem wit_EncodeOfDecodeIsTheWord : decode 0x0FFFFF22 = .ok (.ctAdd 4095 255) := by decide

theorem wit_OpcodeRowsSelectTheDecodedCommand :
    (⟨"CT_ADD", 0x00000022, 0xF00000FF⟩ : OpcodeRow) ∈ opcodeRows
      ∧ (0x0FFFFF22 : Word) &&& 0xF00000FF = 0x00000022 := by decide

theorem wit_IllegalWordIsRefused :
    (∀ r ∈ opcodeRows, (0x00001311 : Word) &&& r.mask ≠ r.pattern)
      ∧ (demoBusy 0x00001311).pending = some 0x00001311 ∧ EngineNext (demoBusy 0x00001311) [] :=
  ⟨by decide, rfl, .inl ⟨rfl, rfl⟩⟩

theorem wit_StepRunsTheDecodedCommand :
    (demoBusy 0x50).pending = some 0x50 ∧ decode 0x50 = .ok .frame ∧ EngineNext (demoBusy 0x50) [] :=
  ⟨rfl, by decide, .inl ⟨rfl, rfl⟩⟩

/-- `demo` with a Host that does FRAME, polling twice before the engine steps. -/
def demoDo : State := { demo with turns := hostDo .frame 2 }

theorem wit_DoRunsOneCommandToCompletion :
    let issued : State := { demoDo with
      turns := hostRd .status
      pending := some (encode .frame)
      status := { demoDo.status with done := false, err := .none, ovr := false } }
    let x : State := { issued with hostReads := List.replicate 2 issued.statusWord ++ demoDo.hostReads }
    demoDo.busy = false ∧ Instr.frame.wellFormed = true ∧ demoDo.turns = hostDo .frame 2 ++ []
      ∧ exec .frame x = .next (nextOr demo (exec .frame x)) :=
  ⟨rfl, rfl, rfl, goes_nextOr _ (by decide +kernel)⟩

theorem wit_IdleEngineChangesNothing : (demoTurn .engine).busy = false ∧ EngineNext (demoTurn .engine) [] :=
  ⟨rfl, .inr rfl⟩

theorem wit_EveryCommandCompletes : exec .frame demo = .next (nextOr demo (exec .frame demo)) :=
  goes_nextOr _ (by decide +kernel)

theorem wit_CmdWriteIssuesTheCommand :
    (demoTurn (.host (.write .reg 0x04 32 0x50))).busy = false
      ∧ HostNext (demoTurn (.host (.write .reg 0x04 32 0x50))) (.write .reg 0x04 32 0x50) [] := ⟨rfl, rfl⟩

/-- The busy machine with the Host's access `a` next. -/
def busyTurn (a : HostAccess) : State := { demoBusy 0x50 with turns := [.host a] }

theorem wit_CmdWriteWhileBusySetsOvr :
    (busyTurn (.write .reg 0x04 32 0x01)).busy = true
      ∧ HostNext (busyTurn (.write .reg 0x04 32 0x01)) (.write .reg 0x04 32 0x01) [] := ⟨rfl, rfl⟩

theorem wit_BusyHostMayOnlyPollAndWriteCmd :
    (busyTurn (.read .reg 0x08 32)).busy = true
      ∧ HostNext (busyTurn (.read .reg 0x08 32)) (.read .reg 0x08 32) []
      ∧ HostNext (busyTurn (.read .reg 0x00 32)) (.read .reg 0x00 32) []
      ∧ (HostAccess.read .reg 0x00 32 ≠ .read .reg 0x08 32 ∧ ∀ v, HostAccess.read .reg 0x00 32 ≠ .write .reg 0x04 32 v) :=
  ⟨rfl, rfl, rfl, by decide, fun _ => nofun⟩

/-- The idle machine with the Host's access `a` next. -/
def idleTurn (a : HostAccess) : State := demoTurn (.host a)

/-- The two sides of CDATA's capacity, and DICT. -/
theorem wit_InadmissibleHostAccessIsNoMove :
    (idleTurn (.read .cdata 15 8)).busy = false ∧ HostNext (idleTurn (.read .cdata 15 8)) (.read .cdata 15 8) []
      ∧ HostMayAccess demo .cdata 15 8 ∧ ¬HostMayAccess demo .cdata 16 8 ∧ ¬HostMayAccess demo .dict 0 32
      ∧ HostMayAccess demo .reg 0xFC 32 ∧ ¬HostMayAccess demo .reg 0x02 32 := by
  refine ⟨rfl, rfl, ?_, ?_, ?_, ?_, ?_⟩ <;> simp [HostMayAccess, demo, small]

theorem wit_HostWriteStoresOneElement :
    (idleTurn (.write .cdata 15 8 0xFF)).busy = false
      ∧ HostNext (idleTurn (.write .cdata 15 8 0xFF)) (.write .cdata 15 8 0xFF) [] ∧ 15 < demo.caps.cdataMax
      ∧ HostNext (idleTurn (.write .ctab 255 32 0xFF)) (.write .ctab 255 32 0xFF) [] ∧ 255 < 256
      ∧ HostNext (idleTurn (.write .raster 15 16 0xFF)) (.write .raster 15 16 0xFF) [] ∧ 15 < demo.caps.rasterMax
      ∧ HostNext (idleTurn (.write .canvas 15 32 0xFF)) (.write .canvas 15 32 0xFF) [] ∧ 15 < demo.caps.canvasMax
      ∧ HostNext (idleTurn (.write .prev 15 32 0xFF)) (.write .prev 15 32 0xFF) []
      ∧ HostNext (idleTurn (.write .snap 15 32 0xFF)) (.write .snap 15 32 0xFF) [] := by
  refine ⟨rfl, rfl, ?_, rfl, ?_, rfl, ?_, rfl, ?_, rfl, rfl⟩ <;> decide

/-- A written element and an unwritten one of each space. -/
theorem wit_HostReadReturnsTheElement :
    (idleTurn (.read .cdata 2 8)).busy = false ∧ HostNext (idleTurn (.read .cdata 2 8)) (.read .cdata 2 8) []
      ∧ demo.cdata.read 2 = some 0x05 ∧ demo.cdata.read 15 = none ∧ 15 < demo.caps.cdataMax
      ∧ demo.ctab.read 1 = some 0xFFFFFF ∧ demo.ctab.read 255 = none
      ∧ demo.raster.read 3 = some 0 ∧ demo.raster.read 15 = none ∧ 15 < demo.caps.rasterMax
      ∧ demo.canvas.read 3 = some 0 ∧ demo.canvas.read 15 = none ∧ 15 < demo.caps.canvasMax
      ∧ demo.prev.read 3 = some 0 ∧ demo.prev.read 15 = none
      ∧ demo.snap.read 3 = some 0 ∧ demo.snap.read 15 = none := by
  refine ⟨rfl, rfl, ?_⟩
  decide

/-- The read of REG at its last offset, and at a register. -/
theorem wit_HostReadReturnsTheElement_reg :
    (idleTurn (.read .reg 0xFC 32)).busy = false ∧ HostNext (idleTurn (.read .reg 0xFC 32)) (.read .reg 0xFC 32) []
      ∧ (0xFC % 4 = 0 ∧ 0xFC ≤ 0xFC)
      ∧ HostNext (idleTurn (.read .reg 0x00 32)) (.read .reg 0x00 32) [] ∧ (0x00 % 4 = 0 ∧ 0x00 ≤ 0xFC) :=
  ⟨rfl, rfl, by decide, rfl, by decide⟩

/-- The first and the last reserved offset. -/
theorem wit_StatusWordShowsItsFields : (0x54 ≤ 0x54 ∧ 0x54 ≤ 0xFC) ∧ (0x54 ≤ 0xFC ∧ 0xFC ≤ 0xFC) := by decide

/-- An RW register, the last offset, and a read-only one. -/
theorem wit_HostWriteReachesOnlyRwRegisters :
    (idleTurn (.write .reg 0x18 32 0xFFFFFFFF)).busy = false
      ∧ HostNext (idleTurn (.write .reg 0x18 32 0xFFFFFFFF)) (.write .reg 0x18 32 0xFFFFFFFF) []
      ∧ HostNext (idleTurn (.write .reg 0xFC 32 1)) (.write .reg 0xFC 32 1) []
      ∧ (0xFC % 4 = 0 ∧ 0xFC ≤ 0xFC ∧ 0xFC ∉ [0x04, 0x0C, 0x10, 0x14, 0x18, 0x1C, 0x20])
      ∧ (0x08 % 4 = 0 ∧ 0x08 ≤ 0xFC ∧ 0x08 ∉ [0x04, 0x0C, 0x10, 0x14, 0x18, 0x1C, 0x20]) :=
  ⟨rfl, rfl, rfl, by decide, by decide⟩

theorem wit_RwRegisterReadsBackWithoutReservedBits :
    ({ demo with turns := [.host (.write .reg 0x18 32 0xFFFFFFFF), .host (.read .reg 0x18 32)] } : State).busy = false
      ∧ (0x18, 0x00FFFF1F) ∈ [(0x0C, 0xFFFFFFFF), (0x10, 0xFFFFFFFF), (0x14, 0xFFFFFFFF), (0x18, 0x00FFFF1F),
        (0x1C, 0xFFFFFFFF), (0x20, 0x000001FF)] := ⟨rfl, by decide⟩

theorem wit_ResetIsTheStateOfHardwareReset : 0xFC % 4 = 0 ∧ 0xFC ≤ 0xFC := by decide

/-- A refusal of each kind, and a command that is not refused. -/
theorem wit_RefusalIsPrecise :
    refusalOf .frame small = some .notInit ∧ refusalOf (.brSetnb 13) small = some .badParam
      ∧ refusalOf (.ctAdd 4 0) demoTable = some .badCode
      ∧ refusalOf .frame demo = none ∧ exec .frame demo = .next (nextOr demo (exec .frame demo)) :=
  ⟨by decide, by decide, by decide, by decide, wit_EveryCommandCompletes⟩

theorem wit_NopOnlyCompletes :
    ({ demo with turns := hostWr .cmd (encode .nop) ++ [.engine] } : State).busy = false := rfl

/-- FR_DLEN at the capacity and one above it. -/
theorem wit_BrInitLatchesTheLength :
    ({ demo with frDlen := 16 } : State).frDlen.toNat ≤ demo.caps.cdataMax
      ∧ ({ demo with frDlen := 17 } : State).frDlen.toNat > demo.caps.cdataMax := by decide

theorem wit_BrSetnbSetsTheWidth :
    (1 < 2 ^ 4 ∧ (1 ≤ 1 ∧ 1 ≤ 12)) ∧ (12 < 2 ^ 4 ∧ (1 ≤ 12 ∧ 12 ≤ 12)) ∧ (0 < 2 ^ 4 ∧ (0 = 0 ∨ 0 > 12))
      ∧ (15 < 2 ^ 4 ∧ (15 = 0 ∨ 15 > 12)) := by decide

/-- A cursor in the last data byte: the window takes both pad bytes. -/
theorem wit_BrReadReturnsTheNextStreamBits :
    let s : State := { demoReader with br := { demoReader.br with cursor := 23, nbits := 12 } }
    s.status.brRdy = true ∧ 1 ≤ s.br.nbits ∧ s.br.nbits ≤ 12 ∧ s.br.cursor / 8 < s.br.len ∧ WindowWritten s := by
  refine ⟨rfl, by decide, by decide, by decide, fun i h1 _ h3 => ?_⟩
  have e : i = 2 := by
    change 2 ≤ i at h1
    change i < 3 at h3
    omega
  subst e
  rfl

/-- The first cursor past the data. -/
theorem wit_BrReadOutOfRangeSetsOob :
    let s : State := { demoReader with br := { demoReader.br with cursor := 24 } }
    s.status.brRdy = true ∧ s.br.nbits ≠ 0 ∧ s.br.cursor / 8 ≥ s.br.len := by decide

/-- The last byte below BL is not written. -/
theorem wit_BrReadStopsOnAnUnwrittenByte :
    let s : State := { demoReader with cdata := elems [0x44, 0x02] }
    s.status.brRdy = true ∧ s.br.nbits ≠ 0 ∧ s.br.cursor / 8 < s.br.len ∧ ¬WindowWritten s := by
  refine ⟨rfl, by decide, by decide, fun h => ?_⟩
  have := h 2 (by decide) (by decide) (by decide)
  cases this

theorem wit_BytesPastTheDataHaveNoEffect :
    (∀ i < demo.frDlen.toNat, (demo.cdata.write 3 0xFF).read i = demo.cdata.read i)
      ∧ exec .rastDecode demo = .next (nextOr demo (exec .rastDecode demo))
      ∧ (∀ i < demoReader.br.len, (demo.cdata.write 3 0xFF).read i = demoReader.cdata.read i)
      ∧ exec .brRead demoReader = .next (nextOr demo (exec .brRead demoReader)) :=
  ⟨by decide, goes_nextOr _ (by decide +kernel), by decide, goes_nextOr _ (by decide)⟩

/-- m at both ends of its range, and one below. -/
theorem wit_CtInitSeedsTheTable :
    (2 ≤ 2 ∧ 2 ≤ 11 ∧ 2 ∈ [2, 4, 8, 16, 32, 64, 128, 256]) ∧ (2 ≤ 11 ∧ 11 ≤ 11 ∧ 256 ∈ [2, 4, 8, 16, 32, 64, 128, 256])
      ∧ ¬(2 ≤ 1 ∧ 1 ≤ 11 ∧ 2 ∈ [2, 4, 8, 16, 32, 64, 128, 256]) := by decide

theorem wit_CtClearRewindsTheTable : demoTable.status.ctRdy = true ∧ demo.status.ctRdy = false := by decide

/-- A prefix that is valid, one that is a control code, one that is not valid; a table with room and a full one. -/
theorem wit_CtAddStoresOneEntry :
    (4095 < 2 ^ 12 ∧ 255 < 2 ^ 8) ∧ demoTable.status.ctRdy = true
      ∧ demoTable.ct.valid 1 ∧ demoTable.dict.read 1 = some (.seq ⟨1, []⟩) ∧ demoTable.ct.nextCode < 4096
      ∧ demoTable.dict.read 4 = some .control ∧ ¬demoTable.ct.valid 6
      ∧ ({ demoTable with ct := { demoTable.ct with nextCode := 4096 } } : State).ct.valid 1
      ∧ demo.status.ctRdy = false := by decide

theorem wit_CtLookupShowsOneSlot :
    demoTable.status.ctRdy = true ∧ demo.status.ctRdy = false
      ∧ (0 < 2 ^ 12 ∧ demoTable.ct.valid 0 ∧ demoTable.dict.read 0 = some (.seq ⟨0, []⟩))
      ∧ (5 < 2 ^ 12 ∧ demoTable.ct.valid 5 ∧ demoTable.dict.read 5 = some .control)
      ∧ (4095 < 2 ^ 12 ∧ ¬demoTable.ct.valid 4095) := by decide

/-- DICT changed at a slot that is not valid. -/
theorem wit_StaleSlotsAreNeverObserved :
    (∀ c, demoTable.ct.valid c → (demoTable.dict.write 6 .control).read c = demoTable.dict.read c)
      ∧ exec (.ctLookup 1) demoTable = .next (nextOr demo (exec (.ctLookup 1) demoTable))
      ∧ exec (.ctAdd 1 1) demoTable = .next (nextOr demo (exec (.ctAdd 1 1) demoTable))
      ∧ demo.decodeParamsLegal := by
  refine ⟨fun c hc => ?_, goes_nextOr _ (by decide), goes_nextOr _ (by decide), by decide⟩
  have h6 : c < 6 := hc.1
  have : ∀ c < 6, (demoTable.dict.write 6 .control).read c = demoTable.dict.read c := by decide
  exact this c h6

theorem wit_RastDecodeAlwaysEnds : demo.decodeParamsLegal ∧ DataLoaded demo :=
  ⟨by decide, writtenBelow_of (by decide)⟩

/-- The decode of V-R6 leaves entries below and above outPos. -/
theorem wit_DecodedRasterIsIndicesThenNone :
    demo.decodeParamsLegal ∧ demo.frCtrl.interlaced = false
      ∧ exec .rastDecode demo = .next (nextOr demo (exec .rastDecode demo)) :=
  ⟨by decide, rfl, goes_nextOr _ (by decide +kernel)⟩

/-- `demo`, with its frame interlaced. -/
def demoInterlaced : State := { demo with frCtrl := { demo.frCtrl with interlaced := true } }

theorem wit_InterlacedDecodeIsDecodeThenDeinterlace :
    let t := nextOr demo (exec .rastDecode demo)
    demoInterlaced.decodeParamsLegal ∧ demoInterlaced.frCtrl.interlaced = true
      ∧ exec .rastDecode { demoInterlaced with frCtrl := { demoInterlaced.frCtrl with interlaced := false } } = .next t
      ∧ exec .rastDeinterlace t = .next (nextOr demo (exec .rastDeinterlace t)) :=
  ⟨by decide, rfl, goes_nextOr _ (by decide +kernel), goes_nextOr _ (by decide +kernel)⟩

/-- Empty data, and a first code. -/
theorem wit_DecodeDiscardsTheLeadingCode :
    ({ demo with frDlen := 0 } : State).frDlen = 0
      ∧ readCode (decodeSetup demo) =
        .ok (.code 4, { decodeSetup demo with br := { (decodeSetup demo).br with cursor := 3, data := 4 } }) :=
  ⟨rfl, by decide +kernel⟩

/-- A read out of range, a CLEAR (CDATA begins with code 4), and an END (code 5 first). -/
theorem wit_DecodeOobClearAndEnd :
    let s := decodeSetup demo
    let u := decodeSetup { demo with cdata := elems [0x05, 0x02, 0x05] }
    (24 / 8 ≥ s.br.len)
      ∧ readCode s = .ok (.code 4, { s with br := { s.br with cursor := 3, data := 4 } })
      ∧ (4 : Code).toNat = 2 ^ s.ct.minCode
      ∧ readCode u = .ok (.code 5, { u with br := { u.br with cursor := 3, data := 5 } })
      ∧ (5 : Code).toNat = 2 ^ u.ct.minCode + 1 := by
  refine ⟨by decide, ?_, by decide, ?_, by decide⟩ <;> decide +kernel

/-- FRESH: a gap code, a literal that fits, and one that does not. -/
theorem wit_DecodeFreshCode :
    let s := decodeSetup demo
    s.rast.pv = false ∧ ((3 : Code).toNat ≠ s.ct.clearCode ∧ (3 : Code).toNat ≠ s.ct.endCode ∧ ¬s.ct.valid 3)
      ∧ ((1 : Code).toNat ≠ s.ct.clearCode ∧ (1 : Code).toNat ≠ s.ct.endCode ∧ s.ct.valid 1
        ∧ s.dict.read 1 = some (.seq ⟨1, []⟩))
      ∧ s.rast.outPos + 1 ≤ s.framePixels
      ∧ ({ s with rast := { s.rast with outPos := 4 } } : State).rast.outPos + 1 > s.framePixels := by decide

/-- NEXT: a known code, a code not yet in the table, a gap code, a `prev` that is not valid, a full table, and one at its
limit. -/
theorem wit_DecodeNextCode :
    let s := takePrev 1 (decodeSetup demo)
    s.rast.pv = true ∧ s.ct.valid s.rast.prev.toNat ∧ s.dict.read s.rast.prev.toNat = some (.seq ⟨1, []⟩)
      ∧ ((0 : Code).toNat ≠ s.ct.clearCode ∧ (0 : Code).toNat ≠ s.ct.endCode ∧ s.ct.valid 0
        ∧ s.dict.read 0 = some (.seq ⟨0, []⟩))
      ∧ ((6 : Code).toNat ≠ s.ct.clearCode ∧ (6 : Code).toNat ≠ s.ct.endCode ∧ s.ct.nextCode ≤ 6
        ∧ (⟨1, [1]⟩ : IndexSeq).toList = [1] ++ [1])
      ∧ (3 < s.ct.nextCode ∧ ¬s.ct.valid 3)
      ∧ s.rast.outPos + 2 ≤ s.framePixels ∧ s.ct.nextCode < 4096
      ∧ (let f : State := { s with ct := { s.ct with nextCode := 4096 } }
        f.ct.nextCode ≥ 4096 ∧ f.ct.valid f.rast.prev.toNat ∧ f.ct.valid 0)
      ∧ (let g : State := { s with ct := { s.ct with nextCode := 7 } }
        g.ct.nextCode < 4096 ∧ (g.ct.nextCode = g.ct.limit ∧ g.ct.codeSize < 12) ∧ g.ct.valid 0)
      ∧ ¬(takePrev 7 s).ct.valid (takePrev 7 s).rast.prev.toNat
      ∧ ({ s with rast := { s.rast with outPos := 3 } } : State).rast.outPos + 2 > s.framePixels := by decide

/-- A turn of the loop that goes on. -/
theorem wit_DecodeReadsAtTheCurrentWidth :
    let s := decodeSetup demo
    s.br.nbits = s.ct.codeSize
      ∧ decodeTurn s = .ok (.more (clearStep { s with br := { s.br with cursor := 3, data := 4 } })) := by
  refine ⟨by decide, ?_⟩
  decide +kernel

theorem wit_InterlaceOrderIsAPermutationOfTheRows :
    1 < (9 + 7) / 8 ∧ 0 < (9 + 3) / 8 ∧ 1 < (9 + 1) / 4 ∧ 3 < 9 / 2 := by decide

/-- A frame too large, a written frame, and a frame with an unwritten entry. -/
theorem wit_DeinterlaceMovesEveryRow :
    ({ demo with frSize := ⟨17, 1⟩ } : State).framePixels > demo.caps.rasterMax
      ∧ demo.framePixels ≤ demo.caps.rasterMax ∧ WrittenBelow demo.raster demo.framePixels
      ∧ (interlaceOrder demo.frameH)[1]? = some 1 ∧ 1 < demo.frameW
      ∧ ¬WrittenBelow small.raster demo.framePixels :=
  ⟨by decide, by decide, writtenBelow_of (by decide), by decide, by decide, fun h => by cases h 0 (by decide)⟩

theorem wit_CompResetClearsTheCanvas :
    demo.canvasSize.w.toNat * demo.canvasSize.h.toNat ≤ demo.caps.canvasMax ∧ 17 * 1 > demo.caps.canvasMax := by decide

/-- NONE; an index at nc; the transparent index; an index with a colour, and one without. -/
theorem wit_ColorMapsEveryEntry :
    (0x100 : RasterEntry).toNat ≥ 2 ^ 8 ∧ ((2 : RasterEntry).toNat < 2 ^ 8 ∧ 2 ≥ demo.numColors.toNat)
      ∧ (1 < demo.numColors.toNat
        ∧ ({ demo with frCtrl := { demo.frCtrl with transp := true, tidx := 1 } } : State).frCtrl.transp = true
        ∧ ¬(demo.frCtrl.transp = true ∧ 1 = demo.frCtrl.tidx.toNat) ∧ demo.ctab.read 1 = some 0xFFFFFF
        ∧ small.ctab.read 1 = none) := by decide

theorem wit_BlendFollowsTheSourceAlpha :
    ((Paint.opaque 0xFF0000).pixel = some 0xFFFF0000 ∧ (0xFFFF0000 : Pixel).extractLsb' 24 8 = 0xFF)
      ∧ (Paint.transparent.pixel = some 0 ∧ (0 : Pixel).extractLsb' 24 8 = 0x00) := by decide

theorem paintable_demo : Paintable demo := by
  intro fx hx fy hy _
  change fx < 2 at hx
  change fy < 2 at hy
  interval_cases fx <;> interval_cases fy <;> exact ⟨_, _, rfl, rfl⟩

theorem wit_CompDrawPaintsTheClippedFrame :
    small.status.compRdy = false ∧ demo.status.compRdy = true
      ∧ ¬(({ demo with numColors := 3 } : State).numColors.toNat ∈ [2, 4, 8, 16, 32, 64, 128, 256] ∧ demo.frameFits)
      ∧ demo.numColors.toNat ∈ [2, 4, 8, 16, 32, 64, 128, 256] ∧ demo.frameFits
      ∧ WrittenBelow demo.canvas demo.canvasPixels ∧ Paintable demo
      ∧ (1 < demo.frameW ∧ 1 < demo.frameH ∧ demo.frameX + 1 < demo.canvasW ∧ demo.frameY + 1 < demo.canvasH) :=
  ⟨by decide, by decide, by decide, by decide, by decide, writtenBelow_of (by decide), paintable_demo, by decide⟩

/-- The raster is not written; and a colour is not. -/
theorem wit_CompDrawStopsOnAnUnwrittenElement :
    demo.status.compRdy = true ∧ legalColors demo.inColors ∧ demo.frameFits ∧ WrittenBelow demo.canvas demo.canvasPixels
      ∧ ¬Paintable { demo with raster := [] } ∧ ¬Paintable { demo with ctab := [] } := by
  refine ⟨by decide, by decide, by decide, writtenBelow_of (by decide), fun h => ?_, fun h => ?_⟩
  · obtain ⟨e, _, he, _⟩ := h 0 (by decide) 0 (by decide) (by decide)
    cases he
  · obtain ⟨e, _, he, hs⟩ := h 0 (by decide) 0 (by decide) (by decide)
    cases he
    cases hs

theorem wit_CompSnapCopiesTheCanvas :
    small.status.compRdy = false ∧ demo.status.compRdy = true ∧ WrittenBelow demo.canvas demo.canvasPixels :=
  ⟨by decide, by decide, writtenBelow_of (by decide)⟩

/-- Every method that does nothing, and the two that write. -/
theorem wit_CompDisposeAppliesTheMethod :
    demo.status.compRdy = true ∧ (∀ d ∈ [(0 : BitVec 3), 1, 4, 7], d ≠ 2 ∧ d ≠ 3)
      ∧ ({ demo with frCtrl := { demo.frCtrl with disposal := 2 } } : State).frCtrl.disposal = 2
      ∧ ({ demo with frCtrl := { demo.frCtrl with disposal := 3 } } : State).frCtrl.disposal = 3
      ∧ WrittenBelow demo.prev demo.canvasPixels :=
  ⟨by decide, by decide, rfl, rfl, writtenBelow_of (by decide)⟩

/-- `demo`, with disposal method 3. -/
def demoPrevious : State := { demo with frCtrl := { demo.frCtrl with disposal := 3 } }

theorem wit_RestorePreviousUndoesTheDraw :
    let t := nextOr demo (exec .compDraw demoPrevious)
    demoPrevious.frCtrl.disposal = 3 ∧ demoPrevious.status.compRdy = true ∧ legalColors demoPrevious.inColors
      ∧ demoPrevious.frameFits ∧ exec .compDraw demoPrevious = .next t
      ∧ exec .compDispose t = .next (nextOr demo (exec .compDispose t)) :=
  ⟨by decide, by decide, by decide, by decide, goes_nextOr _ (by decide +kernel), goes_nextOr _ (by decide +kernel)⟩

theorem canvasOk_demo : CanvasOk demo :=
  ⟨by decide, writtenBelow_of (by decide), writtenBelow_of (by decide), writtenBelow_of (by decide)⟩

theorem wit_FrameCompletes :
    demo.status.compRdy = true ∧ demo.decodeParamsLegal ∧ CanvasOk demo ∧ DataLoaded demo ∧ ColorsLoaded demo
      ∧ (demo.frCtrl.disposal ≠ 2 ∧ demo.frCtrl.disposal ≠ 3) ∧ demoPrevious.frCtrl.disposal = 3 :=
  ⟨by decide, by decide, canvasOk_demo, writtenBelow_of (by decide), writtenBelow_of (by decide), by decide, rfl⟩

theorem wit_FrameIsTheFourCommandsInSequence :
    demo.status.compRdy = true ∧ demo.decodeParamsLegal
      ∧ exec .frame demo = .next (nextOr demo (exec .frame demo)) :=
  ⟨by decide, by decide, wit_EveryCommandCompletes⟩

theorem wit_CommandsWriteOnlyTheirMemories :
    exec .compDraw demo = .next (nextOr demo (exec .compDraw demo))
      ∧ exec .ctInit demo = .next (nextOr demo (exec .ctInit demo))
      ∧ exec .compSnap demo = .next (nextOr demo (exec .compSnap demo)) :=
  ⟨goes_nextOr _ (by decide +kernel), goes_nextOr _ (by decide +kernel), goes_nextOr _ (by decide +kernel)⟩

theorem wit_CommandsWriteOnlyTheirRegisters :
    Instr.ctInit ≠ .softReset ∧ exec .ctInit demo = .next (nextOr demo (exec .ctInit demo))
      ∧ Instr.brSetnb 3 ≠ .softReset ∧ exec (.brSetnb 3) demo = .next (nextOr demo (exec (.brSetnb 3) demo)) :=
  ⟨nofun, goes_nextOr _ (by decide +kernel), nofun, goes_nextOr _ (by decide)⟩

theorem memoryOk_of {α : Type} {m : Memory α} {cap : Nat} (h : m.wf) (h' : m.all (fun p => decide (p.1 < cap)) = true) :
    MemoryOk m cap := ⟨h, fun p hp => by simpa using List.all_eq_true.mp h' p hp⟩

theorem inv_demoBusy : Inv (demoBusy 0x50) where
  memories := ⟨memoryOk_of (by decide) (by decide), memoryOk_of (by decide) (by decide), memoryOk_of (by decide) (by decide),
    memoryOk_of (by decide) (by decide), memoryOk_of (by decide) (by decide), memoryOk_of (by decide) (by decide),
    memoryOk_of (by decide) (by decide)⟩
  reader := ⟨by decide, by decide, by decide, by decide⟩
  counts := ⟨by decide, by decide, by decide, by decide, by decide, by decide, by decide⟩
  table := nofun
  canvas := fun _ => ⟨by decide, writtenBelow_of (by decide), writtenBelow_of (by decide), writtenBelow_of (by decide)⟩
  command := fun _ => ⟨rfl, rfl⟩

/-- A run of FRAME in a state of the invariant. -/
theorem wit_EveryStepKeepsTheInvariant :
    Inv (demoBusy 0x50) ∧ step (demoBusy 0x50) = .next (nextOr demo (step (demoBusy 0x50))) :=
  ⟨inv_demoBusy, goes_nextOr _ (by decide +kernel)⟩

/-- The state of `inv_demoBusy` with CTAB unwritten still meets the invariant, and FRAME stops there. -/
theorem wit_OnlyUnwrittenElementsStopTheEngine :
    Inv { demoBusy 0x50 with ctab := [] }
      ∧ exec .frame { demoBusy 0x50 with ctab := [] } = .fault (.unwrittenRead .ctab 0) := by
  refine ⟨?_, fault_of (by decide +kernel)⟩
  have h := inv_demoBusy
  have m := h.memories
  have c := h.canvas
  exact ⟨⟨m.cdata, memoryOk_of (by decide) (by decide), m.dict, m.raster, m.canvas, m.prev, m.snap⟩,
    ⟨h.reader.1, h.reader.2, h.reader.3, h.reader.4⟩,
    ⟨h.counts.1, h.counts.2, h.counts.3, h.counts.4, h.counts.5, h.counts.6, h.counts.7⟩, nofun,
    fun hc => ⟨(c hc).1, (c hc).2, (c hc).3, (c hc).4⟩, fun _ => ⟨rfl, rfl⟩⟩

end Sys2Proof.Tests
end

section
/-! Proofs of the state family, part 1: how a command ends, how it is issued, and how the engine's turn runs it
(10_state.md section 2). -/

namespace Sys2Proof.Machine

open Sys2Proof.Safety

/-- The two ways a command ends: in a completed state, or by a fault of the model. -/
inductive CommandEnds : Host.Outcome State Fault Refusal → Prop where
  | done (u : State) : CommandEnds (.next (doneState u))
  | stopped (f : Fault) : CommandEnds (.fault f)

theorem completed_ends (s : State) : CommandEnds (completed s) := .done s

theorem raiseErr_ends (e : ErrCode) (s : State) : CommandEnds (raiseErr e s) := .done (s.withErr e)

theorem settle_ends (r : Except Fault State) : CommandEnds (settle r) := by
  cases r with
  | ok u => exact .done u
  | error f => exact .stopped f

theorem ite_ends {c : Prop} [Decidable c] {a b : Host.Outcome State Fault Refusal} (ha : CommandEnds a)
    (hb : CommandEnds b) : CommandEnds (if c then a else b) := by
  split
  · exact ha
  · exact hb

theorem execCtAdd_ends (pre k : Nat) (s : State) : CommandEnds (execCtAdd pre k s) := by
  refine ite_ends (raiseErr_ends _ s) (ite_ends (raiseErr_ends _ s) ?_)
  split
  · exact .stopped _
  · exact raiseErr_ends _ s
  · exact completed_ends _

theorem execCtLookup_ends (code : Nat) (s : State) : CommandEnds (execCtLookup code s) := by
  refine ite_ends (raiseErr_ends _ s) (ite_ends (completed_ends _) ?_)
  split
  · exact .stopped _
  · exact completed_ends _

/-- Every command ends in one of the two ways, on every state (R17, R123, R127). -/
theorem exec_ends (i : Instr) (s : State) : CommandEnds (exec i s) := by
  cases i with
  | nop => exact completed_ends s
  | softReset => exact completed_ends _
  | brInit => exact ite_ends (raiseErr_ends _ s) (completed_ends _)
  | brSetnb nb => exact ite_ends (raiseErr_ends _ s) (completed_ends _)
  | brRead => exact ite_ends (raiseErr_ends _ s) (settle_ends _)
  | ctInit => exact ite_ends (completed_ends _) (raiseErr_ends _ s)
  | ctClear => exact ite_ends (raiseErr_ends _ s) (completed_ends _)
  | ctAdd pre k => exact execCtAdd_ends pre k s
  | ctLookup code => exact execCtLookup_ends code s
  | rastDecode => exact ite_ends (settle_ends _) (raiseErr_ends _ s)
  | rastDeinterlace => exact ite_ends (raiseErr_ends _ s) (settle_ends _)
  | compReset => exact ite_ends (raiseErr_ends _ s) (completed_ends _)
  | compDraw => exact ite_ends (raiseErr_ends _ s) (ite_ends (settle_ends _) (raiseErr_ends _ s))
  | compSnap => exact ite_ends (raiseErr_ends _ s) (settle_ends _)
  | compDispose => exact ite_ends (raiseErr_ends _ s) (settle_ends _)
  | frame => exact ite_ends (raiseErr_ends _ s) (ite_ends (settle_ends _) (raiseErr_ends _ s))

/-- Settles O9: a command ends in a `doneState` or in a fault. -/
theorem everyCommandCompletes : Obligations.EveryCommandCompletes := by
  intro i s
  have h := exec_ends i s
  refine ⟨fun t ht => ?_, fun r hr => ?_⟩
  · rw [ht] at h
    cases h with
    | done u => exact ⟨rfl, rfl⟩
  · rw [hr] at h
    cases h

/-- The engine's turn runs the command the pending word decodes to (R17, R69). -/
theorem step_exec {s : State} {w : Word} {i : Instr} {ts : List Turn} (hp : s.pending = some w)
    (hd : decode w = .ok i) (h : EngineNext s ts) : step s = exec i { s with turns := ts } := by
  simp [step_pending hp h, runWord, hd]

/-- Settles O6: with the turn used up, the engine runs the pending word. -/
theorem stepRunsTheDecodedCommand : Obligations.StepRunsTheDecodedCommand :=
  fun _ _ _ _ hp hd h => step_exec hp hd h

/-- A well-formed command decodes back from its word: the opcode selects its row, and the row's fields are its operands
(R65, R67, R70). -/
theorem decode_encode {i : Instr} (h : i.wellFormed = true) : decode (encode i) = .ok i := by
  cases i
  case brSetnb | ctAdd | ctLookup =>
    unfold decode
    rw [encode_opcode h]
    simp only [Instr.opcode, ifReservedClear_eq_ok, encode_field h, Instr.operandBits, Instr.wellFormed,
      Bool.and_eq_true, decide_eq_true_eq, Instr.brSetnb.injEq, Instr.ctAdd.injEq, Instr.ctLookup.injEq] at h ⊢
    omega
  all_goals rfl

/-- Placing the word of a command by `withFetchWord` latches the word and puts the engine's turn next. -/
theorem withFetchWord_toNat (s : State) (w : Word) :
    s.withFetchWord 32 w.toNat = { s.latch w with turns := .engine :: s.turns } := by
  rw [State.withFetchWord, Nat.mod_eq_of_lt w.isLt, BitVec.ofNat_toNat, BitVec.setWidth_eq, offerWord]

/-- Settles O7: the word placed is latched, the engine's turn is next, and the word decodes to the command. -/
theorem offeredWordRunsNext : Obligations.OfferedWordRunsNext := by
  intro s i hi
  rw [withFetchWord_toNat]
  exact step_exec rfl (decode_encode hi) (.inr rfl)

end Sys2Proof.Machine
end

section
/-! Proofs of the state family, part 2: the register file and the Host's accesses to it (10_state.md section 3;
20_memory.md R48, R49). -/

namespace Sys2Proof.Machine

open Sys2Proof.Safety

/-! ### The Host's accesses to REG -/

theorem issue_of_idle {s : State} (h : s.busy = false) (w : Word) : s.issue w = s.latch w := by
  simp [State.issue, h]

theorem issue_of_busy {s : State} (h : s.busy = true) (w : Word) : s.issue w = s.overrun := by
  simp [State.issue, h]

/-- Which accesses are admitted does not depend on the turns to come. -/
theorem isAdmitted_turns (s : State) (a : HostAccess) (ts : List Turn) :
    a.isAdmitted { s with turns := ts } = a.isAdmitted s := rfl

/-- The Host's admitted access at an idle machine is made. -/
theorem step_host_of_idle {s : State} {a : HostAccess} {ts : List Turn} (hb : s.busy = false) (h : HostNext s a ts)
    (ha : a.isAdmitted s = true) : step s = hostPerform { s with turns := ts } a := by
  have hb' : State.busy { s with turns := ts } = false := hb
  simp only [step_host h, hostTurn, hb', Bool.false_and, Bool.false_eq_true, if_false, isAdmitted_turns, ha, if_true]

/-- A CMD write is made whether or not a command is pending (R15, R16, R59). -/
theorem hostTurn_write_cmd (s : State) (v : Word) :
    hostTurn (.write .reg 0x04 32 v) s = .next (s.issue v) := by
  simp [hostTurn, allowedWhileBusy, RegName.offset, HostAccess.isAdmitted, admitted, hostPerform, hostWrite, writeRegAt,
    regAt, writeReg]

theorem step_write_cmd {s : State} {v : Word} {ts : List Turn} (h : HostNext s (.write .reg 0x04 32 v) ts) :
    step s = .next (State.issue { s with turns := ts } v) := by
  rw [step_host h, hostTurn_write_cmd]

theorem step_write_reg {s : State} {i : Nat} {v : Word} {ts : List Turn} (hb : s.busy = false)
    (h : HostNext s (.write .reg i 32 v) ts) (h4 : i % 4 = 0) (hi : i ≤ 0xFC) :
    step s = .next (writeRegAt { s with turns := ts } i v) :=
  step_host_of_idle hb h (decide_eq_true ⟨h4, hi, rfl⟩)

theorem step_read_reg {s : State} {i : Nat} {ts : List Turn} (hb : s.busy = false)
    (h : HostNext s (.read .reg i 32) ts) (h4 : i % 4 = 0) (hi : i ≤ 0xFC) :
    step s = .next { s with turns := ts, hostReads := readRegAt s i :: s.hostReads } :=
  step_host_of_idle hb h (decide_eq_true ⟨h4, hi, rfl⟩)

/-- Settles O10: the write issues the word, and an idle machine latches it. -/
theorem cmdWriteIssuesTheCommand : Obligations.CmdWriteIssuesTheCommand := by
  intro s v ts hb h
  rw [step_write_cmd h, issue_of_idle (s := { s with turns := ts }) hb]
  rfl

/-- Settles O11: the write issues the word, and a busy machine records the overrun. -/
theorem cmdWriteWhileBusySetsOvr : Obligations.CmdWriteWhileBusySetsOvr := by
  intro s v ts hb h
  rw [step_write_cmd h, issue_of_busy (s := { s with turns := ts }) hb]
  rfl

/-! ### Which offsets a Host write reaches -/

/-- The register an offset names lies at that offset. -/
theorem offset_of_regAt {off : Nat} {r : RegName} (h : regAt off = some r) : off = r.offset := by
  unfold regAt at h
  split at h <;> cases h <;> rfl

/-- The last named register is COMP_CSIZE (R18). -/
theorem RegName.offset_le (r : RegName) : r.offset ≤ 0x50 := by
  cases r <;> decide

/-- From 0x54 up no offset names a register (R18). -/
theorem regAt_reserved {off : Nat} (h : 0x54 ≤ off) : regAt off = none := by
  cases hr : regAt off with
  | none => rfl
  | some r => exact absurd (offset_of_regAt hr ▸ r.offset_le) (by omega)

/-- A register that is neither CMD nor RW ignores a write (R18). -/
theorem writeReg_ignored {r : RegName} (s : State) (v : Word)
    (h : r.offset ∉ [0x04, 0x0C, 0x10, 0x14, 0x18, 0x1C, 0x20]) : writeReg s r v = s := by
  cases r with
  | cmd | canvasSize | frPos | frSize | frCtrl | frDlen | numColors => exact absurd (by decide) h
  | _ => rfl

/-- A write at an offset that is neither CMD's nor an RW register's is ignored (R18, R48). -/
theorem writeRegAt_ignored {s : State} {i : Nat} {v : Word}
    (h : i ∉ [0x04, 0x0C, 0x10, 0x14, 0x18, 0x1C, 0x20]) : writeRegAt s i v = s := by
  unfold writeRegAt
  split
  · next r hr =>
    exact writeReg_ignored s v (offset_of_regAt hr ▸ h)
  · rfl

/-- Settles O17: an admitted write is `writeRegAt`, which stores at the six offsets and is ignored elsewhere. -/
theorem hostWriteReachesOnlyRwRegisters : Obligations.HostWriteReachesOnlyRwRegisters := by
  intro s i v ts hb h
  have hstep := step_write_reg hb h
  refine ⟨?_, ?_, ?_, ?_, ?_, ?_, fun h4 hi hni => ?_⟩
  case refine_7 => rw [hstep h4 hi, writeRegAt_ignored hni]
  all_goals
    rintro rfl
    exact hstep (by decide) (by decide)

/-- An RW register's offset, with the mask of the bits it stores (R22 to R27). -/
def rwMasks : List (Nat × Nat) :=
  [(0x0C, 0xFFFFFFFF), (0x10, 0xFFFFFFFF), (0x14, 0xFFFFFFFF), (0x18, 0x00FFFF1F), (0x1C, 0xFFFFFFFF),
    (0x20, 0x000001FF)]

/-- An RW register reads back what was written to it, without its reserved bits. -/
theorem readRegAt_writeRegAt {i mask : Nat} (s : State) (v : Word) (h : (i, mask) ∈ rwMasks) :
    readRegAt (writeRegAt s i v) i = v &&& BitVec.ofNat 32 mask := by
  simp only [rwMasks, List.mem_cons, Prod.mk.injEq, List.not_mem_nil, or_false] at h
  obtain ⟨rfl, rfl⟩ | ⟨rfl, rfl⟩ | ⟨rfl, rfl⟩ | ⟨rfl, rfl⟩ | ⟨rfl, rfl⟩ | ⟨rfl, rfl⟩ := h
  · exact (Size.toWord_ofWord v).trans BitVec.and_allOnes.symm
  · exact (Pos.toWord_ofWord v).trans BitVec.and_allOnes.symm
  · exact (Size.toWord_ofWord v).trans BitVec.and_allOnes.symm
  · exact FrCtrl.toWord_ofWord v
  · exact BitVec.and_allOnes.symm
  · exact numColors_readback v

/-- A write to an RW register leaves the command, the turns and the Host's record as they are, and its offset is one
the Host may access. -/
theorem writeRegAt_rw_frame {i mask : Nat} (s : State) (v : Word) (h : (i, mask) ∈ rwMasks) :
    i % 4 = 0 ∧ i ≤ 0xFC ∧ (writeRegAt s i v).pending = s.pending ∧ (writeRegAt s i v).turns = s.turns
      ∧ (writeRegAt s i v).hostReads = s.hostReads := by
  simp only [rwMasks, List.mem_cons, Prod.mk.injEq, List.not_mem_nil, or_false] at h
  obtain ⟨rfl, rfl⟩ | ⟨rfl, rfl⟩ | ⟨rfl, rfl⟩ | ⟨rfl, rfl⟩ | ⟨rfl, rfl⟩ | ⟨rfl, rfl⟩ := h <;>
    exact ⟨by decide, by decide, rfl, rfl, rfl⟩

/-- Settles O18: the write stores the fields, and the read that follows shows them. -/
theorem rwRegisterReadsBackWithoutReservedBits : Obligations.RwRegisterReadsBackWithoutReservedBits := by
  intro s i mask v ts hb hm hturns
  obtain ⟨h4, hi, hpend, hnext, hreads⟩ :=
    writeRegAt_rw_frame { s with turns := .host (.read .reg i 32) :: ts } v hm
  refine ⟨_, step_write_reg hb hturns h4 hi, ?_⟩
  rw [step_read_reg ((congrArg Option.isSome hpend).trans hb) hnext h4 hi, readRegAt_writeRegAt _ v hm, hreads]

end Sys2Proof.Machine
end

section
/-! Proofs of the state family, part 3: the word of each register shows its fields (10_state.md R18 to R39). -/

namespace Sys2Proof.Machine

/-! ### A field of a word -/

/-- The low bits of a register show the number at the field's width. -/
theorem shownIn_low {bits : Nat} (h : bits ≤ 32) (n : Nat) :
    (shownIn bits n).extractLsb' 0 bits = BitVec.ofNat bits n := by
  have hdvd : 2 ^ bits ∣ 2 ^ 32 := Nat.pow_dvd_pow 2 h
  apply BitVec.eq_of_toNat_eq
  simp only [shownIn, BitVec.extractLsb'_toNat, BitVec.toNat_ofNat, Nat.shiftRight_zero, Nat.mod_mod_of_dvd _ hdvd,
    Nat.mod_mod]

/-- The bits of a register above the field are 0. -/
theorem shownIn_high {bits : Nat} (len n : Nat) :
    (shownIn bits n).extractLsb' bits len = 0#len := by
  apply BitVec.eq_of_toNat_eq
  have hlt : n % 2 ^ bits % 2 ^ 32 < 2 ^ bits :=
    Nat.lt_of_le_of_lt (Nat.mod_le _ _) (Nat.mod_lt _ (Nat.two_pow_pos bits))
  simp only [shownIn, BitVec.extractLsb'_toNat, BitVec.toNat_ofNat, Nat.shiftRight_eq_div_pow, Nat.div_eq_of_lt hlt]

/-- The 32-bit counting registers (R28, R31, R37). -/
theorem shownIn_word (n : Nat) : shownIn 32 n = BitVec.ofNat 32 n :=
  BitVec.extractLsb'_eq_self.symm.trans (shownIn_low (Nat.le_refl 32) n)

/-- A field above all of a word's bits is 0. -/
theorem extractLsb'_of_width_le {w lo : Nat} (x : BitVec w) (len : Nat) (h : w ≤ lo) :
    x.extractLsb' lo len = 0#len := by
  apply BitVec.eq_of_toNat_eq
  have hlt : x.toNat < 2 ^ lo := Nat.lt_of_lt_of_le x.isLt (Nat.pow_le_pow_right (by decide) h)
  simp only [BitVec.extractLsb'_toNat, Nat.shiftRight_eq_div_pow, Nat.div_eq_of_lt hlt, BitVec.toNat_ofNat]

theorem ofBool_eq_ofNat (b : Bool) : BitVec.ofBool b = BitVec.ofNat 1 b.toNat := by
  cases b <;> rfl

/-! ### The fields of the words put together from several -/

/-- CANVAS_SIZE, FR_SIZE, COMP_CSIZE (R22, R24, R39). -/
theorem Size.toWord_fields (z : Size) : z.toWord.extractLsb' 0 16 = z.w ∧ z.toWord.extractLsb' 16 16 = z.h := by
  simp (disch := decide) only [Size.toWord, BitVec.extractLsb'_setWidth_of_le, BitVec.extractLsb'_append_eq_of_add_le,
    BitVec.extractLsb'_append_eq_of_le, BitVec.extractLsb'_eq_self, Nat.reduceSub, and_self]

/-- FR_POS (R23). -/
theorem Pos.toWord_fields (p : Pos) : p.toWord.extractLsb' 0 16 = p.x ∧ p.toWord.extractLsb' 16 16 = p.y :=
  Size.toWord_fields ⟨p.x, p.y⟩

/-- FR_CTRL (R25). -/
theorem FrCtrl.toWord_fields (c : FrCtrl) :
    c.toWord.extractLsb' 0 1 = BitVec.ofBool c.interlaced ∧ c.toWord.extractLsb' 1 1 = BitVec.ofBool c.transp
      ∧ c.toWord.extractLsb' 2 3 = c.disposal ∧ c.toWord.extractLsb' 5 3 = 0#3 ∧ c.toWord.extractLsb' 8 8 = c.tidx
      ∧ c.toWord.extractLsb' 16 8 = c.minCode ∧ c.toWord.extractLsb' 24 8 = 0#8 := by
  simp (disch := decide) only [FrCtrl.toWord, BitVec.extractLsb'_setWidth_of_le, BitVec.extractLsb'_append_eq_of_add_le,
    BitVec.extractLsb'_append_eq_of_le, BitVec.extractLsb'_eq_self, Nat.reduceSub, and_self]

/-- CT_CFG (R35). -/
theorem readReg_ctCfg_fields (s : State) :
    (readReg s .ctCfg).extractLsb' 0 4 = BitVec.ofNat 4 s.ct.minCode ∧ (readReg s .ctCfg).extractLsb' 4 12 = 0#12
      ∧ (readReg s .ctCfg).extractLsb' 16 9 = BitVec.ofNat 9 s.ct.numColors
      ∧ (readReg s .ctCfg).extractLsb' 25 7 = 0#7 := by
  simp (disch := decide) only [readReg, BitVec.extractLsb'_setWidth_of_le, BitVec.extractLsb'_append_eq_of_add_le,
    BitVec.extractLsb'_append_eq_of_le, BitVec.extractLsb'_eq_self, Nat.reduceSub, and_self]

/-- CT_LOOKUP (R36). -/
theorem Lookup.toWord_fields (l : Lookup) :
    l.toWord.extractLsb' 0 13 = l.len ∧ l.toWord.extractLsb' 13 2 = l.kind.bits ∧ l.toWord.extractLsb' 15 1 = 0#1
      ∧ l.toWord.extractLsb' 16 8 = l.first ∧ l.toWord.extractLsb' 24 8 = l.last := by
  simp (disch := decide) only [Lookup.toWord, BitVec.extractLsb'_setWidth_of_le, BitVec.extractLsb'_append_eq_of_add_le,
    BitVec.extractLsb'_append_eq_of_le, BitVec.extractLsb'_eq_self, Nat.reduceSub, and_self]

/-- RAST_PREV (R38). -/
theorem readReg_rastPrev_fields (s : State) :
    (readReg s .rastPrev).extractLsb' 0 12 = s.rast.prev ∧ (readReg s .rastPrev).extractLsb' 12 3 = 0#3
      ∧ (readReg s .rastPrev).extractLsb' 15 1 = BitVec.ofBool s.rast.pv
      ∧ (readReg s .rastPrev).extractLsb' 16 16 = 0#16 := by
  simp (disch := decide) only [readReg, BitVec.extractLsb'_setWidth_of_le, BitVec.extractLsb'_append_eq_of_add_le,
    BitVec.extractLsb'_append_eq_of_le, BitVec.extractLsb'_eq_self, Nat.reduceSub, and_self]

/-- The fields of STATUS of more than one bit (R21). -/
theorem statusWord_fields (s : State) :
    s.statusWord.extractLsb' 4 4 = s.status.err.bits ∧ s.statusWord.extractLsb' 8 4 = s.status.endReason.bits
      ∧ s.statusWord.extractLsb' 15 17 = 0#17 := by
  simp (disch := decide) only [State.statusWord, BitVec.extractLsb'_setWidth_of_le,
    BitVec.extractLsb'_append_eq_of_add_le, BitVec.extractLsb'_append_eq_of_le, BitVec.extractLsb'_eq_self,
    Nat.reduceSub, and_self]

/-- The flags of STATUS (R21). -/
theorem statusWord_flags (s : State) :
    s.statusWord.getLsbD 0 = s.busy ∧ s.statusWord.getLsbD 1 = s.status.done ∧ s.statusWord.getLsbD 2 = s.status.ovr
      ∧ s.statusWord.getLsbD 3 = s.status.brOob ∧ s.statusWord.getLsbD 12 = s.status.brRdy
      ∧ s.statusWord.getLsbD 13 = s.status.ctRdy ∧ s.statusWord.getLsbD 14 = s.status.compRdy := by
  simp only [State.statusWord, BitVec.getLsbD_setWidth, BitVec.getLsbD_append, BitVec.getLsbD_ofBool]
  simp

/-! ### Every register -/

/-- Settles O19: the flags and fields of STATUS, then the other registers row by row, then the reserved offsets. -/
theorem statusWordShowsItsFields : Obligations.StatusWordShowsItsFields := by
  intro s
  obtain ⟨hbusy, hdone, hovr, hoob, hbr, hct, hcomp⟩ := statusWord_flags s
  obtain ⟨herr, hend, hzero⟩ := statusWord_fields s
  refine ⟨rfl, hbusy, hdone, hovr, hoob, ?err, ?endReason, hbr, hct, hcomp, hzero, rfl, rfl, ?rows, ?reserved⟩
  case err =>
    rw [herr]
    cases s.status.err <;> rfl
  case endReason =>
    rw [hend]
    cases s.status.endReason <;> rfl
  case reserved =>
    intro off hoff _
    simp [readRegAt, regAt_reserved hoff]
  case rows =>
    suffices h : ∀ r : Nat × Nat × Nat × Nat, r ∈ _ →
        (readRegAt s r.1).extractLsb' r.2.1 r.2.2.1 = BitVec.ofNat r.2.2.1 r.2.2.2 from
      fun off lo width n hr => h (off, lo, width, n) hr
    simp only [List.forall_mem_cons, List.not_mem_nil, false_imp_iff, implies_true, and_true, readRegAt, regAt]
    simp only [readReg_ctCfg_fields, readReg_rastPrev_fields]
    simp (disch := decide) only [readReg, Size.toWord_fields, Pos.toWord_fields, FrCtrl.toWord_fields,
      Lookup.toWord_fields, shownIn_word, shownIn_low, shownIn_high, BitVec.extractLsb'_setWidth_of_le,
      BitVec.extractLsb'_eq_self, extractLsb'_of_width_le, ofBool_eq_ofNat, BitVec.ofNat_toNat,
      BitVec.setWidth_eq, true_and, and_self, and_true]
    cases s.ct.lookup.kind <;> rfl

end Sys2Proof.Machine
end

section
/-! Proofs of the state family, part 4: DICT slots of codes that are not valid are never observed (10_state.md R46;
41_codetable.md R82). -/

namespace Sys2Proof.Machine

open Sys2Proof.Safety

/-! ### CT_LOOKUP and CT_ADD, case by case -/

section
variable {s : State} {code : Nat}

theorem execCtLookup_notReady (hr : s.status.ctRdy = false) :
    execCtLookup code s = .next (refusedState .notInit s) := if_pos hr

theorem execCtLookup_notValid (hr : s.status.ctRdy = true) (hv : ¬s.ct.valid code) :
    execCtLookup code s = .next (doneState (withLookup .zero s)) := by
  rw [execCtLookup, if_neg (by simp [hr]), if_pos hv, completed_eq]

theorem execCtLookup_unwritten (hr : s.status.ctRdy = true) (hv : s.ct.valid code) (h : s.dict.read code = none) :
    execCtLookup code s = .fault (.unwrittenRead .dict code) := by
  rw [execCtLookup, if_neg (by simp [hr]), if_neg (not_not_intro hv), fetch_eq_error.mpr ⟨h, rfl⟩]

theorem execCtLookup_slot {slot : Slot} (hr : s.status.ctRdy = true) (hv : s.ct.valid code)
    (h : s.dict.read code = some slot) :
    execCtLookup code s = .next (doneState (withLookup (lookupOf code slot) s)) := by
  rw [execCtLookup, if_neg (by simp [hr]), if_neg (not_not_intro hv), fetch_eq_ok.mpr h]
  rfl

theorem execCtAdd_notReady (k : Nat) (hr : s.status.ctRdy = false) :
    execCtAdd code k s = .next (refusedState .notInit s) := if_pos hr

theorem execCtAdd_notValid (k : Nat) (hr : s.status.ctRdy = true) (hv : ¬s.ct.valid code) :
    execCtAdd code k s = .next (refusedState .badCode s) := by
  rw [execCtAdd, if_neg (by simp [hr]), if_pos hv, raiseErr_eq]

theorem execCtAdd_unwritten (k : Nat) (hr : s.status.ctRdy = true) (hv : s.ct.valid code)
    (h : s.dict.read code = none) : execCtAdd code k s = .fault (.unwrittenRead .dict code) := by
  rw [execCtAdd, if_neg (by simp [hr]), if_neg (not_not_intro hv), fetch_eq_error.mpr ⟨h, rfl⟩]

theorem execCtAdd_control (k : Nat) (hr : s.status.ctRdy = true) (hv : s.ct.valid code)
    (h : s.dict.read code = some .control) : execCtAdd code k s = .next (refusedState .badCode s) := by
  rw [execCtAdd, if_neg (by simp [hr]), if_neg (not_not_intro hv), fetch_eq_ok.mpr h]
  rfl

theorem execCtAdd_seq (k : Nat) {q : IndexSeq} (hr : s.status.ctRdy = true) (hv : s.ct.valid code)
    (h : s.dict.read code = some (.seq q)) :
    execCtAdd code k s = .next (doneState (addEntry (q.snoc (BitVec.ofNat 8 k)) s)) := by
  rw [execCtAdd, if_neg (by simp [hr]), if_neg (not_not_intro hv), fetch_eq_ok.mpr h]
  rfl

end

/-! ### Noninterference of the slots that are not valid -/

/-- `s` with DICT replaced by `d`. -/
def State.withDict (s : State) (d : Memory Slot) : State := { s with dict := d }

/-- `t'` is `t` but for DICT, which reads alike at every code valid in `t`. -/
def AgreesOnValid (t t' : State) : Prop :=
  t' = t.withDict t'.dict ∧ ∀ c, t.ct.valid c → t'.dict.read c = t.dict.read c

/-- CT_LOOKUP observes DICT at its code alone, when the code is valid, and leaves DICT as it is (R89). -/
theorem execCtLookup_withDict {s t : State} {d : Memory Slot} {code : Nat}
    (hd : s.ct.valid code → d.read code = s.dict.read code) (ht : execCtLookup code s = .next t) :
    execCtLookup code (s.withDict d) = .next (t.withDict d) := by
  cases hr : s.status.ctRdy with
  | false =>
    cases (execCtLookup_notReady hr).symm.trans ht
    exact execCtLookup_notReady hr
  | true =>
    by_cases hv : s.ct.valid code
    · cases hslot : s.dict.read code with
      | none => cases (execCtLookup_unwritten hr hv hslot).symm.trans ht
      | some slot =>
        cases (execCtLookup_slot hr hv hslot).symm.trans ht
        exact execCtLookup_slot (s := s.withDict d) hr hv ((hd hv).trans hslot)
    · cases (execCtLookup_notValid hr hv).symm.trans ht
      exact execCtLookup_notValid (s := s.withDict d) hr hv

/-- The growth of the width does not look at DICT (R84). -/
theorem growWidth_withDict (s : State) (d : Memory Slot) : growWidth (s.withDict d) = (growWidth s).withDict d := by
  rw [growWidth.eq_def s, apply_ite (State.withDict · d)]
  rfl

/-- After an entry is stored the valid codes are the old ones and the new entry's (R82, R84). -/
theorem valid_storeEntry {s : State} {q : IndexSeq} {c : Nat} (h : (storeEntry q (growWidth s)).ct.valid c) :
    c = s.ct.nextCode ∨ s.ct.valid c := by
  obtain ⟨hlt, hgap⟩ := h
  simp only [storeEntry, growWidth_nextCode, CodeTable.lit, CodeTable.clearCode, growWidth_minCode, growWidth_numColors]
    at hlt hgap
  by_cases hc : c = s.ct.nextCode
  · exact .inl hc
  · exact .inr ⟨by omega, hgap⟩

/-- `addEntry` keeps the agreement on the valid codes: it writes the one code it makes valid (R84). -/
theorem addEntry_agrees (q : IndexSeq) {s : State} {d : Memory Slot}
    (hd : ∀ c, s.ct.valid c → d.read c = s.dict.read c) :
    AgreesOnValid (addEntry q s) (addEntry q (s.withDict d)) := by
  by_cases hfull : Config.dictSlots ≤ s.ct.nextCode
  · rw [addEntry_full q hfull, addEntry_full q (s := s.withDict d) hfull]
    exact ⟨rfl, hd⟩
  · have hlt := Nat.lt_of_not_le hfull
    rw [addEntry_eq q hlt, addEntry_eq q (s := s.withDict d) hlt, growWidth_withDict]
    refine ⟨rfl, fun c hc => ?_⟩
    simp only [storeEntry, State.withDict, growWidth_nextCode, growWidth_dict, Memory.read_write]
    split
    · rfl
    · next hne => exact hd c ((valid_storeEntry hc).resolve_left hne)

/-- CT_ADD observes DICT at `pre` alone, when that code is valid (R88). -/
theorem execCtAdd_agrees {s t : State} {d : Memory Slot} {pre k : Nat}
    (hd : ∀ c, s.ct.valid c → d.read c = s.dict.read c) (ht : execCtAdd pre k s = .next t) :
    ∃ t', execCtAdd pre k (s.withDict d) = .next t' ∧ AgreesOnValid t t' := by
  cases hr : s.status.ctRdy with
  | false =>
    cases (execCtAdd_notReady k hr).symm.trans ht
    exact ⟨_, execCtAdd_notReady k hr, rfl, hd⟩
  | true =>
    by_cases hv : s.ct.valid pre
    · have hslot' : (s.withDict d).dict.read pre = s.dict.read pre := hd pre hv
      cases hslot : s.dict.read pre with
      | none => cases (execCtAdd_unwritten k hr hv hslot).symm.trans ht
      | some slot =>
        cases slot with
        | control =>
          cases (execCtAdd_control k hr hv hslot).symm.trans ht
          exact ⟨_, execCtAdd_control k hr hv (hslot'.trans hslot), rfl, hd⟩
        | seq q =>
          cases (execCtAdd_seq k hr hv hslot).symm.trans ht
          obtain ⟨heq, hread⟩ := addEntry_agrees (q.snoc (BitVec.ofNat 8 k)) hd
          exact ⟨_, execCtAdd_seq k hr hv (hslot'.trans hslot), congrArg doneState heq, hread⟩
    · cases (execCtAdd_notValid k hr hv).symm.trans ht
      exact ⟨_, execCtAdd_notValid (s := s.withDict d) k hr hv, rfl, hd⟩

/-- The setup of a decode seeds DICT anew (R86, R92). -/
theorem decodeSetup_withDict (s : State) (d : Memory Slot) : decodeSetup (s.withDict d) = decodeSetup s := rfl

/-- RAST_DECODE does not look at the DICT it finds, unless it is refused (R105). -/
theorem execRastDecode_withDict {s : State} (h : s.decodeParamsLegal) (d : Memory Slot) :
    execRastDecode (s.withDict d) = execRastDecode s := by
  have h' : (s.withDict d).decodeParamsLegal := h
  simp only [execRastDecode, if_pos h, if_pos h', rasterDecode, decodeSetup_withDict]

/-- Settles O34: CT_LOOKUP and CT_ADD read DICT at a valid code, and a decode seeds DICT anew. -/
theorem staleSlotsAreNeverObserved : Obligations.StaleSlotsAreNeverObserved := by
  intro s d
  refine ⟨fun hd code => ⟨fun t ht => ?lookup, fun k t ht => ?add⟩, fun h => execRastDecode_withDict h d⟩
  case lookup => exact execCtLookup_withDict (hd code) ht
  case add => exact execCtAdd_agrees hd ht

end Sys2Proof.Machine
end

section
/-! Proofs of the memory family, part 1: the Host's accesses to the address spaces (20_memory.md R47 to R50, R53, R59). -/

namespace Sys2Proof.Machine

open Sys2Proof.Safety

/-! ### Which accesses are moves -/

/-- The two accesses of R59: a read of STATUS and a write of CMD. -/
theorem allowedWhileBusy_iff {a : HostAccess} :
    allowedWhileBusy a = true ↔ a = .read .reg 0x08 32 ∨ ∃ v, a = .write .reg 0x04 32 v := by
  cases a with
  | write sp i n v =>
    cases sp with
    | reg => rw [allowedWhileBusy, decide_eq_true_iff]; simp [RegName.offset]
    | _ => simp [allowedWhileBusy]
  | read sp i n =>
    cases sp with
    | reg => rw [allowedWhileBusy, decide_eq_true_iff]; simp [RegName.offset]
    | _ => simp [allowedWhileBusy]

/-- The model's admission check is the rule of R48, R49 and R53, space by space. -/
theorem admitted_iff {s : State} {sp : Space} {i n : Nat} : admitted s sp i n = true ↔ HostMayAccess s sp i n := by
  cases sp <;> simp [admitted, spaceShape, HostMayAccess, Config.maxColors]

/-- Making an admitted access is never a refusal. -/
theorem hostPerform_ne_refused (s : State) (a : HostAccess) (r : Refusal) : hostPerform s a ≠ .refused r := by
  cases a with
  | write => simp [hostPerform]
  | read sp i n =>
    rw [hostPerform]
    cases hostRead s sp i <;> simp

/-- A busy machine refuses every access but the two of R59. -/
theorem step_host_busy_refused {s : State} {a : HostAccess} {ts : List Turn} (hb : s.busy = true)
    (h : HostNext s a ts) (ha : allowedWhileBusy a = false) : step s = .refused .hostAccessWhileBusy := by
  have hb' : State.busy { s with turns := ts } = true := hb
  simp [step_host h, hostTurn, hb', ha]

/-- An idle machine refuses every access that is not admitted. -/
theorem step_host_idle_refused {s : State} {a : HostAccess} {ts : List Turn} (hb : s.busy = false)
    (h : HostNext s a ts) (ha : a.isAdmitted s = false) : step s = .refused .hostAccessNotAdmitted := by
  have hb' : State.busy { s with turns := ts } = false := hb
  simp [step_host h, hostTurn, hb', isAdmitted_turns, ha]

/-- A read of STATUS answers whether or not a command is pending (R59). -/
theorem hostTurn_read_status (s : State) :
    hostTurn (.read .reg 0x08 32) s = .next { s with hostReads := s.statusWord :: s.hostReads } := by
  simp [hostTurn, allowedWhileBusy, RegName.offset, HostAccess.isAdmitted, admitted, hostPerform, hostRead, readRegAt,
    regAt, readReg]

/-- Settles O13: the read of STATUS is answered, and an access that is not one of the two of R59 is refused. -/
theorem busyHostMayOnlyPollAndWriteCmd : Obligations.BusyHostMayOnlyPollAndWriteCmd := by
  intro s a ts hb h
  refine ⟨?poll, fun ⟨hpoll, hcmd⟩ => step_host_busy_refused hb h ?other⟩
  case poll =>
    rintro rfl
    rw [step_host h, hostTurn_read_status]
    rfl
  case other =>
    rw [Bool.eq_false_iff, ne_eq, allowedWhileBusy_iff]
    exact fun ha => ha.elim hpoll fun ⟨v, hv⟩ => hcmd v hv

/-- Settles O14: an idle machine refuses an access that is not admitted, and makes one that is. -/
theorem inadmissibleHostAccessIsNoMove : Obligations.InadmissibleHostAccessIsNoMove := by
  intro s sp i n v ts a hb ha h
  have hadm : a.isAdmitted s = true ↔ HostMayAccess s sp i n := by
    rcases ha with rfl | rfl <;> exact admitted_iff
  constructor
  · intro hstep hmay
    rw [step_host_of_idle hb h (hadm.mpr hmay)] at hstep
    exact hostPerform_ne_refused _ _ _ hstep
  · intro hmay
    exact step_host_idle_refused hb h (Bool.eq_false_iff.mpr (mt hadm.mp hmay))

/-! ### Writes -/

/-- An admitted write at an idle machine stores (R48). -/
theorem step_write {s : State} {sp : Space} {i n : Nat} {v : Word} {ts : List Turn} (hb : s.busy = false)
    (h : HostNext s (.write sp i n v) ts) (ha : HostMayAccess s sp i n) :
    step s = .next (hostWrite { s with turns := ts } sp i v) :=
  step_host_of_idle hb h (admitted_iff.mpr ha)

/-- A write stores at its index and leaves every other. -/
theorem Memory.write_stores {α : Type} (m : Memory α) (i : Nat) (v : α) :
    (m.write i v).read i = some v ∧ ∀ j ≠ i, (m.write i v).read j = m.read j :=
  ⟨Memory.read_write_self m i v, fun _ hj => Memory.read_write_of_ne m v hj⟩

/-- A write of an element narrower than a word stores the word's low bits (R48). -/
theorem Memory.write_stores_low {w : Nat} (hw : w ≤ 32) (m : Memory (BitVec w)) (i : Nat) (v : Word) :
    (m.write i (v.extractLsb' 0 w)).read i = some (v.setWidth w)
      ∧ ∀ j ≠ i, (m.write i (v.extractLsb' 0 w)).read j = m.read j := by
  rw [← BitVec.setWidth_eq_extractLsb' hw]
  exact Memory.write_stores m i _

/-- Settles O15: an admitted write is `hostWrite`, which writes one element of one memory. -/
theorem hostWriteStoresOneElement : Obligations.HostWriteStoresOneElement := by
  intro s i v ts hb
  exact ⟨
    fun h hi => ⟨_, step_write hb h ⟨hi, rfl⟩, Memory.write_stores_low (by decide) s.cdata i v⟩,
    fun h hi => ⟨_, step_write hb h ⟨hi, rfl⟩, Memory.write_stores_low (by decide) s.ctab i v⟩,
    fun h hi => ⟨_, step_write hb h ⟨hi, rfl⟩, Memory.write_stores_low (by decide) s.raster i v⟩,
    fun h hi => ⟨_, step_write hb h ⟨hi, rfl⟩, Memory.write_stores s.canvas i v⟩,
    fun h hi => ⟨_, step_write hb h ⟨hi, rfl⟩, Memory.write_stores s.prev i v⟩,
    fun h hi => ⟨_, step_write hb h ⟨hi, rfl⟩, Memory.write_stores s.snap i v⟩⟩

/-! ### Reads -/

/-- What a read returns does not depend on the turns to come. -/
theorem hostRead_turns (s : State) (sp : Space) (i : Nat) (ts : List Turn) :
    hostRead { s with turns := ts } sp i = hostRead s sp i := by
  cases sp <;> rfl

section
variable {s : State} {sp : Space} {i n : Nat} {ts : List Turn}

/-- An admitted read at an idle machine that returns `v` records it (R49). -/
theorem step_read_ok {v : Word} (hb : s.busy = false) (h : HostNext s (.read sp i n) ts)
    (ha : HostMayAccess s sp i n) (hv : hostRead s sp i = .ok v) :
    step s = .next { s with turns := ts, hostReads := v :: s.hostReads } := by
  rw [step_host_of_idle hb h (admitted_iff.mpr ha)]
  simp only [hostPerform, hostRead_turns, hv]

/-- An admitted read at an idle machine that stops is the fault (R50). -/
theorem step_read_fault {f : Fault} (hb : s.busy = false) (h : HostNext s (.read sp i n) ts)
    (ha : HostMayAccess s sp i n) (hf : hostRead s sp i = .error f) : step s = .fault f := by
  rw [step_host_of_idle hb h (admitted_iff.mpr ha)]
  simp only [hostPerform, hostRead_turns, hf]

end

theorem fetch_unwritten {α : Type} (sp : Space) {m : Memory α} {i : Nat} (h : m.read i = none) :
    fetch sp m i = .error (.unwrittenRead sp i) :=
  fetch_eq_error.mpr ⟨h, rfl⟩

theorem extended_fetch_written {w : Nat} (sp : Space) {m : Memory (BitVec w)} {i : Nat} {v : BitVec w}
    (h : m.read i = some v) : extended (fetch sp m i) = .ok (v.setWidth 32) := by
  rw [fetch_eq_ok.mpr h, extended]

theorem extended_fetch_unwritten {w : Nat} (sp : Space) {m : Memory (BitVec w)} {i : Nat} (h : m.read i = none) :
    extended (fetch sp m i) = .error (.unwrittenRead sp i) := by
  rw [fetch_unwritten sp h, extended]

/-- Settles O16: an admitted read is `hostRead`, which fetches the element, or reads the register. -/
theorem hostReadReturnsTheElement : Obligations.HostReadReturnsTheElement := by
  intro s sp i n ts hb h
  refine ⟨?reg, ?_, ?_, ?_, ?_, ?_, ?_⟩
  case reg =>
    rintro ⟨rfl, h4, hi, rfl⟩
    exact step_read_reg hb h h4 hi
  iterate 3
    rintro ⟨rfl, hi, rfl⟩
    exact ⟨fun v hv => step_read_ok hb h ⟨hi, rfl⟩ (extended_fetch_written _ hv),
      fun hn => step_read_fault hb h ⟨hi, rfl⟩ (extended_fetch_unwritten _ hn)⟩
  iterate 3
    rintro ⟨rfl, hi, rfl⟩
    exact ⟨fun v hv => step_read_ok hb h ⟨hi, rfl⟩ (fetch_eq_ok.mpr hv),
      fun hn => step_read_fault hb h ⟨hi, rfl⟩ (fetch_unwritten _ hn)⟩

end Sys2Proof.Machine
end

section
/-! Proofs of the memory family, part 2: what a command does, said once. A command is refused by the check of R124 that
`refusalOf` names, or its effects on the state are performed (60_exceptions.md section 1; 10_state.md R17). -/

namespace Sys2Proof.Machine

open Sys2Proof.Safety

/-- The effects of CT_ADD, of a valid code whose slot is a sequence (R88). -/
def ctAddEffects (pre k : Nat) (s : State) : Except Fault State :=
  match seqOf s pre with
  | .error f => .error f
  | .ok q => .ok (addEntry (q.snoc (BitVec.ofNat 8 k)) s)

/-- The effects of CT_LOOKUP (R89). -/
def ctLookupEffects (code : Nat) (s : State) : Except Fault State :=
  if ¬s.ct.valid code then .ok (withLookup .zero s)
  else
    match fetch .dict s.dict code with
    | .error f => .error f
    | .ok slot => .ok (withLookup (lookupOf code slot) s)

/-- The effects of a command that is not refused: the state before completion, or the fault the model stops with. -/
def effects (i : Instr) (s : State) : Except Fault State :=
  match i with
  | .nop => .ok s
  | .softReset => .ok (softReset s)
  | .brInit => .ok (brInit s)
  | .brSetnb nb => .ok { s with br := { s.br with nbits := nb } }
  | .brRead => readState (readCode s)
  | .ctInit => .ok (ctInit s)
  | .ctClear => .ok (ctClear s)
  | .ctAdd pre k => ctAddEffects pre k s
  | .ctLookup code => ctLookupEffects code s
  | .rastDecode => rasterDecode s
  | .rastDeinterlace => deinterlace s
  | .compReset => .ok (compReset s)
  | .compDraw => compDraw s
  | .compSnap => compSnap s
  | .compDispose => compDispose s
  | .frame => frameEffects s

/-- A command that `refusal` refuses, or that performs the effects `r` on `s`. -/
def refuseOrSettle (refusal : Option ErrCode) (r : Except Fault State) (s : State) :
    Host.Outcome State Fault Refusal :=
  match refusal with
  | some e => raiseErr e s
  | none => settle r

theorem execCtAdd_eq (pre k : Nat) (s : State) :
    execCtAdd pre k s = refuseOrSettle (refusalOf (.ctAdd pre k) s) (ctAddEffects pre k s) s := by
  cases hr : s.status.ctRdy with
  | false => simp [execCtAdd, refusalOf, hr, refuseOrSettle]
  | true =>
    by_cases hv : s.ct.valid pre
    · cases hslot : s.dict.read pre with
      | none => simp [refusalOf, hr, hv, hslot, refuseOrSettle, execCtAdd_unwritten k hr hv hslot, ctAddEffects, seqOf,
          fetch, settle]
      | some slot =>
        cases slot with
        | control => simp [refusalOf, hr, hslot, refuseOrSettle, execCtAdd_control k hr hv hslot, raiseErr_eq]
        | seq q => simp [refusalOf, hr, hv, hslot, refuseOrSettle, execCtAdd_seq k hr hv hslot, ctAddEffects,
            seqOf_eq_ok.mpr hslot, settle, completed_eq]
    · simp [refusalOf, hr, hv, refuseOrSettle, execCtAdd_notValid k hr hv, raiseErr_eq]

theorem execCtLookup_eq (code : Nat) (s : State) :
    execCtLookup code s = refuseOrSettle (refusalOf (.ctLookup code) s) (ctLookupEffects code s) s := by
  unfold execCtLookup ctLookupEffects refusalOf
  split
  · rfl
  · split
    · rfl
    · cases fetch .dict s.dict code <;> rfl

section
variable {c : Prop} [Decidable c] {r : Except Fault State} {s : State} {e : ErrCode}

theorem refuse_if : (if c then raiseErr e s else settle r) = refuseOrSettle (if c then some e else none) r s := by
  split <;> rfl

theorem refuse_unless : (if c then settle r else raiseErr e s) = refuseOrSettle (if c then none else some e) r s := by
  split <;> rfl

end

theorem execCompDraw_eq (s : State) :
    execCompDraw s = refuseOrSettle (refusalOf .compDraw s) (compDraw s) s := by
  have hparams : (¬legalColors s.inColors ∨ s.framePixels > s.caps.rasterMax) ↔
      ¬(legalColors s.inColors ∧ s.frameFits) := by
    rw [not_and_or, Nat.not_le]
  simp only [execCompDraw, refusalOf, hparams, ite_not]
  split
  · rfl
  · exact refuse_unless

theorem execFrame_eq (s : State) : execFrame s = refuseOrSettle (refusalOf .frame s) (frameEffects s) s := by
  simp only [execFrame, refusalOf]
  split
  · rfl
  · exact refuse_unless

/-- Every command, on every state: refused, or its effects performed (R17, R123 to R125). -/
theorem exec_eq (i : Instr) (s : State) : exec i s = refuseOrSettle (refusalOf i s) (effects i s) s := by
  cases i with
  | nop | softReset => rfl
  | brInit | brSetnb | ctClear | compReset => exact refuse_if (r := .ok _)
  | ctInit => exact refuse_unless (r := .ok _)
  | brRead | rastDeinterlace | compSnap | compDispose => exact refuse_if
  | rastDecode => exact refuse_unless
  | ctAdd pre k => exact execCtAdd_eq pre k s
  | ctLookup code => exact execCtLookup_eq code s
  | compDraw => exact execCompDraw_eq s
  | frame => exact execFrame_eq s

/-- A command answers by being refused, or by completing in the state its effects leave. -/
theorem exec_eq_next {i : Instr} {s t : State} :
    exec i s = .next t ↔ (∃ e, refusalOf i s = some e ∧ t = refusedState e s)
      ∨ (refusalOf i s = none ∧ ∃ u, effects i s = .ok u ∧ t = doneState u) := by
  rw [exec_eq]
  cases refusalOf i s with
  | none => simp [refuseOrSettle, settle_eq_next]
  | some e => simp [refuseOrSettle, raiseErr_eq, eq_comm]

/-- A command stops exactly when it is not refused and its effects stop. -/
theorem exec_eq_fault {i : Instr} {s : State} {f : Fault} :
    exec i s = .fault f ↔ refusalOf i s = none ∧ effects i s = .error f := by
  rw [exec_eq]
  cases refusalOf i s with
  | none => simp [refuseOrSettle, settle_eq_fault]
  | some e => simp [refuseOrSettle, raiseErr_eq]

/-! ### What a command that is not refused has passed (R125) -/

section
variable {s : State}

/-- A check that is passed leaves the ones after it. -/
theorem check_eq_none {c : Prop} [Decidable c] {e : ErrCode} {rest : Option ErrCode} :
    (if c then some e else rest) = none ↔ ¬c ∧ rest = none := by
  split <;> simp [*]

theorem ctAdd_passed {pre k : Nat} (h : refusalOf (.ctAdd pre k) s = none) :
    s.status.ctRdy = true ∧ s.ct.valid pre ∧ s.dict.read pre ≠ some .control := by
  simpa only [refusalOf, check_eq_none, Bool.not_eq_false, not_or, not_not, and_true] using h

theorem ctLookup_passed {code : Nat} (h : refusalOf (.ctLookup code) s = none) : s.status.ctRdy = true := by
  simpa only [refusalOf, check_eq_none, Bool.not_eq_false, and_true] using h

theorem rastDecode_passed (h : refusalOf .rastDecode s = none) : s.decodeParamsLegal := by
  by_contra hl
  simp [refusalOf, hl] at h

theorem compositor_passed {i : Instr} (hi : i ∈ [Instr.compDraw, .compSnap, .compDispose, .frame])
    (h : refusalOf i s = none) : s.status.compRdy = true := by
  simp only [List.mem_cons, List.not_mem_nil, or_false] at hi
  obtain rfl | rfl | rfl | rfl := hi <;>
    exact Bool.eq_true_of_not_eq_false (check_eq_none.mp h).1

theorem frame_passed (h : refusalOf .frame s = none) : s.decodeParamsLegal :=
  rastDecode_passed (check_eq_none.mp h).2

end

/-! ### FRAME is its four parts in sequence -/

section
variable {r : Except Fault State} {k : State → Except Fault State}

theorem bind_eq_ok {t : State} : r.bind k = .ok t ↔ ∃ u, r = .ok u ∧ k u = .ok t := by
  cases r <;> simp [Except.bind]

theorem bind_eq_error {f : Fault} : r.bind k = .error f ↔ r = .error f ∨ ∃ u, r = .ok u ∧ k u = .error f := by
  cases r <;> simp [Except.bind]

end

/-- FRAME's effects (R116). -/
theorem frameEffects_eq (s : State) :
    frameEffects s = (rasterDecode s).bind fun t => (compDraw t).bind fun t => (compSnap t).bind compDispose := by
  cases h₁ : rasterDecode s with
  | error f => simp [frameEffects, h₁, Except.bind]
  | ok t₁ =>
    cases h₂ : compDraw t₁ with
    | error f => simp [frameEffects, h₁, h₂, Except.bind]
    | ok t₂ => cases h₃ : compSnap t₂ <;> simp [frameEffects, h₁, h₂, h₃, Except.bind]

theorem frameEffects_eq_ok {s t : State} :
    frameEffects s = .ok t ↔
      ∃ t₁, rasterDecode s = .ok t₁ ∧ ∃ t₂, compDraw t₁ = .ok t₂ ∧
        ∃ t₃, compSnap t₂ = .ok t₃ ∧ compDispose t₃ = .ok t := by
  simp only [frameEffects_eq, bind_eq_ok]

theorem frameEffects_eq_error {s : State} {f : Fault} :
    frameEffects s = .error f ↔
      rasterDecode s = .error f ∨ ∃ t₁, rasterDecode s = .ok t₁ ∧
        (compDraw t₁ = .error f ∨ ∃ t₂, compDraw t₁ = .ok t₂ ∧
          (compSnap t₂ = .error f ∨ ∃ t₃, compSnap t₂ = .ok t₃ ∧ compDispose t₃ = .error f)) := by
  simp only [frameEffects_eq, bind_eq_error]

end Sys2Proof.Machine
end

section
/-! Proofs of the memory family, part 3: an element never written stops the command that needs it, and nothing else does
(20_memory.md R50; 60_exceptions.md R127). -/

namespace Sys2Proof.Machine

open Sys2Proof.Safety

/-! ### BR_READ and COMP_DRAW -/

/-- The state a read leaves, when it stops. -/
theorem readState_eq_error {r : Except Fault (ReadResult × State)} {f : Fault} :
    readState r = .error f ↔ r = .error f := by
  cases r <;> simp [readState]

/-- A window that was read had all its bytes below BL written (R76, R77). -/
theorem windowWritten_of_readerWindow {s : State} {win : BitVec 24}
    (h : readerWindow s (s.br.cursor / 8) = .ok win) : WindowWritten s := by
  obtain ⟨b0, b1, b2, h0, h1, h2, _⟩ := readerWindow_eq_ok.mp h
  intro i hlo hhi hlen
  have hbyte : ∃ b, readerByte s i = .ok b := by
    obtain rfl | rfl | rfl : i = s.br.cursor / 8 ∨ i = s.br.cursor / 8 + 1 ∨ i = s.br.cursor / 8 + 2 := by omega
    · exact ⟨b0, h0⟩
    · exact ⟨b1, h1⟩
    · exact ⟨b2, h2⟩
  obtain ⟨b, hb⟩ := hbyte
  rcases readerByte_eq_ok.mp hb with ⟨_, hread⟩ | ⟨hge, _⟩
  · exact Option.isSome_iff_exists.mpr ⟨b, hread⟩
  · exact absurd hlen (Nat.not_lt.mpr hge)

/-- Settles O28: a read in range that answers had its window written, and one that stops names an unwritten byte. -/
theorem brReadStopsOnAnUnwrittenByte : Obligations.BrReadStopsOnAnUnwrittenByte := by
  intro s hrdy hn hlt hwin
  cases hread : readCode s with
  | ok rt =>
    rcases readCode_cases hread with ⟨hge, _⟩ | ⟨_, win, _, hw, _⟩
    · exact absurd hlt (Nat.not_lt.mpr hge)
    · exact absurd (windowWritten_of_readerWindow hw) hwin
  | error f =>
    obtain ⟨_, i, hlo, hhi, hlen, hnone, rfl⟩ := readCode_eq_error hread
    exact ⟨i, hlo, hhi, hlen, hnone,
      exec_eq_fault.mpr ⟨by simp [refusalOf, hrdy, hn], readState_eq_error.mpr hread⟩⟩

/-- A draw that was made had all it reads of RASTER and CTAB written (R113). -/
theorem paintable_of_compDraw {s t : State} (h : compDraw s = .ok t) : Paintable s := by
  obtain ⟨_, _, _, hpaint, _⟩ := compDraw_eq_ok.mp h
  intro fx hfx fy hfy hin
  obtain ⟨e, src, _, he, hsrc, _⟩ := (paintFrame_spec hpaint).2.1 fx fy hfx hfy hin
  exact ⟨e, src, he, hsrc⟩

/-- Settles O50: a draw that answers was paintable, and one that stops on a written canvas names an unwritten element of
RASTER or CTAB. -/
theorem compDrawStopsOnAnUnwrittenElement : Obligations.CompDrawStopsOnAnUnwrittenElement := by
  intro s hrdy hcolors hfits hcanvas hpaint
  have hnot : refusalOf .compDraw s = none := by simp [refusalOf, hrdy, hcolors, hfits]
  cases hdraw : compDraw s with
  | ok t => exact absurd (paintable_of_compDraw hdraw) hpaint
  | error f =>
    have hexec : exec .compDraw s = .fault f := exec_eq_fault.mpr ⟨hnot, hdraw⟩
    rcases compDraw_error hdraw hcanvas with ⟨j, ⟨hnone, rfl, _⟩ | ⟨hnone, rfl, _⟩⟩
    · exact ⟨j, .inl ⟨hnone, hexec⟩⟩
    · exact ⟨j, .inr ⟨hnone, hexec⟩⟩

/-! ### The canvas through the commands -/

/-- Commands that only add to CANVAS, PREV and SNAP keep them written (R112). -/
theorem canvasOk_of_writesBelow {s t : State} (h : CanvasOk s) (hcaps : t.caps = s.caps)
    (hsize : t.compSize = s.compSize) (hcanvas : Memory.WritesBelow s.canvasPixels s.canvas t.canvas)
    (hprev : Memory.WritesBelow s.canvasPixels s.prev t.prev)
    (hsnap : Memory.WritesBelow s.canvasPixels s.snap t.snap) : CanvasOk t := by
  have hpix : t.canvasPixels = s.canvasPixels := by simp only [State.canvasPixels, State.canvasW, State.canvasH, hsize]
  refine ⟨hpix ▸ hcaps ▸ h.fits, ?_, ?_, ?_⟩ <;> intro j hj <;> rw [hpix] at hj
  · exact hcanvas.written (h.canvas j hj)
  · exact hprev.written (h.prev j hj)
  · exact hsnap.written (h.snap j hj)

theorem withRaster_frame (s : State) (m : Memory RasterEntry) : DecodeFrame s { s with raster := m } := by
  constructor <;> rfl

/-- What a decode leaves: its frame, and RASTER with elements written below W*H (R91, R103, R105). -/
theorem rasterDecode_frame {s t : State} (hl : s.decodeParamsLegal) (h : rasterDecode s = .ok t) :
    DecodeFrame (decodeSetup s) t ∧ Memory.WritesBelow s.framePixels s.raster t.raster := by
  rcases rasterDecode_spec hl with ⟨u, t', _, hend, ht', heq, _, _, _, hraster⟩ | ⟨i, _, _, herr⟩
  · cases ht'.symm.trans h
    rw [heq]
    exact ⟨hend.frame.trans (withRaster_frame u _), hraster⟩
  · cases herr.symm.trans h

theorem rasterDecode_canvasOk {s t : State} (hc : CanvasOk s) (hl : s.decodeParamsLegal)
    (h : rasterDecode s = .ok t) : CanvasOk t := by
  obtain ⟨hf, _⟩ := rasterDecode_frame hl h
  refine canvasOk_of_writesBelow hc hf.caps hf.compSize ?_ ?_ ?_
  · rw [hf.canvas]; exact .refl _ _
  · rw [hf.prev]; exact .refl _ _
  · rw [hf.snap]; exact .refl _ _

theorem compDraw_canvasOk {s t : State} (hc : CanvasOk s) (h : compDraw s = .ok t) : CanvasOk t := by
  obtain ⟨p, cv, hcopy, hpaint, rfl⟩ := compDraw_eq_ok.mp h
  exact canvasOk_of_writesBelow hc rfl rfl (paintFrame_spec hpaint).1 (copyTo_writesBelow hcopy) (.refl _ _)

theorem compSnap_canvasOk {s t : State} (hc : CanvasOk s) (h : compSnap s = .ok t) : CanvasOk t := by
  obtain ⟨p, hcopy, rfl⟩ := compSnap_eq_ok.mp h
  exact canvasOk_of_writesBelow hc rfl rfl (.refl _ _) (.refl _ _) (copyTo_writesBelow hcopy)

/-- COMP_SNAP answers on a written canvas (R114). -/
theorem compSnap_ok {s : State} (hc : CanvasOk s) : ∃ t, compSnap s = .ok t := by
  obtain ⟨p, hcopy⟩ := copyTo_ok (sp := .canvas) s.snap hc.canvas
  exact ⟨_, compSnap_eq_ok.mpr ⟨p, hcopy, rfl⟩⟩

/-- COMP_DISPOSE answers on a written PREV (R115). -/
theorem compDispose_ok {s : State} (hc : CanvasOk s) : ∃ t, compDispose s = .ok t := by
  obtain ⟨p, hcopy⟩ := copyTo_ok (sp := .prev) s.canvas hc.prev
  by_cases h2 : s.frCtrl.disposal = 2
  · exact ⟨_, compDispose_eq_ok.mpr (.inl ⟨h2, rfl⟩)⟩
  · by_cases h3 : s.frCtrl.disposal = 3
    · exact ⟨_, compDispose_eq_ok.mpr (.inr (.inl ⟨h3, p, hcopy, rfl⟩))⟩
    · exact ⟨_, compDispose_eq_ok.mpr (.inr (.inr ⟨h2, h3, rfl⟩))⟩

/-! ### The faults of the invariant's states -/

/-- `f` is the read of an element of the engine's inputs, CDATA, CTAB or RASTER, that `s` has never had written. -/
def StopsOnInput (s : State) (f : Fault) : Prop :=
  ∃ j, (f = .unwrittenRead .cdata j ∧ s.cdata.read j = none)
    ∨ (f = .unwrittenRead .ctab j ∧ s.ctab.read j = none)
    ∨ (f = .unwrittenRead .raster j ∧ s.raster.read j = none)

theorem Memory.WritesBelow.unwritten {α : Type} {n j : Nat} {m m' : Memory α} (h : Memory.WritesBelow n m m')
    (hj : m'.read j = none) : m.read j = none := by
  rw [← Option.not_isSome_iff_eq_none] at hj ⊢
  exact mt h.written hj

/-- An element unwritten after a decode was unwritten before it. -/
theorem StopsOnInput.of_writesBelow {s t : State} {f : Fault} {n : Nat} (h : StopsOnInput t f)
    (hcdata : t.cdata = s.cdata) (hctab : t.ctab = s.ctab) (hraster : Memory.WritesBelow n s.raster t.raster) :
    StopsOnInput s f := by
  obtain ⟨j, ⟨hf, hn⟩ | ⟨hf, hn⟩ | ⟨hf, hn⟩⟩ := h
  · exact ⟨j, .inl ⟨hf, hcdata ▸ hn⟩⟩
  · exact ⟨j, .inr (.inl ⟨hf, hctab ▸ hn⟩)⟩
  · exact ⟨j, .inr (.inr ⟨hf, hraster.unwritten hn⟩)⟩

section
variable {s : State} {f : Fault}

theorem readCode_stops (h : readCode s = .error f) : StopsOnInput s f := by
  obtain ⟨_, i, _, _, _, hn, hf⟩ := readCode_eq_error h
  exact ⟨i, .inl ⟨hf, hn⟩⟩

theorem rasterDecode_stops (hl : s.decodeParamsLegal) (h : rasterDecode s = .error f) : StopsOnInput s f := by
  rcases rasterDecode_spec hl with ⟨_, t, _, _, ht, _⟩ | ⟨i, _, hn, herr⟩
  · cases ht.symm.trans h
  · cases herr.symm.trans h
    exact ⟨i, .inl ⟨rfl, hn⟩⟩

theorem deinterlace_stops (h : deinterlace s = .error f) : StopsOnInput s f := by
  obtain ⟨j, _, hn, hf⟩ := deinterlace_error h
  exact ⟨j, .inr (.inr ⟨hf, hn⟩)⟩

theorem compDraw_stops (hc : CanvasOk s) (h : compDraw s = .error f) : StopsOnInput s f := by
  obtain ⟨j, ⟨hn, hf, _⟩ | ⟨hn, hf, _⟩⟩ := compDraw_error h hc.canvas
  · exact ⟨j, .inr (.inr ⟨hf, hn⟩)⟩
  · exact ⟨j, .inr (.inl ⟨hf, hn⟩)⟩

theorem compSnap_ne_error (hc : CanvasOk s) : compSnap s ≠ .error f := by
  obtain ⟨t, ht⟩ := compSnap_ok hc
  simp [ht]

theorem compDispose_ne_error (hc : CanvasOk s) : compDispose s ≠ .error f := by
  obtain ⟨t, ht⟩ := compDispose_ok hc
  simp [ht]

theorem frameEffects_stops (hc : CanvasOk s) (hl : s.decodeParamsLegal) (h : frameEffects s = .error f) :
    StopsOnInput s f := by
  rcases frameEffects_eq_error.mp h with h₁ | ⟨t₁, h₁, h⟩
  · exact rasterDecode_stops hl h₁
  have hc₁ := rasterDecode_canvasOk hc hl h₁
  rcases h with h₂ | ⟨t₂, h₂, h⟩
  · obtain ⟨hf, hraster⟩ := rasterDecode_frame hl h₁
    exact (compDraw_stops hc₁ h₂).of_writesBelow hf.cdata hf.ctab hraster
  have hc₂ := compDraw_canvasOk hc₁ h₂
  rcases h with h₃ | ⟨t₃, h₃, h₄⟩
  · exact absurd h₃ (compSnap_ne_error hc₂)
  · exact absurd h₄ (compDispose_ne_error (compSnap_canvasOk hc₂ h₃))

/-- CT_ADD of a valid code that is no control code finds its sequence (R82, R83). -/
theorem ctAddEffects_ne_error {pre k : Nat} (ht : TableOk s.ct s.dict) (hv : s.ct.valid pre)
    (hc : s.dict.read pre ≠ some .control) : ctAddEffects pre k s ≠ .error f := by
  obtain ⟨slot, hslot⟩ := tableOk_written_valid ht hv
  cases slot with
  | control => exact absurd hslot hc
  | seq q => simp [ctAddEffects, seqOf_eq_ok.mpr hslot]

/-- CT_LOOKUP of a valid code finds its slot (R82). -/
theorem ctLookupEffects_ne_error {code : Nat} (ht : TableOk s.ct s.dict) : ctLookupEffects code s ≠ .error f := by
  unfold ctLookupEffects
  split
  · simp
  · next hv =>
    obtain ⟨slot, hslot⟩ := tableOk_written_valid ht (not_not.mp hv)
    simp [fetch_eq_ok.mpr hslot]

end

/-- What the effects of a command stop on, in a state of the invariant (R50, R127). -/
theorem effects_stop_on_input {i : Instr} {s : State} {f : Fault} (hinv : Inv s) (hnot : refusalOf i s = none)
    (h : effects i s = .error f) : StopsOnInput s f := by
  have hcanvas (hi : i ∈ [Instr.compDraw, .compSnap, .compDispose, .frame]) : CanvasOk s :=
    hinv.canvas (compositor_passed hi hnot)
  cases i with
  | nop | softReset | brInit | brSetnb | ctInit | ctClear | compReset => cases h
  | brRead => exact readCode_stops (readState_eq_error.mp h)
  | ctAdd pre k =>
    obtain ⟨hr, hv, hc⟩ := ctAdd_passed hnot
    exact absurd h (ctAddEffects_ne_error (hinv.table hr) hv hc)
  | ctLookup code => exact absurd h (ctLookupEffects_ne_error (hinv.table (ctLookup_passed hnot)))
  | rastDecode => exact rasterDecode_stops (rastDecode_passed hnot) h
  | rastDeinterlace => exact deinterlace_stops h
  | compDraw => exact compDraw_stops (hcanvas (by decide)) h
  | compSnap => exact absurd h (compSnap_ne_error (hcanvas (by decide)))
  | compDispose => exact absurd h (compDispose_ne_error (hcanvas (by decide)))
  | frame => exact frameEffects_stops (hcanvas (by decide)) (frame_passed hnot) h

/-- Settles O60: a command that stops was performing its effects, and those stop on an input alone. -/
theorem onlyUnwrittenElementsStopTheEngine : Obligations.OnlyUnwrittenElementsStopTheEngine := by
  intro i s f hinv h
  obtain ⟨hnot, herr⟩ := exec_eq_fault.mp h
  exact effects_stop_on_input hinv hnot herr

end Sys2Proof.Machine
end

section
/-! Proofs of the memory family, part 4: which commands write which memory (20_memory.md R56, R63;
70_reset_and_hazards.md R144). -/

namespace Sys2Proof.Machine

open Sys2Proof.Safety

/-- The memories a command may write (R63). -/
def writesOf : Instr → List Space
  | .ctInit | .ctAdd _ _ => [.dict]
  | .rastDecode => [.dict, .raster]
  | .rastDeinterlace => [.raster]
  | .compReset => [.canvas, .prev, .snap]
  | .compDraw => [.canvas, .prev]
  | .compSnap => [.snap]
  | .compDispose => [.canvas]
  | .frame => [.dict, .raster, .canvas, .prev, .snap]
  | .nop | .softReset | .brInit | .brSetnb _ | .brRead | .ctClear | .ctLookup _ => []

/-! The writers of each memory; CDATA and CTAB have none. -/

theorem cdata_notMem_writesOf (i : Instr) : .cdata ∉ writesOf i := by
  cases i <;> simp [writesOf]

theorem ctab_notMem_writesOf (i : Instr) : .ctab ∉ writesOf i := by
  cases i <;> simp [writesOf]

theorem dict_mem_writesOf {i : Instr} :
    .dict ∈ writesOf i ↔ i = .ctInit ∨ (∃ pre k, i = .ctAdd pre k) ∨ i = .rastDecode ∨ i = .frame := by
  cases i <;> simp [writesOf]

theorem raster_mem_writesOf {i : Instr} :
    .raster ∈ writesOf i ↔ i = .rastDecode ∨ i = .rastDeinterlace ∨ i = .frame := by
  cases i <;> simp [writesOf]

theorem canvas_mem_writesOf {i : Instr} :
    .canvas ∈ writesOf i ↔ i = .compReset ∨ i = .compDraw ∨ i = .compDispose ∨ i = .frame := by
  cases i <;> simp [writesOf]

theorem prev_mem_writesOf {i : Instr} : .prev ∈ writesOf i ↔ i = .compReset ∨ i = .compDraw ∨ i = .frame := by
  cases i <;> simp [writesOf]

theorem snap_mem_writesOf {i : Instr} : .snap ∈ writesOf i ↔ i = .compReset ∨ i = .compSnap ∨ i = .frame := by
  cases i <;> simp [writesOf]

/-- From `s` to `t` no memory but those in `ws` is written, and of the Host's and the model's own fields only what every
command may write: the capacities, the turns to come and the Host's record stand. -/
structure WritesOnly (ws : List Space) (s t : State) : Prop where
  caps : t.caps = s.caps
  turns : t.turns = s.turns
  hostReads : t.hostReads = s.hostReads
  cdata : .cdata ∉ ws → t.cdata = s.cdata
  ctab : .ctab ∉ ws → t.ctab = s.ctab
  dict : .dict ∉ ws → t.dict = s.dict
  raster : .raster ∉ ws → t.raster = s.raster
  canvas : .canvas ∉ ws → t.canvas = s.canvas
  prev : .prev ∉ ws → t.prev = s.prev
  snap : .snap ∉ ws → t.snap = s.snap

namespace WritesOnly

variable {ws ws' : List Space} {s t u : State}

theorem refl (ws : List Space) (s : State) : WritesOnly ws s s := by constructor <;> intros <;> rfl

theorem trans (h : WritesOnly ws s t) (k : WritesOnly ws t u) : WritesOnly ws s u where
  caps := k.caps.trans h.caps
  turns := k.turns.trans h.turns
  hostReads := k.hostReads.trans h.hostReads
  cdata hn := (k.cdata hn).trans (h.cdata hn)
  ctab hn := (k.ctab hn).trans (h.ctab hn)
  dict hn := (k.dict hn).trans (h.dict hn)
  raster hn := (k.raster hn).trans (h.raster hn)
  canvas hn := (k.canvas hn).trans (h.canvas hn)
  prev hn := (k.prev hn).trans (h.prev hn)
  snap hn := (k.snap hn).trans (h.snap hn)

theorem mono (hsub : ws ⊆ ws') (h : WritesOnly ws s t) : WritesOnly ws' s t where
  caps := h.caps
  turns := h.turns
  hostReads := h.hostReads
  cdata hn := h.cdata (mt (@hsub _) hn)
  ctab hn := h.ctab (mt (@hsub _) hn)
  dict hn := h.dict (mt (@hsub _) hn)
  raster hn := h.raster (mt (@hsub _) hn)
  canvas hn := h.canvas (mt (@hsub _) hn)
  prev hn := h.prev (mt (@hsub _) hn)
  snap hn := h.snap (mt (@hsub _) hn)

end WritesOnly

/-! ### The effects -/

section
variable {s t : State}

/-- The pending command, STATUS and the registers of the Bit Reader and the Code Table are no memory. -/
theorem writesOnly_registers (ws : List Space) (s : State) (p : Option Word) (st : Status) (br : BitReader)
    (ct : CodeTable) : WritesOnly ws s { s with pending := p, status := st, br := br, ct := ct } := by
  constructor <;> intros <;> rfl

theorem softReset_writesOnly (s : State) : WritesOnly [] s (softReset s) := by constructor <;> intros <;> rfl

theorem readCode_writesOnly {r : ReadResult} (h : readCode s = .ok (r, t)) : WritesOnly [] s t := by
  rcases readCode_cases h with ⟨_, _, rfl⟩ | ⟨_, _, _, _, _, _, rfl⟩
  · exact writesOnly_registers ..
  · exact writesOnly_registers ..

theorem readState_writesOnly (h : readState (readCode s) = .ok t) : WritesOnly [] s t := by
  cases hr : readCode s with
  | error f => simp [readState, hr] at h
  | ok rt =>
    obtain ⟨r, u⟩ := rt
    simp only [readState, hr, Except.ok.injEq] at h
    exact h ▸ readCode_writesOnly hr

theorem writesOnly_dict (s : State) (d : Memory Slot) (st : Status) (br : BitReader) (ct : CodeTable) :
    WritesOnly [.dict] s { s with dict := d, status := st, br := br, ct := ct } := by
  constructor <;> simp

theorem ctAddEffects_writesOnly {pre k : Nat} (h : ctAddEffects pre k s = .ok t) : WritesOnly [.dict] s t := by
  unfold ctAddEffects at h
  split at h
  · cases h
  · next q _ =>
    obtain ⟨d, size, next, lim, n, hadd⟩ := addEntry_shape (q.snoc (BitVec.ofNat 8 k)) s
    cases h
    exact hadd ▸ writesOnly_dict ..

theorem ctLookupEffects_writesOnly {code : Nat} (h : ctLookupEffects code s = .ok t) : WritesOnly [] s t := by
  unfold ctLookupEffects at h
  split at h
  · cases h
    exact writesOnly_registers ..
  · split at h
    · cases h
    · cases h
      exact writesOnly_registers ..

theorem rasterDecode_writesOnly (hl : s.decodeParamsLegal) (h : rasterDecode s = .ok t) :
    WritesOnly [.dict, .raster] s t := by
  obtain ⟨hf, _⟩ := rasterDecode_frame hl h
  exact ⟨hf.caps, hf.turns, hf.hostReads, fun _ => hf.cdata, fun _ => hf.ctab, by simp, by simp, fun _ => hf.canvas,
    fun _ => hf.prev, fun _ => hf.snap⟩

theorem deinterlace_writesOnly (h : deinterlace s = .ok t) : WritesOnly [.raster] s t := by
  rw [(deinterlace_spec h).1]
  constructor <;> simp

theorem compReset_writesOnly (s : State) : WritesOnly [.canvas, .prev, .snap] s (compReset s) := by
  constructor <;> simp [compReset]

theorem compDraw_writesOnly (h : compDraw s = .ok t) : WritesOnly [.canvas, .prev] s t := by
  obtain ⟨p, cv, _, _, rfl⟩ := compDraw_eq_ok.mp h
  constructor <;> simp

theorem compSnap_writesOnly (h : compSnap s = .ok t) : WritesOnly [.snap] s t := by
  obtain ⟨p, _, rfl⟩ := compSnap_eq_ok.mp h
  constructor <;> simp

theorem compDispose_writesOnly (h : compDispose s = .ok t) : WritesOnly [.canvas] s t := by
  rcases compDispose_eq_ok.mp h with ⟨_, rfl⟩ | ⟨_, p, _, rfl⟩ | ⟨_, _, rfl⟩
  · constructor <;> simp [clearRectangle]
  · constructor <;> simp
  · exact .refl _ _

/-- FRAME writes what its four parts write (R116). -/
theorem frameEffects_writesOnly (hl : s.decodeParamsLegal) (h : frameEffects s = .ok t) :
    WritesOnly (writesOf .frame) s t := by
  obtain ⟨t₁, h₁, t₂, h₂, t₃, h₃, h₄⟩ := frameEffects_eq_ok.mp h
  have w₁ := (rasterDecode_writesOnly hl h₁).mono (ws' := writesOf .frame) (by decide)
  have w₂ := (compDraw_writesOnly h₂).mono (ws' := writesOf .frame) (by decide)
  have w₃ := (compSnap_writesOnly h₃).mono (ws' := writesOf .frame) (by decide)
  have w₄ := (compDispose_writesOnly h₄).mono (ws' := writesOf .frame) (by decide)
  exact ((w₁.trans w₂).trans w₃).trans w₄

end

/-- The effects of every command write its memories only (R63). -/
theorem effects_writesOnly {i : Instr} {s t : State} (hnot : refusalOf i s = none) (h : effects i s = .ok t) :
    WritesOnly (writesOf i) s t := by
  cases i with
  | nop => cases h; exact .refl _ _
  | softReset => cases h; exact softReset_writesOnly s
  | brInit | brSetnb | ctClear => cases h; exact writesOnly_registers ..
  | brRead => exact readState_writesOnly h
  | ctInit => cases h; exact writesOnly_dict ..
  | ctAdd => exact ctAddEffects_writesOnly h
  | ctLookup => exact ctLookupEffects_writesOnly h
  | rastDecode => exact rasterDecode_writesOnly (rastDecode_passed hnot) h
  | rastDeinterlace => exact deinterlace_writesOnly h
  | compReset => cases h; exact compReset_writesOnly s
  | compDraw => exact compDraw_writesOnly h
  | compSnap => exact compSnap_writesOnly h
  | compDispose => exact compDispose_writesOnly h
  | frame => exact frameEffects_writesOnly (frame_passed hnot) h

/-- A command that answers, refused or completed, has written its memories only. -/
theorem exec_writesOnly {i : Instr} {s t : State} (h : exec i s = .next t) : WritesOnly (writesOf i) s t := by
  rcases exec_eq_next.mp h with ⟨e, _, rfl⟩ | ⟨hnot, u, hu, rfl⟩
  · exact writesOnly_registers ..
  · exact (effects_writesOnly hnot hu).trans (writesOnly_registers ..)

/-- Settles O56: the memories not in `writesOf` stand. -/
theorem commandsWriteOnlyTheirMemories : Obligations.CommandsWriteOnlyTheirMemories := by
  intro i s t h
  have w := exec_writesOnly h
  refine ⟨w.cdata (cdata_notMem_writesOf i), w.ctab (ctab_notMem_writesOf i), w.caps, w.turns, w.hostReads,
    fun hInit hAdd hDecode hFrame => w.dict ?dict, fun hDecode hDeint hFrame => w.raster ?raster,
    fun hReset hDraw hDispose hFrame => w.canvas ?canvas, fun hReset hDraw hFrame => w.prev ?prev,
    fun hReset hSnap hFrame => w.snap ?snap⟩
  case dict => simp [dict_mem_writesOf, *]
  case raster => simp [raster_mem_writesOf, *]
  case canvas => simp [canvas_mem_writesOf, *]
  case prev => simp [prev_mem_writesOf, *]
  case snap => simp [snap_mem_writesOf, *]

end Sys2Proof.Machine
end

section
/-! Proofs of the encoding family, part 1: command words and the opcode map (30_encoding.md sections 1 to 3). -/

namespace Sys2Proof

/-! ### Words and commands -/

/-- A word whose number is a command's operand fields plus its opcode is the command's encoding (R65). -/
theorem encode_eq_of_toNat {w : Word} {i : Instr} (h : w.toNat = i.operandBits + i.opcode) : encode i = w := by
  rw [encode, ← h, BitVec.ofNat_toNat, BitVec.setWidth_eq]

/-- The decoder reads `i` from exactly one word, the encoding of `i`, and from none when `i` has no encoding (R65 to R68). -/
theorem decode_eq_ok_iff {w : Word} {i : Instr} : decode w = .ok i ↔ i.wellFormed = true ∧ encode i = w := by
  constructor
  · intro h
    obtain ⟨hwf, hw⟩ := decode_eq_ok h
    exact ⟨hwf, encode_eq_of_toNat hw⟩
  · rintro ⟨hwf, rfl⟩
    exact Machine.decode_encode hwf

/-- Settles O1: the word of a well-formed command holds its opcode and its operands (`decode_encode`). -/
theorem decodeOfEncodeIsTheCommand : Obligations.DecodeOfEncodeIsTheCommand :=
  fun _ hwf => Machine.decode_encode hwf

/-- Settles O2: the word's number is the sum of the command's operand fields and its opcode (`decode_eq_ok`). -/
theorem encodeOfDecodeIsTheWord : Obligations.EncodeOfDecodeIsTheWord :=
  fun _ _ h => decode_eq_ok_iff.mp h

/-- Settles O4: each word is decoded by computation. -/
theorem wordsOfTheSpecDecode : Obligations.WordsOfTheSpecDecode := by
  unfold Obligations.WordsOfTheSpecDecode
  decide

/-! ### The opcode map -/

/-- The lowest bit above the operand fields of a command's format: from there up the bits are reserved (R65). -/
def Instr.reservedFrom : Instr → Nat
  | .brSetnb _ => 12
  | .ctAdd _ _ => 28
  | .ctLookup _ => 20
  | .nop | .softReset | .brInit | .brRead | .ctInit | .ctClear | .rastDecode | .rastDeinterlace
  | .compReset | .compDraw | .compSnap | .compDispose | .frame => 8

/-- The mask of a command's format: the opcode byte and the reserved bits (R65, R67). -/
def Instr.mask (i : Instr) : Word := BitVec.ofNat 32 (2 ^ 32 - 2 ^ i.reservedFrom + 0xFF)

/-- The row of the opcode map a command belongs to. -/
def Instr.row (i : Instr) : OpcodeRow := ⟨i.mnemonic, BitVec.ofNat 32 i.opcode, i.mask⟩

/-- `i` with the operands that the fields of `w` hold (R65, R66). -/
def Instr.withOperandsOf (i : Instr) (w : Word) : Instr :=
  match i with
  | .brSetnb _ => .brSetnb (field w 11 8)
  | .ctAdd _ _ => .ctAdd (field w 19 8) (field w 27 20)
  | .ctLookup _ => .ctLookup (field w 19 8)
  | i => i

/-- The operands are no part of the row. -/
theorem Instr.row_withOperandsOf (i : Instr) (w : Word) : (i.withOperandsOf w).row = i.row := by cases i <;> rfl

/-- The opcode map has one row per constructor of `Instr`, in the order of R67. -/
theorem opcodeRows_eq_map_row :
    opcodeRows = [Instr.nop, .softReset, .brInit, .brSetnb 0, .brRead, .ctInit, .ctClear, .ctAdd 0 0, .ctLookup 0,
      .rastDecode, .rastDeinterlace, .compReset, .compDraw, .compSnap, .compDispose, .frame].map Instr.row := rfl

/-- Every row of the opcode map is a command's. -/
theorem exists_row_eq {r : OpcodeRow} (h : r ∈ opcodeRows) : ∃ i : Instr, i.row = r := by
  rw [opcodeRows_eq_map_row, List.mem_map] at h
  obtain ⟨i, _, hi⟩ := h
  exact ⟨i, hi⟩

/-- Every command's row is in the opcode map. -/
theorem Instr.row_mem (i : Instr) : i.row ∈ opcodeRows := by
  rw [opcodeRows_eq_map_row, List.mem_map]
  refine ⟨i.withOperandsOf 0, ?_, i.row_withOperandsOf 0⟩
  cases i <;> simp [Instr.withOperandsOf, field]

/-- The mnemonic names the row. -/
theorem row_eq_of_mnemonic_eq {r r' : OpcodeRow} (h : r ∈ opcodeRows) (h' : r' ∈ opcodeRows)
    (he : r.mnemonic = r'.mnemonic) : r = r' :=
  List.inj_on_of_nodup_map (show (opcodeRows.map OpcodeRow.mnemonic).Nodup by decide) h h' he

theorem Instr.opcode_lt (i : Instr) : i.opcode < 2 ^ 8 := by cases i <;> simp [Instr.opcode]

/-- The four formats of R65. -/
theorem Instr.reservedFrom_mem (i : Instr) : i.reservedFrom ∈ [8, 12, 20, 28] := by
  cases i <;> simp [Instr.reservedFrom]

/-- A mask holds the opcode byte and the reserved bits. -/
theorem Instr.mask_getLsbD (i : Instr) :
    ∀ b < 32, i.mask.getLsbD b = (decide (b < 8) || decide (i.reservedFrom ≤ b)) := by
  have h : ∀ k ∈ [8, 12, 20, 28], ∀ b < 32,
      (BitVec.ofNat 32 (2 ^ 32 - 2 ^ k + 0xFF)).getLsbD b = (decide (b < 8) || decide (k ≤ b)) := by decide
  exact h i.reservedFrom i.reservedFrom_mem

/-- A word selects a command's row when its low byte is the opcode and its reserved bits are 0 (R67). -/
theorem selects_row_iff (i : Instr) (w : Word) :
    w &&& i.row.mask = i.row.pattern ↔ w.toNat % 2 ^ 8 = i.opcode ∧ w.toNat / 2 ^ i.reservedFrom = 0 := by
  have hop := i.opcode_lt
  have hpat : i.row.pattern.toNat = i.opcode := by
    rw [Instr.row, BitVec.toNat_ofNat, Nat.mod_eq_of_lt (by omega)]
  have h8 : 8 ≤ i.reservedFrom := by
    have := i.reservedFrom_mem
    simp only [List.mem_cons, List.not_mem_nil, or_false] at this
    omega
  rw [and_mask_eq_iff w i.row.mask i.row.pattern i.reservedFrom h8 (hpat ▸ hop) i.mask_getLsbD, hpat]

/-- A word that selects a command's row decodes to the command with the word's operands. -/
theorem decode_of_selects {i : Instr} {w : Word} (h : w &&& i.row.mask = i.row.pattern) :
    decode w = .ok (i.withOperandsOf w) := by
  obtain ⟨hop, hreserved⟩ := (selects_row_iff i w).mp h
  obtain ⟨hwf, hw⟩ : (i.withOperandsOf w).wellFormed = true
      ∧ w.toNat = (i.withOperandsOf w).operandBits + (i.withOperandsOf w).opcode := by
    cases i <;>
      simp only [Instr.withOperandsOf, Instr.wellFormed, Instr.operandBits, Instr.opcode, Instr.reservedFrom, field,
        Bool.and_eq_true, decide_eq_true_eq, true_and] at hop hreserved ⊢ <;>
      omega
  exact decode_eq_ok_iff.mpr ⟨hwf, encode_eq_of_toNat hw⟩

/-- A word that decodes to a command selects the command's row. -/
theorem selects_of_decode {i : Instr} {w : Word} (h : decode w = .ok i) : w &&& i.row.mask = i.row.pattern := by
  obtain ⟨hwf, hw⟩ := decode_eq_ok h
  rw [selects_row_iff, hw]
  cases i <;>
    simp only [Instr.wellFormed, Instr.operandBits, Instr.opcode, Instr.reservedFrom, Bool.and_eq_true,
      decide_eq_true_eq] at hwf ⊢ <;>
    omega

/-- A row matches exactly the words that decode to its commands (R67). -/
theorem selects_iff_decode {r : OpcodeRow} (hr : r ∈ opcodeRows) (w : Word) :
    w &&& r.mask = r.pattern ↔ ∃ i, decode w = .ok i ∧ i.mnemonic = r.mnemonic := by
  constructor
  · intro h
    obtain ⟨i, rfl⟩ := exists_row_eq hr
    exact ⟨_, decode_of_selects h, congrArg OpcodeRow.mnemonic (i.row_withOperandsOf w)⟩
  · rintro ⟨i, hi, hm⟩
    rw [← row_eq_of_mnemonic_eq i.row_mem hr hm]
    exact selects_of_decode hi

/-- Settles O3: a row matches the words that decode to its commands; so two rows that match one word share the mnemonic of
the command it decodes to. -/
theorem opcodeRowsSelectTheDecodedCommand : Obligations.OpcodeRowsSelectTheDecodedCommand := by
  refine ⟨fun w r hr => selects_iff_decode hr w, fun w r hr r' hr' h h' => ?_⟩
  obtain ⟨i, hi, hm⟩ := (selects_iff_decode hr w).mp h
  obtain ⟨i', hi', hm'⟩ := (selects_iff_decode hr' w).mp h'
  obtain rfl : i = i' := Except.ok.inj (hi.symm.trans hi')
  exact row_eq_of_mnemonic_eq hr hr' (hm.symm.trans hm')

/-- A word that matches no row does not decode (R68). -/
theorem decode_eq_error_of_no_row {w : Word} (h : ∀ r ∈ opcodeRows, w &&& r.mask ≠ r.pattern) :
    ∃ e, decode w = .error e := by
  cases hd : decode w with
  | error e => exact ⟨e, rfl⟩
  | ok i => exact absurd (selects_of_decode hd) (h i.row i.row_mem)

end Sys2Proof
end

section
/-! Proofs of the encoding family, part 2: what the engine and the Host do with a command word (30_encoding.md R68, R71),
and the width of a decode's reads (R72). -/

namespace Sys2Proof.Machine

open Sys2Proof.Safety

/-! ### Illegal words -/

/-- Settles O5: the word does not decode, and the engine's turn refuses it. -/
theorem illegalWordIsRefused : Obligations.IllegalWordIsRefused := by
  intro s w ts hrows hp h
  obtain ⟨e, he⟩ := decode_eq_error_of_no_row hrows
  simp only [step_pending hp h, runWord, he, raiseErr_eq]

/-! ### The Host's `do X` -/

/-- A read of STATUS is recorded, whether or not a command is pending (R59). -/
theorem step_read_status {s : State} {ts : List Turn} (h : HostNext s (.read .reg 0x08 32) ts) :
    step s = .next { s with turns := ts, hostReads := s.statusWord :: s.hostReads } := by
  rw [step_host h, hostTurn_read_status]
  rfl

/-- The polls of a `wait` record STATUS as it is and change nothing else (R59, R71). -/
theorem reachable_polls {s : State} {ts : List Turn} (n : Nat) {u : State} (hu : Reachable s u)
    (ht : u.turns = List.replicate n (.host (.read .reg 0x08 32)) ++ ts) :
    Reachable s { u with turns := ts, hostReads := List.replicate n u.statusWord ++ u.hostReads } := by
  induction n generalizing u with
  | zero =>
    obtain rfl : u.turns = ts := ht
    exact hu
  | succ n ih =>
    have h := ih (hu.step (step_read_status ht)) rfl
    have hrec : List.replicate n u.statusWord ++ u.statusWord :: u.hostReads
        = List.replicate (n + 1) u.statusWord ++ u.hostReads := by
      rw [List.replicate_succ', List.append_assoc, List.singleton_append]
    exact hrec ▸ h

/-- A `wait` on a pending command: the polls record STATUS, the engine's turn runs the command, and the last read records
the STATUS it leaves (R17, R71). -/
theorem reachable_wait {s u t : State} {w : Word} {i : Instr} {polls : Nat} {ts : List Turn} (hu : Reachable s u)
    (hp : u.pending = some w) (hd : decode w = .ok i) (ht : u.turns = hostWait polls ++ ts)
    (hexec : exec i { u with
      turns := hostRd .status ++ ts, hostReads := List.replicate polls u.statusWord ++ u.hostReads } = .next t) :
    Reachable s { t with turns := ts, hostReads := t.statusWord :: t.hostReads } := by
  have hpoll := reachable_polls polls hu (ts := .engine :: (hostRd .status ++ ts)) (by
    rw [ht, hostWait, List.append_assoc, List.append_assoc]
    rfl)
  have hrun : Reachable s t := by
    refine hpoll.step ((step_exec ?_ hd (.inr rfl)).trans hexec)
    exact hp
  exact hrun.step (step_read_status (exec_writesOnly hexec).turns)

/-- Settles O12: the CMD write issues the command, and the `wait` after it runs it; the polls showed the BUSY of the issued
state, and the last one the BUSY and DONE of a completed state. -/
theorem doRunsOneCommandToCompletion : Obligations.DoRunsOneCommandToCompletion := by
  rintro s issued t i polls ts hb hwf hturns rfl hexec
  obtain ⟨hbusy, hdone⟩ := (everyCommandCompletes i _).1 t hexec
  obtain ⟨hflagBusy, hflagDone, _⟩ := statusWord_flags t
  have hissue := Reachable.start.step (cmdWriteIssuesTheCommand s (encode i) (hostWait polls ++ ts) hb hturns)
  exact ⟨(statusWord_flags _).1, hflagBusy.trans hbusy, hflagDone.trans hdone,
    reachable_wait hissue rfl (decode_encode hwf) rfl hexec⟩

/-! ### The width of a decode's reads -/

/-- A code just read leaves the reader's width and the Code Table alone (R77). -/
theorem readCode_width {s t : State} {r : ReadResult} (h : readCode s = .ok (r, t)) :
    t.br.nbits = s.br.nbits ∧ t.ct = s.ct := by
  rcases readCode_cases h with ⟨_, _, rfl⟩ | ⟨_, _, _, _, _, _, rfl⟩ <;> exact ⟨rfl, rfl⟩

/-- A turn of the decode loop that goes on has read a code and done what the code asks (R93). -/
theorem decodeTurn_eq_more {s t : State} (h : decodeTurn s = .ok (.more t)) :
    ∃ c u, readCode s = .ok (.code c, u) ∧ codeStep c u = .ok (.more t) := by
  unfold decodeTurn at h
  split at h
  · cases h
  · cases h
  · exact ⟨_, _, ‹_›, h⟩

/-- A code that the loop goes on from keeps the reader's width equal to codeSize: a CLEAR sets both, and an added entry
changes both (R72, R84, R96). -/
theorem codeStep_width {c : Code} {s t : State} (hs : s.br.nbits = s.ct.codeSize)
    (h : codeStep c s = .ok (.more t)) : t.br.nbits = t.ct.codeSize := by
  rcases codeStep_cases h with ⟨_, ht⟩ | ⟨_, ht, _⟩ | ⟨_, _, q, u, hu, ht⟩
  · cases ht
    rfl
  · cases ht
  · obtain ⟨_, rfl⟩ := emit_eq_some.mp hu
    rcases ht with ht | ⟨e, k, _, _, _, ht⟩ <;> cases ht
    · exact hs
    · exact addEntry_nbits hs

/-- Settles O43: setup makes the two equal, and a turn reads at that width and keeps them equal. -/
theorem decodeReadsAtTheCurrentWidth : Obligations.DecodeReadsAtTheCurrentWidth := by
  refine ⟨fun s => ⟨rfl, rfl⟩, fun s t hs h => ?_⟩
  obtain ⟨c, u, hread, hstep⟩ := decodeTurn_eq_more h
  obtain ⟨hn, hct⟩ := readCode_width hread
  exact codeStep_width (by rw [hn, hct, hs]) hstep

end Sys2Proof.Machine
end

section
/-! Proofs of the Bit Reader family, part 1: BR_INIT, BR_SETNB and BR_READ (40_bitreader.md section 2). -/

namespace Sys2Proof.Machine

open Sys2Proof.Safety

section
variable {i : Instr} {s : State}

/-- A command that a check of R124 refuses. -/
theorem exec_of_refusal {e : ErrCode} (h : refusalOf i s = some e) : exec i s = .next (refusedState e s) :=
  exec_eq_next.mpr (.inl ⟨e, h, rfl⟩)

/-- A command that passes its checks and whose effects answer. -/
theorem exec_of_effects {t : State} (hnot : refusalOf i s = none) (h : effects i s = .ok t) :
    exec i s = .next (doneState t) :=
  exec_eq_next.mpr (.inr ⟨hnot, t, h, rfl⟩)

/-- BR_READ, of a ready reader with a width, completes in the state its read leaves (R81). -/
theorem exec_brRead_of_readCode {r : ReadResult} {t : State} (hrdy : s.status.brRdy = true) (hn : s.br.nbits ≠ 0)
    (h : readCode s = .ok (r, t)) : exec .brRead s = .next (doneState t) :=
  exec_of_effects (by simp [refusalOf, hrdy, hn]) (by simp [effects, readState, h])

end

/-- Settles O24: the length is the only check, and the effects are `brInit`. -/
theorem brInitLatchesTheLength : Obligations.BrInitLatchesTheLength :=
  ⟨rfl, fun _ => ⟨fun hle => exec_of_effects (if_neg (Nat.not_lt.mpr hle)) rfl, fun hgt => exec_of_refusal (if_pos hgt)⟩⟩

/-- Settles O25: the word is the operand field plus the opcode, and the width is the only check. -/
theorem brSetnbSetsTheWidth : Obligations.BrSetnbSetsTheWidth := by
  intro nb _
  have hword : encode (.brSetnb nb) = BitVec.ofNat 32 (0x11 + nb * 2 ^ 8) :=
    congrArg (BitVec.ofNat 32) (Nat.add_comm _ _)
  exact ⟨hword, fun _ => ⟨fun hlegal => exec_of_effects (if_neg (by omega)) rfl,
    fun hillegal => exec_of_refusal (if_pos hillegal)⟩⟩

/-- Settles O26: the window is read, and the bits taken from it are the stream's from the cursor on
(`windowBits_streamBit`). -/
theorem brReadReturnsTheNextStreamBits : Obligations.BrReadReturnsTheNextStreamBits := by
  intro s hrdy hpos hmax hlt hwritten
  obtain ⟨win, hwin⟩ := readerWindow_ok_of_written hlt hwritten
  exact ⟨windowBits win (s.br.cursor % 8) s.br.nbits,
    exec_brRead_of_readCode hrdy (Nat.ne_of_gt hpos) (readCode_ok hlt hwin), windowBits_streamBit hwin hmax⟩

/-- Settles O27: the read is out of range, and leaves `withOob`. -/
theorem brReadOutOfRangeSetsOob : Obligations.BrReadOutOfRangeSetsOob :=
  fun _ hrdy hn hge => exec_brRead_of_readCode hrdy hn (readCode_oob hge)

end Sys2Proof.Machine
end

section
/-! Proofs of the Bit Reader family, part 2: which commands write which registers (40_bitreader.md section 2;
41_codetable.md section 2; 42_rasterizer.md section 4; 43_compositor.md section 2). -/

namespace Sys2Proof.Machine

open Sys2Proof.Safety

/-- The registers, and the fields of STATUS, that the same commands write; each unit's flags stand with its registers.
BUSY, DONE and ERR, which every command may write, are in no group. -/
inductive RegGroup where
  /-- the Host's registers of R22 to R27, and OVR -/
  | host
  /-- COMP_CSIZE and COMP_RDY -/
  | compositor
  /-- RAST_OUTPOS, RAST_PREV and END_REASON -/
  | rasterizer
  /-- BR_LEN and BR_RDY -/
  | readerLength
  /-- BR_CURSOR, BR_DATA and BR_OOB -/
  | readerPosition
  /-- BR_NBITS -/
  | readerWidth
  /-- CT_CFG and CT_RDY -/
  | tableConfig
  /-- CT_CODESIZE, CT_NEXTCODE and CT_LIMIT -/
  | tableCounts
  /-- CT_LOOKUP -/
  | tableLookup

/-- The type of a group's contents. -/
abbrev RegGroup.Content : RegGroup → Type
  | .host => Size × Pos × Size × FrCtrl × Word × BitVec 9 × Bool
  | .compositor => Size × Bool
  | .rasterizer => Rasterizer × EndReason
  | .readerLength => Nat × Bool
  | .readerPosition => Nat × Code × Bool
  | .readerWidth => Nat
  | .tableConfig => Nat × Nat × Bool
  | .tableCounts => Nat × Nat × Nat
  | .tableLookup => Lookup

/-- What a group holds in the state `s`. -/
def RegGroup.content (s : State) : (g : RegGroup) → g.Content
  | .host => (s.canvasSize, s.frPos, s.frSize, s.frCtrl, s.frDlen, s.numColors, s.status.ovr)
  | .compositor => (s.compSize, s.status.compRdy)
  | .rasterizer => (s.rast, s.status.endReason)
  | .readerLength => (s.br.len, s.status.brRdy)
  | .readerPosition => (s.br.cursor, s.br.data, s.status.brOob)
  | .readerWidth => s.br.nbits
  | .tableConfig => (s.ct.minCode, s.ct.numColors, s.status.ctRdy)
  | .tableCounts => (s.ct.codeSize, s.ct.nextCode, s.ct.limit)
  | .tableLookup => s.ct.lookup

/-- The groups a command may write: the "state written" of R79 to R118. -/
def regsOf : Instr → List RegGroup
  | .softReset => [.host, .compositor, .rasterizer, .readerLength, .readerPosition, .readerWidth, .tableConfig,
      .tableCounts, .tableLookup]
  | .brInit => [.readerLength, .readerPosition]
  | .brSetnb _ => [.readerWidth]
  | .brRead => [.readerPosition]
  | .ctInit => [.readerWidth, .tableConfig, .tableCounts]
  | .ctClear | .ctAdd _ _ => [.readerWidth, .tableCounts]
  | .ctLookup _ => [.tableLookup]
  | .rastDecode | .frame => [.rasterizer, .readerLength, .readerPosition, .readerWidth, .tableConfig, .tableCounts]
  | .compReset => [.compositor]
  | .nop | .rastDeinterlace | .compDraw | .compSnap | .compDispose => []

/-! The writers of each group. -/

section
variable {i : Instr}

theorem host_mem_regsOf : .host ∈ regsOf i ↔ i = .softReset := by
  cases i <;> simp [regsOf]

theorem compositor_mem_regsOf : .compositor ∈ regsOf i ↔ i = .softReset ∨ i = .compReset := by
  cases i <;> simp [regsOf]

theorem rasterizer_mem_regsOf : .rasterizer ∈ regsOf i ↔ i = .softReset ∨ i = .rastDecode ∨ i = .frame := by
  cases i <;> simp [regsOf]

theorem readerLength_mem_regsOf :
    .readerLength ∈ regsOf i ↔ i = .softReset ∨ i = .brInit ∨ i = .rastDecode ∨ i = .frame := by
  cases i <;> simp [regsOf]

theorem readerPosition_mem_regsOf :
    .readerPosition ∈ regsOf i ↔ i = .softReset ∨ i = .brInit ∨ i = .brRead ∨ i = .rastDecode ∨ i = .frame := by
  cases i <;> simp [regsOf]

theorem readerWidth_mem_regsOf :
    .readerWidth ∈ regsOf i ↔ i = .softReset ∨ (∃ nb, i = .brSetnb nb) ∨ i = .ctInit ∨ i = .ctClear
      ∨ (∃ pre k, i = .ctAdd pre k) ∨ i = .rastDecode ∨ i = .frame := by
  cases i <;> simp [regsOf]

theorem tableConfig_mem_regsOf :
    .tableConfig ∈ regsOf i ↔ i = .softReset ∨ i = .ctInit ∨ i = .rastDecode ∨ i = .frame := by
  cases i <;> simp [regsOf]

theorem tableCounts_mem_regsOf :
    .tableCounts ∈ regsOf i ↔ i = .softReset ∨ i = .ctInit ∨ i = .ctClear ∨ (∃ pre k, i = .ctAdd pre k)
      ∨ i = .rastDecode ∨ i = .frame := by
  cases i <;> simp [regsOf]

theorem tableLookup_mem_regsOf : .tableLookup ∈ regsOf i ↔ i = .softReset ∨ ∃ code, i = .ctLookup code := by
  cases i <;> simp [regsOf]

end

/-- From `s` to `t` no register group but those in `gs` is written. -/
def WritesOnlyRegs (gs : List RegGroup) (s t : State) : Prop := ∀ g ∉ gs, g.content t = g.content s

namespace WritesOnlyRegs

variable {gs : List RegGroup} {s t u : State}

theorem refl (gs : List RegGroup) (s : State) : WritesOnlyRegs gs s s := fun _ _ => rfl

theorem trans (h : WritesOnlyRegs gs s t) (k : WritesOnlyRegs gs t u) : WritesOnlyRegs gs s u :=
  fun g hg => (k g hg).trans (h g hg)

end WritesOnlyRegs

/-! ### The effects -/

section
variable {s t : State}

/-- The state a read leaves, when it answers. -/
theorem readState_eq_ok {r : Except Fault (ReadResult × State)} : readState r = .ok t ↔ ∃ x, r = .ok (x, t) := by
  cases r <;> simp [readState, Prod.ext_iff]

/-- The memories hold no register. -/
theorem writesOnlyRegs_memories {gs : List RegGroup} {raster : Memory RasterEntry} {canvas prev snap : Memory Pixel} :
    WritesOnlyRegs gs s { s with raster := raster, canvas := canvas, prev := prev, snap := snap } := by
  rintro ⟨⟩ _ <;> rfl

/-- Completion writes BUSY and DONE alone (R17). -/
theorem doneState_writesOnlyRegs {gs : List RegGroup} : WritesOnlyRegs gs s (doneState s) := by
  rintro ⟨⟩ _ <;> rfl

/-- A refusal writes BUSY, DONE and ERR alone (R123). -/
theorem refusedState_writesOnlyRegs {gs : List RegGroup} {e : ErrCode} :
    WritesOnlyRegs gs s (refusedState e s) := by
  rintro ⟨⟩ _ <;> rfl

/-- The fields `DecodeFrame` names make up the groups that no decode writes (R105). -/
theorem DecodeFrame.writesOnlyRegs (h : DecodeFrame s t) : WritesOnlyRegs (regsOf .rastDecode) s t := by
  rintro ⟨⟩ hg <;> simp [regsOf] at hg
  case host =>
    simp only [RegGroup.content, h.canvasSize, h.frPos, h.frSize, h.frCtrl, h.frDlen, h.numColors, h.ovr]
  case compositor => simp only [RegGroup.content, h.compSize, h.compRdy]
  case tableLookup => exact h.lookup

theorem decodeSetup_writesOnlyRegs (s : State) : WritesOnlyRegs (regsOf .rastDecode) s (decodeSetup s) := by
  rintro ⟨⟩ hg <;> simp [regsOf] at hg <;> rfl

theorem rasterDecode_writesOnlyRegs (hl : s.decodeParamsLegal) (h : rasterDecode s = .ok t) :
    WritesOnlyRegs (regsOf .rastDecode) s t :=
  (decodeSetup_writesOnlyRegs s).trans (rasterDecode_frame hl h).1.writesOnlyRegs

theorem readState_writesOnlyRegs (h : readState (readCode s) = .ok t) : WritesOnlyRegs (regsOf .brRead) s t := by
  obtain ⟨r, hread⟩ := readState_eq_ok.mp h
  rcases readCode_cases hread with ⟨_, _, rfl⟩ | ⟨_, _, _, _, _, _, rfl⟩ <;>
    rintro ⟨⟩ hg <;> simp [regsOf] at hg <;> rfl

theorem ctAddEffects_writesOnlyRegs {pre k : Nat} (h : ctAddEffects pre k s = .ok t) :
    WritesOnlyRegs (regsOf (.ctAdd pre k)) s t := by
  unfold ctAddEffects at h
  split at h
  · cases h
  · next q _ =>
    obtain ⟨d, size, next, lim, n, hadd⟩ := addEntry_shape (q.snoc (BitVec.ofNat 8 k)) s
    cases h
    rw [hadd]
    rintro ⟨⟩ hg <;> simp [regsOf] at hg <;> rfl

/-- Whatever CT_LOOKUP finds, it writes the CT_LOOKUP register alone (R89). -/
theorem ctLookupEffects_eq_ok {code : Nat} (h : ctLookupEffects code s = .ok t) : ∃ l, t = withLookup l s := by
  unfold ctLookupEffects at h
  split at h
  · cases h
    exact ⟨_, rfl⟩
  · split at h
    · cases h
    · cases h
      exact ⟨_, rfl⟩

theorem ctLookupEffects_writesOnlyRegs {code : Nat} (h : ctLookupEffects code s = .ok t) :
    WritesOnlyRegs (regsOf (.ctLookup code)) s t := by
  obtain ⟨l, rfl⟩ := ctLookupEffects_eq_ok h
  rintro ⟨⟩ hg <;> simp [regsOf] at hg <;> rfl

theorem deinterlace_writesOnlyRegs (gs : List RegGroup) (h : deinterlace s = .ok t) : WritesOnlyRegs gs s t := by
  rw [(deinterlace_spec h).1]
  exact writesOnlyRegs_memories

theorem compDraw_writesOnlyRegs (gs : List RegGroup) (h : compDraw s = .ok t) : WritesOnlyRegs gs s t := by
  obtain ⟨p, cv, _, _, rfl⟩ := compDraw_eq_ok.mp h
  exact writesOnlyRegs_memories

theorem compSnap_writesOnlyRegs (gs : List RegGroup) (h : compSnap s = .ok t) : WritesOnlyRegs gs s t := by
  obtain ⟨p, _, rfl⟩ := compSnap_eq_ok.mp h
  exact writesOnlyRegs_memories

theorem compDispose_writesOnlyRegs (gs : List RegGroup) (h : compDispose s = .ok t) : WritesOnlyRegs gs s t := by
  rcases compDispose_eq_ok.mp h with ⟨_, rfl⟩ | ⟨_, p, _, rfl⟩ | ⟨_, _, rfl⟩
  · exact writesOnlyRegs_memories
  · exact writesOnlyRegs_memories
  · exact .refl gs _

/-- FRAME writes the registers its decode writes (R116). -/
theorem frameEffects_writesOnlyRegs (hl : s.decodeParamsLegal) (h : frameEffects s = .ok t) :
    WritesOnlyRegs (regsOf .frame) s t := by
  obtain ⟨t₁, h₁, t₂, h₂, t₃, h₃, h₄⟩ := frameEffects_eq_ok.mp h
  exact (((rasterDecode_writesOnlyRegs hl h₁).trans (compDraw_writesOnlyRegs _ h₂)).trans
    (compSnap_writesOnlyRegs _ h₃)).trans (compDispose_writesOnlyRegs _ h₄)

end

/-- The effects of every command write its register groups only. -/
theorem effects_writesOnlyRegs {i : Instr} {s t : State} (hnot : refusalOf i s = none) (h : effects i s = .ok t) :
    WritesOnlyRegs (regsOf i) s t := by
  cases i with
  | nop => cases h; exact .refl _ _
  | softReset | brInit | brSetnb | ctInit | ctClear | compReset =>
    cases h
    rintro ⟨⟩ hg <;> simp [regsOf] at hg <;> rfl
  | brRead => exact readState_writesOnlyRegs h
  | ctAdd => exact ctAddEffects_writesOnlyRegs h
  | ctLookup => exact ctLookupEffects_writesOnlyRegs h
  | rastDecode => exact rasterDecode_writesOnlyRegs (rastDecode_passed hnot) h
  | rastDeinterlace => exact deinterlace_writesOnlyRegs _ h
  | compDraw => exact compDraw_writesOnlyRegs _ h
  | compSnap => exact compSnap_writesOnlyRegs _ h
  | compDispose => exact compDispose_writesOnlyRegs _ h
  | frame => exact frameEffects_writesOnlyRegs (frame_passed hnot) h

/-- A command that answers, refused or completed, has written its register groups only. -/
theorem exec_writesOnlyRegs {i : Instr} {s t : State} (h : exec i s = .next t) : WritesOnlyRegs (regsOf i) s t := by
  rcases exec_eq_next.mp h with ⟨e, _, rfl⟩ | ⟨hnot, u, hu, rfl⟩
  · exact refusedState_writesOnlyRegs
  · exact (effects_writesOnlyRegs hnot hu).trans doneState_writesOnlyRegs

/-- Settles O57: the register groups not in `regsOf` stand. -/
theorem commandsWriteOnlyTheirRegisters : Obligations.CommandsWriteOnlyTheirRegisters := by
  intro i s t hnot h
  have w := exec_writesOnlyRegs h
  have hhost := w .host (by simpa only [host_mem_regsOf])
  simp only [RegGroup.content, Prod.mk.injEq] at hhost
  obtain ⟨hsize, hpos, hframe, hctrl, hlen, hcolors, hovr⟩ := hhost
  refine ⟨hsize, hpos, hframe, hctrl, hlen, hcolors, hovr, fun hReset => ?compositor, fun hDecode hFrame => ?rasterizer,
    fun hInit hDecode hFrame => ?readerLength, fun hInit hRead hDecode hFrame => ?readerPosition,
    fun hSet hInit hClear hAdd hDecode hFrame => ?readerWidth, fun hInit hDecode hFrame => ?tableConfig,
    fun hInit hClear hAdd hDecode hFrame => ?tableCounts, fun hLookup => ?tableLookup⟩
  case compositor => simpa [RegGroup.content] using w .compositor (by simp [compositor_mem_regsOf, *])
  case rasterizer => simpa [RegGroup.content] using w .rasterizer (by simp [rasterizer_mem_regsOf, *])
  case readerLength => simpa [RegGroup.content] using w .readerLength (by simp [readerLength_mem_regsOf, *])
  case readerPosition => simpa [RegGroup.content] using w .readerPosition (by simp [readerPosition_mem_regsOf, *])
  case readerWidth => exact w .readerWidth (by simp [readerWidth_mem_regsOf, *])
  case tableConfig => simpa [RegGroup.content] using w .tableConfig (by simp [tableConfig_mem_regsOf, *])
  case tableCounts => simpa [RegGroup.content] using w .tableCounts (by simp [tableCounts_mem_regsOf, *])
  case tableLookup => exact w .tableLookup (by simp [tableLookup_mem_regsOf, *])

end Sys2Proof.Machine
end

section
/-! Proofs of the Code Table family, part 1: every step keeps the machine's invariant (41_codetable.md R82, R85;
20_memory.md R47, R50; 10_state.md R15, R28 to R37; 43_compositor.md R112). -/

namespace Sys2Proof.Machine

open Sys2Proof.Safety

/-! ### Memories through writes -/

section
variable {α : Type} {m m' : Memory α} {cap n : Nat}

/-- A write below the capacity keeps a memory canonical and inside it. -/
theorem memoryOk_write {i : Nat} (h : MemoryOk m cap) (v : α) (hi : i < cap) : MemoryOk (m.write i v) cap :=
  ⟨Memory.write_wf i v h.sorted, Memory.write_within v h.bounded hi⟩

theorem memoryOk_of_writesBelow (h : MemoryOk m cap) (hw : Memory.WritesBelow n m m') (hn : n ≤ cap) :
    MemoryOk m' cap :=
  ⟨hw.wf h.sorted, hw.within h.bounded hn⟩

theorem writtenBelow_write (h : WrittenBelow m n) (i : Nat) (v : α) : WrittenBelow (m.write i v) n :=
  fun j hj => Memory.isSome_read_writeAll [(i, v)] (h j hj)

theorem writtenBelow_fill (m : Memory α) (n : Nat) (v : α) : WrittenBelow (m.fill n v) n := by
  intro j hj
  simp [Written, Memory.read_fill, hj]

end

/-! ### What the invariant does not look at -/

section
variable {s t : State}

/-- The pending command and DONE, OVR and ERR concern only the clause about a busy machine (R15, R17). -/
theorem inv_withCommand (h : Inv s) {p : Option Word} {done ovr : Bool} {err : ErrCode}
    (hc : p.isSome = true → done = false ∧ err = .none) :
    Inv { s with pending := p, status := { s.status with done := done, ovr := ovr, err := err } } :=
  ⟨{ h.memories with }, { h.reader with }, { h.counts with }, h.table, fun hr => { h.canvas hr with }, hc⟩

/-- The registers the Host writes, its record of reads and the turns to come are no part of the invariant. -/
theorem inv_withHost (h : Inv s) (size : Size) (pos : Pos) (frame : Size) (ctrl : FrCtrl) (len : Word)
    (colors : BitVec 9) (ts : List Turn) (rs : List Word) :
    Inv { s with
      canvasSize := size, frPos := pos, frSize := frame, frCtrl := ctrl, frDlen := len, numColors := colors
      turns := ts, hostReads := rs } :=
  ⟨{ h.memories with }, { h.reader with }, { h.counts with }, h.table, fun hr => { h.canvas hr with }, h.command⟩

/-- The memories but DICT concern only the clauses about the memories and the canvas. -/
theorem inv_withMemories (h : Inv s) {cdata : Memory Byte} {ctab : Memory Rgb} {raster : Memory RasterEntry}
    {canvas prev snap : Memory Pixel}
    (hm : MemoriesOk { s with
      cdata := cdata, ctab := ctab, raster := raster, canvas := canvas, prev := prev, snap := snap })
    (hc : s.status.compRdy = true → CanvasOk { s with
      cdata := cdata, ctab := ctab, raster := raster, canvas := canvas, prev := prev, snap := snap }) :
    Inv { s with
      cdata := cdata, ctab := ctab, raster := raster, canvas := canvas, prev := prev, snap := snap } :=
  ⟨hm, { h.reader with }, { h.counts with }, h.table, hc, h.command⟩

theorem inv_doneState (h : Inv s) : Inv (doneState s) := inv_withCommand h nofun

theorem inv_refusedState (h : Inv s) (e : ErrCode) : Inv (refusedState e s) := inv_withCommand h nofun

theorem inv_withTurns (h : Inv s) (ts : List Turn) : Inv { s with turns := ts } := inv_withHost h _ _ _ _ _ _ ts _

/-- An issue clears DONE and ERR, and an overrun leaves them (R15, R16). -/
theorem inv_issue (h : Inv s) (w : Word) : Inv (s.issue w) := by
  unfold State.issue
  split
  · exact inv_withCommand h h.command
  · exact inv_withCommand h fun _ => ⟨rfl, rfl⟩

/-! ### The Host's turn -/

theorem inv_writeReg (h : Inv s) (r : RegName) (v : Word) : Inv (writeReg s r v) := by
  cases r
  case cmd => exact inv_issue h v
  all_goals exact inv_withHost h _ _ _ _ _ _ _ _

theorem inv_writeRegAt (h : Inv s) (i : Nat) (v : Word) : Inv (writeRegAt s i v) := by
  unfold writeRegAt
  split
  · exact inv_writeReg h _ v
  · exact h

/-- An admitted write stores inside the capacity, and leaves written what was written (R48). -/
theorem inv_hostWrite (h : Inv s) {sp : Space} {i n : Nat} (ha : HostMayAccess s sp i n) (v : Word) :
    Inv (hostWrite s sp i v) := by
  have hm := h.memories
  have hc := h.canvas
  cases sp with
  | reg => exact inv_writeRegAt h i v
  | cdata => exact inv_withMemories h { hm with cdata := memoryOk_write hm.cdata _ ha.1 } fun hr => { hc hr with }
  | ctab => exact inv_withMemories h { hm with ctab := memoryOk_write hm.ctab _ ha.1 } fun hr => { hc hr with }
  | raster => exact inv_withMemories h { hm with raster := memoryOk_write hm.raster _ ha.1 } fun hr => { hc hr with }
  | canvas =>
    exact inv_withMemories h { hm with canvas := memoryOk_write hm.canvas _ ha.1 }
      fun hr => { hc hr with canvas := writtenBelow_write (hc hr).canvas i v }
  | prev =>
    exact inv_withMemories h { hm with prev := memoryOk_write hm.prev _ ha.1 }
      fun hr => { hc hr with prev := writtenBelow_write (hc hr).prev i v }
  | snap =>
    exact inv_withMemories h { hm with snap := memoryOk_write hm.snap _ ha.1 }
      fun hr => { hc hr with snap := writtenBelow_write (hc hr).snap i v }
  | dict => exact ha.elim

theorem inv_hostPerform {a : HostAccess} (h : Inv s) (ha : a.isAdmitted s = true) (ht : hostPerform s a = .next t) :
    Inv t := by
  cases a with
  | write sp i n v =>
    cases ht
    exact inv_hostWrite h (admitted_iff.mp ha) v
  | read sp i n =>
    simp only [hostPerform] at ht
    split at ht
    · cases ht
      exact inv_withHost h _ _ _ _ _ _ _ _
    · cases ht

/-- The Host's turn, when it is a move, makes an admitted access (R48, R59). -/
theorem inv_hostTurn {a : HostAccess} (h : Inv s) (ht : hostTurn a s = .next t) : Inv t := by
  unfold hostTurn at ht
  split at ht
  · cases ht
  · split at ht
    · exact inv_hostPerform h ‹_› ht
    · cases ht

/-! ### The Bit Reader's commands -/

theorem inv_brInit (h : Inv s) (hl : s.lenFits) : Inv (brInit s) :=
  ⟨{ h.memories with }, ⟨h.reader.nbits, Nat.zero_le _, hl, s.frDlen.isLt⟩, { h.counts with }, h.table,
    fun hr => { h.canvas hr with }, h.command⟩

theorem inv_withWidth (h : Inv s) {nb : Nat} (hn : nb ≤ 12) : Inv { s with br := { s.br with nbits := nb } } :=
  ⟨{ h.memories with }, { h.reader with nbits := hn }, { h.counts with }, h.table, fun hr => { h.canvas hr with },
    h.command⟩

/-- A read that advances the cursor starts below the data's end, and moves it by at most 12 (R77). -/
theorem readCode_readerOk {r : ReadResult} (h : ReaderOk s) (ht : readCode s = .ok (r, t)) : ReaderOk t := by
  rcases readCode_cases ht with ⟨_, _, rfl⟩ | ⟨hlt, _, _, _, _, _, rfl⟩
  · exact { h with }
  · have hn : s.br.nbits ≤ 12 := h.nbits
    exact { h with cursor := by simp only; omega }

theorem inv_readState (h : Inv s) (ht : readState (readCode s) = .ok t) : Inv t := by
  obtain ⟨r, hread⟩ := readState_eq_ok.mp ht
  have hreader := readCode_readerOk h.reader hread
  rcases readCode_cases hread with ⟨_, _, rfl⟩ | ⟨_, _, _, _, _, _, rfl⟩ <;>
    exact ⟨{ h.memories with }, hreader, { h.counts with }, h.table, fun hr => { h.canvas hr with }, h.command⟩

/-! ### The Code Table's commands -/

/-- A table's counts fit the fields that show them (R32 to R35, R85). -/
theorem countsOk_of_table (h : TableOk s.ct s.dict) (ho : s.rast.outPos ≤ s.caps.rasterMax)
    (hs : s.rast.outPos < 2 ^ 32) : CountsOk s := by
  have hsize : s.ct.codeSize ≤ 12 := h.width ▸ Nat.min_le_left _ _
  have hpow : 2 ^ s.ct.codeSize ≤ 2 ^ 12 := Nat.pow_le_pow_right (by decide) hsize
  have hlimit := h.limit
  exact ⟨hsize, h.upper, by omega, h.minCode.2, legalColors_le h.colors, ho, hs⟩

/-- A command of the Code Table that leaves a table, DICT in its capacity and a legal width of the reader. -/
theorem inv_withTable (h : Inv s) {ct : CodeTable} {d : Memory Slot} {n : Nat} {rdy : Bool} (ht : TableOk ct d)
    (hd : MemoryOk d Config.dictSlots) (hn : n ≤ 12) :
    Inv { s with
      ct := ct, dict := d, br := { s.br with nbits := n }, status := { s.status with ctRdy := rdy } } :=
  ⟨{ h.memories with dict := hd }, { h.reader with nbits := hn },
    countsOk_of_table ht h.counts.outPos h.counts.outPosShown, fun _ => ht, fun hr => { h.canvas hr with }, h.command⟩

theorem ctInit_passed (h : refusalOf .ctInit s = none) : legalMinCode s.inMinCode ∧ legalColors s.inColors := by
  by_contra hl
  cases (if_neg hl).symm.trans h

theorem inv_ctInit (h : Inv s) (hm : legalMinCode s.inMinCode) (hc : legalColors s.inColors) : Inv (ctInit s) :=
  inv_withTable h (ctInit_tableOk hm hc) ⟨seededDict_wf _ _, seededDict_within hm hc⟩ (Nat.succ_le_succ hm.2)

theorem inv_ctClear (h : Inv s) (hr : s.status.ctRdy = true) : Inv (ctClear s) :=
  inv_withTable h (ctClear_tableOk (h.table hr)) h.memories.dict (Nat.succ_le_succ (h.table hr).minCode.2)

/-- `addEntry` grows the reader's width to 12 bits at most (R84). -/
theorem addEntry_nbits_le (q : IndexSeq) (h : s.br.nbits ≤ 12) : (addEntry q s).br.nbits ≤ 12 := by
  unfold addEntry
  split
  · exact h
  · unfold storeEntry growWidth
    split
    · next hg => exact hg.2
    · exact h

theorem inv_addEntry {q : IndexSeq} (h : Inv s) (hr : s.status.ctRdy = true)
    (hq : q.len + s.ct.endCode ≤ s.ct.nextCode + 1) : Inv (addEntry q s) := by
  have htable := addEntry_tableOk (h.table hr) hq
  obtain ⟨hwf, hwithin⟩ := addEntry_dictOk (q := q) ⟨h.memories.dict.sorted, h.memories.dict.bounded⟩
  have hn := addEntry_nbits_le q h.reader.nbits
  obtain ⟨d, size, next, lim, n, hadd⟩ := addEntry_shape q s
  rw [hadd] at htable hwf hwithin hn ⊢
  exact inv_withTable h htable ⟨hwf, hwithin⟩ hn

/-- What CT_ADD's effects store (R88). -/
theorem ctAddEffects_eq_ok {pre k : Nat} :
    ctAddEffects pre k s = .ok t ↔
      ∃ q, s.dict.read pre = some (.seq q) ∧ t = addEntry (q.snoc (BitVec.ofNat 8 k)) s := by
  simp only [← seqOf_eq_ok, ctAddEffects]
  cases seqOf s pre <;> simp [eq_comm]

/-- CT_ADD extends the sequence of a valid code that is no control code, which leaves room for one index (R82, R88). -/
theorem inv_ctAddEffects {pre k : Nat} (h : Inv s) (hr : s.status.ctRdy = true) (hv : s.ct.valid pre)
    (ht : ctAddEffects pre k s = .ok t) : Inv t := by
  obtain ⟨q, hq, rfl⟩ := ctAddEffects_eq_ok.mp ht
  have hcontrol := (h.table hr).slots.control pre
  have hnot : ¬(pre = s.ct.clearCode ∨ pre = s.ct.endCode) := fun hc => by simp [hcontrol hc] at hq
  obtain ⟨q', hq', hlen⟩ := tableOk_read_valid (h.table hr) hv (fun e => hnot (.inl e)) (fun e => hnot (.inr e))
  cases hq.symm.trans hq'
  refine inv_addEntry h hr ?_
  rw [IndexSeq.len_snoc]
  omega

/-- The CT_LOOKUP register is no part of the table. -/
theorem inv_withLookup (h : Inv s) (l : Lookup) : Inv (withLookup l s) :=
  ⟨{ h.memories with }, { h.reader with }, { h.counts with },
    fun hr => { h.table hr with slots := { (h.table hr).slots with } }, fun hr => { h.canvas hr with }, h.command⟩

/-! ### The Rasterizer's commands -/

/-- W*H fits RAST_OUTPOS: each factor has 16 bits (R24, R37). -/
theorem framePixels_lt (s : State) : s.framePixels < 2 ^ 32 :=
  Nat.mul_lt_mul'' (c := 2 ^ 16) (d := 2 ^ 16) s.frSize.w.isLt s.frSize.h.isLt

theorem inv_deinterlace (h : Inv s) (hfits : s.frameFits) (ht : deinterlace s = .ok t) : Inv t := by
  obtain ⟨heq, hw, _⟩ := deinterlace_spec ht
  rw [heq]
  exact inv_withMemories h { h.memories with raster := memoryOk_of_writesBelow h.memories.raster hw hfits }
    fun hr => { h.canvas hr with }

/-- What a decode leaves of the three units it drives, from the invariant of its loop (R85, R91, R102). -/
theorem rasterDecode_units (hl : s.decodeParamsLegal) (ht : rasterDecode s = .ok t) :
    TableOk t.ct t.dict ∧ MemoryOk t.dict Config.dictSlots ∧ t.br.nbits ≤ 12 ∧ t.br.cursor ≤ 8 * s.inLen + 11
      ∧ t.rast.outPos ≤ s.framePixels := by
  rcases rasterDecode_spec hl with ⟨u, t', _, hend, ht', heq, _⟩ | ⟨_, _, _, herr⟩
  · cases ht'.symm.trans ht
    have hloop := hend.loop
    rw [heq]
    exact ⟨hloop.table, ⟨hloop.entries.1, hloop.entries.2⟩, hloop.width_range.2, hend.cursor,
      hend.frame.pixels ▸ hloop.outPos⟩
  · cases herr.symm.trans ht

/-- A decode with legal parameters writes the reader, the table, the rasterizer, DICT and RASTER within their bounds, and
leaves the rest of the invariant alone (R105). -/
theorem inv_rasterDecode (h : Inv s) (hl : s.decodeParamsLegal) (ht : rasterDecode s = .ok t) : Inv t := by
  obtain ⟨hf, hraster⟩ := rasterDecode_frame hl ht
  obtain ⟨htable, hdict, hn, hcursor, hpos⟩ := rasterDecode_units hl ht
  have hcanvas (hr : t.status.compRdy = true) : CanvasOk t :=
    rasterDecode_canvasOk (h.canvas (hf.compRdy.symm.trans hr)) hl ht
  obtain ⟨_, _, hlen, hfits⟩ := hl
  have hcaps : t.caps = s.caps := hf.caps
  have hbrLen : t.br.len = s.inLen := hf.len
  have hm := h.memories
  have hmemories : MemoriesOk t := by
    refine ⟨?_, ?_, hdict, ?_, ?_, ?_, ?_⟩ <;>
      simp only [hcaps, hf.cdata, hf.ctab, hf.canvas, hf.prev, hf.snap]
    exacts [hm.cdata, hm.ctab, memoryOk_of_writesBelow hm.raster hraster hfits, hm.canvas, hm.prev, hm.snap]
  have hreader : ReaderOk t := ⟨hn, hbrLen ▸ hcursor, hbrLen ▸ hcaps ▸ hlen, hbrLen ▸ s.frDlen.isLt⟩
  have hcounts : CountsOk t :=
    countsOk_of_table htable (hcaps ▸ hpos.trans hfits) (hpos.trans_lt (framePixels_lt s))
  refine ⟨hmemories, hreader, hcounts, fun _ => htable, hcanvas, fun hb => ?_⟩
  have hbusy : s.busy = true := (congrArg Option.isSome hf.pending).symm.trans hb
  exact ⟨hf.done.trans (h.command hbusy).1, hf.err.trans (h.command hbusy).2⟩

/-! ### The compositor's commands -/

/-- A command of the compositor that writes CANVAS, PREV and SNAP below CW*CH only (R113 to R115). -/
theorem inv_withCanvas (h : Inv s) (hr : s.status.compRdy = true) {canvas prev snap : Memory Pixel}
    (hcanvas : Memory.WritesBelow s.canvasPixels s.canvas canvas)
    (hprev : Memory.WritesBelow s.canvasPixels s.prev prev) (hsnap : Memory.WritesBelow s.canvasPixels s.snap snap) :
    Inv { s with canvas := canvas, prev := prev, snap := snap } := by
  have hc := h.canvas hr
  have hm := h.memories
  exact inv_withMemories h
    { hm with
      canvas := memoryOk_of_writesBelow hm.canvas hcanvas hc.fits
      prev := memoryOk_of_writesBelow hm.prev hprev hc.fits
      snap := memoryOk_of_writesBelow hm.snap hsnap hc.fits }
    fun _ => canvasOk_of_writesBelow hc rfl rfl hcanvas hprev hsnap

theorem inv_compDraw (h : Inv s) (hr : s.status.compRdy = true) (ht : compDraw s = .ok t) : Inv t := by
  obtain ⟨p, cv, hcopy, hpaint, rfl⟩ := compDraw_eq_ok.mp ht
  exact inv_withCanvas h hr (paintFrame_spec hpaint).1 (copyTo_writesBelow hcopy) (.refl _ _)

theorem inv_compSnap (h : Inv s) (hr : s.status.compRdy = true) (ht : compSnap s = .ok t) : Inv t := by
  obtain ⟨p, hcopy, rfl⟩ := compSnap_eq_ok.mp ht
  exact inv_withCanvas h hr (.refl _ _) (.refl _ _) (copyTo_writesBelow hcopy)

theorem inv_compDispose (h : Inv s) (hr : s.status.compRdy = true) (ht : compDispose s = .ok t) : Inv t := by
  rcases compDispose_eq_ok.mp ht with ⟨_, rfl⟩ | ⟨_, p, hcopy, rfl⟩ | ⟨_, _, rfl⟩
  · obtain ⟨heq, hw, _⟩ := clearRectangle_spec s
    exact heq ▸ inv_withCanvas h hr hw (.refl _ _) (.refl _ _)
  · exact inv_withCanvas h hr (copyTo_writesBelow hcopy) (.refl _ _) (.refl _ _)
  · exact h

/-- COMP_RESET of a canvas that fits writes all of CANVAS, PREV and SNAP below its size (R112). -/
theorem inv_compReset (h : Inv s) (hfits : s.canvasSize.w.toNat * s.canvasSize.h.toNat ≤ s.caps.canvasMax) :
    Inv (compReset s) := by
  have hm := h.memories
  have hfill {m : Memory Pixel} (hm : MemoryOk m s.caps.canvasMax) (v : Pixel) :
      MemoryOk (m.fill (s.canvasSize.w.toNat * s.canvasSize.h.toNat) v) s.caps.canvasMax :=
    memoryOk_of_writesBelow hm (Memory.fill_writesBelow _ _ _) hfits
  exact ⟨{ hm with canvas := hfill hm.canvas 0, prev := hfill hm.prev 0, snap := hfill hm.snap 0 }, { h.reader with },
    { h.counts with }, h.table,
    fun _ => ⟨hfits, writtenBelow_fill _ _ _, writtenBelow_fill _ _ _, writtenBelow_fill _ _ _⟩, h.command⟩

/-- FRAME keeps the invariant, as its four parts do one after the other; COMP_RDY stands through them (R116). -/
theorem inv_frameEffects (h : Inv s) (hr : s.status.compRdy = true) (hl : s.decodeParamsLegal)
    (ht : frameEffects s = .ok t) : Inv t := by
  obtain ⟨t₁, h₁, t₂, h₂, t₃, h₃, h₄⟩ := frameEffects_eq_ok.mp ht
  have hr₁ : t₁.status.compRdy = true := (rasterDecode_frame hl h₁).1.compRdy.trans hr
  have hr₂ : t₂.status.compRdy = true := by
    obtain ⟨_, _, _, _, rfl⟩ := compDraw_eq_ok.mp h₂
    exact hr₁
  have hr₃ : t₃.status.compRdy = true := by
    obtain ⟨_, _, rfl⟩ := compSnap_eq_ok.mp h₃
    exact hr₂
  exact inv_compDispose (inv_compSnap (inv_compDraw (inv_rasterDecode h hl h₁) hr₁ h₂) hr₂ h₃) hr₃ h₄

/-! ### Every command, and every step -/

/-- A soft reset clears the registers and the ready flags, and keeps the memories (R118). -/
theorem inv_softReset (h : Inv s) : Inv (softReset s) :=
  ⟨{ h.memories with }, ⟨Nat.zero_le _, Nat.zero_le _, Nat.zero_le _, Nat.two_pow_pos _⟩,
    ⟨Nat.zero_le _, Nat.zero_le _, Nat.zero_le _, Nat.zero_le _, Nat.zero_le _, Nat.zero_le _, Nat.two_pow_pos _⟩,
    nofun, nofun, fun _ => ⟨rfl, rfl⟩⟩

/-- The effects of a command that has passed its checks keep the invariant. -/
theorem inv_effects {i : Instr} (h : Inv s) (hnot : refusalOf i s = none) (ht : effects i s = .ok t) : Inv t := by
  have hready (hi : i ∈ [Instr.compDraw, .compSnap, .compDispose, .frame]) : s.status.compRdy = true :=
    compositor_passed hi hnot
  cases i with
  | nop => cases ht; exact h
  | softReset => cases ht; exact inv_softReset h
  | brInit => cases ht; exact inv_brInit h (Nat.not_lt.mp (check_eq_none.mp hnot).1)
  | brSetnb nb => cases ht; exact inv_withWidth h (by have := (check_eq_none.mp hnot).1; omega)
  | brRead => exact inv_readState h ht
  | ctInit =>
    cases ht
    obtain ⟨hm, hc⟩ := ctInit_passed hnot
    exact inv_ctInit h hm hc
  | ctClear => cases ht; exact inv_ctClear h (Bool.eq_true_of_not_eq_false (check_eq_none.mp hnot).1)
  | ctAdd pre k =>
    obtain ⟨hr, hv, _⟩ := ctAdd_passed hnot
    exact inv_ctAddEffects h hr hv ht
  | ctLookup code =>
    obtain ⟨l, rfl⟩ := ctLookupEffects_eq_ok ht
    exact inv_withLookup h l
  | rastDecode => exact inv_rasterDecode h (rastDecode_passed hnot) ht
  | rastDeinterlace => exact inv_deinterlace h (Nat.not_lt.mp (check_eq_none.mp hnot).1) ht
  | compReset => cases ht; exact inv_compReset h (Nat.not_lt.mp (check_eq_none.mp hnot).1)
  | compDraw => exact inv_compDraw h (hready (by decide)) ht
  | compSnap => exact inv_compSnap h (hready (by decide)) ht
  | compDispose => exact inv_compDispose h (hready (by decide)) ht
  | frame => exact inv_frameEffects h (hready (by decide)) (frame_passed hnot) ht

/-- A command that answers, refused or completed, keeps the invariant. -/
theorem inv_exec {i : Instr} (h : Inv s) (ht : exec i s = .next t) : Inv t := by
  rcases exec_eq_next.mp ht with ⟨e, _, rfl⟩ | ⟨hnot, u, hu, rfl⟩
  · exact inv_refusedState h e
  · exact inv_doneState (inv_effects h hnot hu)

/-- The engine's turn runs the command its word decodes to, refuses a word that is none, or is idle (R17, R68). -/
theorem inv_engineTurn (h : Inv s) (ht : engineTurn s = .next t) : Inv t := by
  unfold engineTurn runWord at ht
  split at ht
  · split at ht
    · exact inv_exec h ht
    · cases ht
      exact inv_refusedState h .illegal
  · cases ht
    exact h

end

/-- Settles O59: a step is the engine's turn or the Host's, and each keeps the invariant. -/
theorem everyStepKeepsTheInvariant : Obligations.EveryStepKeepsTheInvariant := by
  intro s t h ht
  unfold step at ht
  split at ht
  · exact inv_engineTurn h ht
  · exact inv_engineTurn (inv_withTurns h _) ht
  · exact inv_hostTurn (inv_withTurns h _) ht

end Sys2Proof.Machine
end

section
/-! Proofs of the Code Table family, part 2: CT_INIT, CT_CLEAR, CT_ADD and CT_LOOKUP (41_codetable.md section 2). -/

namespace Sys2Proof.Machine

open Sys2Proof.Safety

/-! ### CT_INIT and CT_CLEAR -/

/-- Settles O30: the parameters are the only check, the effects are `ctInit`, and its DICT is `seededDict`. -/
theorem ctInitSeedsTheTable : Obligations.CtInitSeedsTheTable := by
  refine ⟨rfl, ?_⟩
  rintro s m nc rfl rfl
  constructor
  · rintro ⟨hlo, hhi, hcolors⟩
    exact ⟨seededDict s.inMinCode s.inColors, exec_of_effects (if_pos ⟨⟨hlo, hhi⟩, hcolors⟩) rfl, read_seededDict _ _⟩
  · intro hillegal
    exact exec_of_refusal (if_neg fun ⟨⟨hlo, hhi⟩, hcolors⟩ => hillegal ⟨hlo, hhi, hcolors⟩)

section
variable {s : State}

theorem exec_ctClear_ready (hr : s.status.ctRdy = true) : exec .ctClear s = .next (doneState (ctClear s)) :=
  exec_of_effects (if_neg (by simp [hr])) rfl

theorem exec_ctClear_notReady (hr : s.status.ctRdy = false) : exec .ctClear s = .next (refusedState .notInit s) :=
  exec_of_refusal (if_pos hr)

end

/-- Settles O31: CT_RDY is the only check; CT_CLEAR keeps it and the minimum code size it rewinds to, so a second one
ends in the same state. -/
theorem ctClearRewindsTheTable : Obligations.CtClearRewindsTheTable := by
  refine ⟨rfl, fun s => ⟨exec_ctClear_ready, exec_ctClear_notReady, fun t ht => ?_⟩⟩
  cases hr : s.status.ctRdy with
  | true =>
    cases (exec_ctClear_ready hr).symm.trans ht
    exact exec_ctClear_ready (s := doneState (ctClear s)) hr
  | false =>
    cases (exec_ctClear_notReady hr).symm.trans ht
    exact exec_ctClear_notReady (s := refusedState .notInit s) hr

/-! ### CT_ADD -/

/-- The fields that the growth of the width writes, at the limit and elsewhere (R84). -/
theorem growWidth_shape (s : State) :
    ∃ size lim n,
      growWidth s = { s with
        ct := { s.ct with codeSize := size, limit := lim }, br := { s.br with nbits := n } }
      ∧ if s.ct.nextCode = s.ct.limit ∧ s.ct.codeSize < 12 then
          size = s.ct.codeSize + 1 ∧ lim = 2 ^ (s.ct.codeSize + 1) - 1 ∧ n = s.ct.codeSize + 1
        else size = s.ct.codeSize ∧ lim = s.ct.limit ∧ n = s.br.nbits := by
  unfold growWidth
  split
  · exact ⟨_, _, _, rfl, rfl, rfl, rfl⟩
  · exact ⟨_, _, _, rfl, rfl, rfl, rfl⟩

/-- Both ways a code cannot be extended are one refusal (R88). -/
theorem exec_ctAdd_badCode {pre k : Nat} {s : State} (hr : s.status.ctRdy = true)
    (hbad : ¬s.ct.valid pre ∨ s.dict.read pre = some .control) :
    exec (.ctAdd pre k) s = .next (refusedState .badCode s) :=
  exec_of_refusal ((if_neg (by simp [hr])).trans (if_pos hbad))

/-- Settles O32: the two checks in R88's order; then `addEntry`, which on a full table does nothing and below it stores
the sequence of `pre` with `k` after it, at nextCode, in a width grown first at the limit. -/
theorem ctAddStoresOneEntry : Obligations.CtAddStoresOneEntry := by
  intro pre k _ _
  have hword : encode (.ctAdd pre k) = BitVec.ofNat 32 (0x22 + pre * 2 ^ 8 + k * 2 ^ 20) :=
    congrArg (BitVec.ofNat 32) (by simp only [Instr.operandBits, Instr.opcode]; omega)
  refine ⟨hword, fun s => ⟨execCtAdd_notReady k, exec_ctAdd_badCode, fun q hr hv hq => ?_⟩⟩
  have hexec : exec (.ctAdd pre k) s = .next (doneState (addEntry (q.snoc (BitVec.ofNat 8 k)) s)) :=
    execCtAdd_seq k hr hv hq
  constructor
  · intro hfull
    rw [hexec, addEntry_full _ hfull]
  · intro hlt
    obtain ⟨size, lim, n, hgrow, hcases⟩ := growWidth_shape s
    rw [hexec, addEntry_eq _ hlt, hgrow]
    exact ⟨_, size, lim, n, rfl, hcases, ⟨_, Memory.read_write_self _ _ _, IndexSeq.toList_snoc _ _⟩,
      fun c hc => Memory.read_write_of_ne _ _ hc⟩

/-! ### CT_LOOKUP -/

/-- Settles O33: CT_RDY is the only check, and `lookupOf` shows the slot of a valid code. -/
theorem ctLookupShowsOneSlot : Obligations.CtLookupShowsOneSlot := by
  intro code _
  have hword : encode (.ctLookup code) = BitVec.ofNat 32 (0x23 + code * 2 ^ 8) :=
    congrArg (BitVec.ofNat 32) (Nat.add_comm _ _)
  refine ⟨hword, fun s => ⟨execCtLookup_notReady, execCtLookup_notValid, execCtLookup_slot, fun q hr hv hq => ?_⟩⟩
  refine ⟨q.last, q.getLast?_toList, ?_⟩
  rw [q.length_toList]
  exact execCtLookup_slot hr hv hq

end Sys2Proof.Machine
end

section
/-! Proofs of the Rasterizer family, part 1: one turn of the decode loop, and the code read before it
(42_rasterizer.md sections 1 and 2). -/

namespace Sys2Proof.Machine

open Sys2Proof.Safety

/-! ### Reads -/

section
variable {s t : State} {c : Code}

theorem decodeTurn_of_oob (h : s.br.len ≤ s.br.cursor / 8) :
    decodeTurn s = .ok (.ended (s.withOob.finish .readOob)) := by
  rw [decodeTurn, readCode_oob h]

theorem decodeTurn_of_code (h : readCode s = .ok (.code c, t)) : decodeTurn s = codeStep c t := by
  rw [decodeTurn, h]

theorem decodeCodes_of_oob (h : s.br.len ≤ s.br.cursor / 8) : decodeCodes s = .ok (s.withOob.finish .readOob) := by
  rw [decodeCodes, readCode_oob h]

theorem decodeCodes_of_code (h : readCode s = .ok (.code c, t)) : decodeCodes s = decodeLoop (decodeBound t) t := by
  rw [decodeCodes, h]

/-- A read that returns a code advances the cursor by the width and shows the code in BR_DATA (R77). -/
theorem readCode_eq_code (h : readCode s = .ok (.code c, t)) :
    t = { s with br := { s.br with cursor := s.br.cursor + s.br.nbits, data := c } } := by
  rcases readCode_cases h with ⟨_, hr, _⟩ | ⟨_, _, v, _, _, hr, rfl⟩ <;> cases hr
  rfl

end

/-- Settles O39: with no data the first read is out of range; a code that is read is not looked at. -/
theorem decodeDiscardsTheLeadingCode : Obligations.DecodeDiscardsTheLeadingCode := by
  refine fun s => ⟨fun hlen => ?oob, fun c t hread => ⟨decodeCodes_of_code hread, ?code⟩⟩
  case oob =>
    have hempty : (decodeSetup s).br.len = 0 := congrArg BitVec.toNat hlen
    exact decodeCodes_of_oob (by simp [hempty])
  case code =>
    have hcursor : (decodeSetup s).br.cursor + (decodeSetup s).br.nbits = s.frCtrl.minCode.toNat + 1 := Nat.zero_add _
    rw [readCode_eq_code hread, hcursor]

/-! ### CLEAR and END -/

section
variable {s : State} {c : Code}

theorem codeStep_clear (h : c.toNat = s.ct.clearCode) : codeStep c s = .ok (.more (clearStep s)) := if_pos h

theorem codeStep_end (h : c.toNat = s.ct.endCode) : codeStep c s = .ok (.ended (s.finish .endCode)) := by
  have hne : c.toNat ≠ s.ct.clearCode := h ▸ Nat.succ_ne_self _
  rw [codeStep, if_neg hne, if_pos h]

end

/-- Settles O40: the three turns that need no sequence. -/
theorem decodeOobClearAndEnd : Obligations.DecodeOobClearAndEnd := by
  refine fun s => ⟨decodeTurn_of_oob, fun c t hread => ?_⟩
  rw [decodeTurn_of_code hread]
  exact ⟨codeStep_clear, codeStep_end⟩

/-! ### Data codes -/

/-- The state after `q` is emitted: its indices at outPos in RASTER, and outPos past them (R91). -/
def emitted (q : IndexSeq) (s : State) : State :=
  { s with
    raster := s.raster.writeAll (emitWrites s.rast.outPos q)
    rast := { s.rast with outPos := s.rast.outPos + q.len } }

/-- A code of the table at FRESH or NEXT: BAD_CODE if it is not valid; else its sequence `q` is emitted, and if it fits,
`andThen q` is done (R93). -/
def emitCode (c : Code) (andThen : IndexSeq → State → State) (s : State) : Except Fault Progress :=
  if ¬s.ct.valid c.toNat then .ok (.ended (s.finish .badCode))
  else
    match seqOf s c.toNat with
    | .error f => .error f
    | .ok q => .ok (emitOrEnd q (andThen q) s)

/-- A data code at FRESH (R95, R100). -/
theorem freshCode_eq (c : Code) (s : State) : freshCode c s = emitCode c (fun _ => takePrev c) s := rfl

/-- A code below nextCode at NEXT, after the sequence `p` (R98, R100). -/
theorem knownCode_eq (p : IndexSeq) (c : Code) (s : State) :
    knownCode p c s = emitCode c (fun q t => takePrev c (addEntry (p.snoc q.first) t)) s := rfl

section
variable {s : State} {c : Code} {p q : IndexSeq} {andThen : State → State}

theorem emitOrEnd_full (h : s.framePixels < s.rast.outPos + q.len) :
    emitOrEnd q andThen s = .ended (s.finish .outputFull) := by
  rw [emitOrEnd, emit_eq_none.mpr h]

theorem emitOrEnd_fits (h : s.rast.outPos + q.len ≤ s.framePixels) :
    emitOrEnd q andThen s = .more (andThen (emitted q s)) := by
  rw [emitOrEnd, emit_eq_some.mpr ⟨h, rfl⟩]
  rfl

/-- The raster after an emission, entry by entry (R91). -/
theorem read_emitted (q : IndexSeq) (s : State) :
    (∀ i k, q.toList[i]? = some k → (emitted q s).raster.read (s.rast.outPos + i) = some (pixelEntry k))
    ∧ ∀ j, (j < s.rast.outPos ∨ j ≥ s.rast.outPos + q.len) → (emitted q s).raster.read j = s.raster.read j :=
  ⟨fun _ _ h => read_emitWrites s.raster h, fun _ h => read_emitWrites_of_notMem s.raster h⟩

theorem codeStep_fresh (hpv : s.rast.pv = false) (hclear : c.toNat ≠ s.ct.clearCode)
    (hend : c.toNat ≠ s.ct.endCode) : codeStep c s = freshCode c s := by
  rw [codeStep, if_neg hclear, if_neg hend, if_neg (by simp [hpv])]

theorem codeStep_next (hpv : s.rast.pv = true) (hclear : c.toNat ≠ s.ct.clearCode)
    (hend : c.toNat ≠ s.ct.endCode) : codeStep c s = nextCode c s := by
  rw [codeStep, if_neg hclear, if_neg hend, if_pos hpv]

theorem emitCode_notValid {andThen : IndexSeq → State → State} (hv : ¬s.ct.valid c.toNat) :
    emitCode c andThen s = .ok (.ended (s.finish .badCode)) := if_pos hv

theorem emitCode_valid {andThen : IndexSeq → State → State} (hv : s.ct.valid c.toNat)
    (hq : s.dict.read c.toNat = some (.seq q)) : emitCode c andThen s = .ok (emitOrEnd q (andThen q) s) := by
  rw [emitCode, if_neg (not_not_intro hv), seqOf_eq_ok.mpr hq]

theorem nextCode_notValid (hv : ¬s.ct.valid s.rast.prev.toNat) : nextCode c s = .ok (.ended (s.finish .badCode)) :=
  if_pos hv

/-- At NEXT with a valid `prev` whose sequence is `p`, the code is known or new (R93). -/
theorem nextCode_valid (hv : s.ct.valid s.rast.prev.toNat) (hp : s.dict.read s.rast.prev.toNat = some (.seq p)) :
    nextCode c s = if c.toNat < s.ct.nextCode then knownCode p c s else .ok (newCode p c s) := by
  rw [nextCode, if_neg (not_not_intro hv), seqOf_eq_ok.mpr hp]

/-- The sequence to emit at NEXT, after `p`: that of a code in the table, or `p ++ [p[0]]` (R98, R99). -/
theorem nextCode_emits (hv : s.ct.valid s.rast.prev.toNat) (hp : s.dict.read s.rast.prev.toNat = some (.seq p))
    (hq : s.ct.valid c.toNat ∧ s.dict.read c.toNat = some (.seq q)
      ∨ s.ct.nextCode ≤ c.toNat ∧ q.toList = p.toList ++ [p.first]) :
    nextCode c s = .ok (emitOrEnd q (fun t => takePrev c (addEntry (p.snoc q.first) t)) s) := by
  rw [nextCode_valid hv hp]
  rcases hq with ⟨hvalid, hread⟩ | ⟨hnew, hlist⟩
  · rw [if_pos hvalid.1, knownCode_eq, emitCode_valid hvalid hread]
  · obtain rfl : q = p.snoc p.first := IndexSeq.toList_injective (by rw [hlist, IndexSeq.toList_snoc])
    rw [if_neg (Nat.not_lt.mpr hnew)]
    rfl

end

/-- Settles O41: the checks in R93's order; a sequence that fits is emitted, and no entry is added. -/
theorem decodeFreshCode : Obligations.DecodeFreshCode := by
  intro s c hpv hclear hend
  rw [codeStep_fresh hpv hclear hend, freshCode_eq]
  refine ⟨emitCode_notValid, fun q hv hq => ?_⟩
  rw [emitCode_valid hv hq, q.length_toList]
  refine ⟨fun hfull => congrArg _ (emitOrEnd_full hfull), fun hfits => ?_⟩
  rw [emitOrEnd_fits hfits]
  exact ⟨(emitted q s).raster, rfl, read_emitted q s⟩

/-- Settles O42: the checks in R93's order; the sequence of `nextCode_emits` is emitted if it fits, and `addEntry` adds
nothing to a full table and one entry below it, in a width grown first at the limit. -/
theorem decodeNextCode : Obligations.DecodeNextCode := by
  intro s c hpv hclear hend
  rw [codeStep_next hpv hclear hend]
  refine ⟨nextCode_notValid, fun p hv hp => ⟨fun hlt hgap => ?gap, fun out hout => ?data⟩⟩
  case gap => exact (nextCode_valid hv hp).trans ((if_pos hlt).trans (emitCode_notValid hgap))
  case data =>
    rw [nextCode_emits hv hp hout, out.length_toList]
    refine ⟨fun hfull => congrArg _ (emitOrEnd_full hfull), fun hfits => ?_⟩
    rw [emitOrEnd_fits hfits]
    obtain ⟨hwritten, hkept⟩ := read_emitted out s
    refine ⟨(emitted out s).raster, hwritten, hkept, fun hfull => ?_, fun hroom => ?_⟩
    · rw [addEntry_full (s := emitted out s) _ hfull]
      rfl
    · obtain ⟨size, lim, n, hgrow, hcases⟩ := growWidth_shape (emitted out s)
      rw [addEntry_eq (s := emitted out s) _ hroom, hgrow]
      exact ⟨_, size, lim, n, rfl, hcases, ⟨_, Memory.read_write_self _ _ _, IndexSeq.toList_snoc _ _⟩,
        fun j hj => Memory.read_write_of_ne _ _ hj⟩

end Sys2Proof.Machine
end

section
/-! Proofs of the Rasterizer family, part 2: the order of the rows, and RAST_DEINTERLACE (42_rasterizer.md sections 3
and 4). -/

namespace Sys2Proof.Machine

open Sys2Proof.Safety

/-! ### The order of the rows -/

theorem interlaceOrder_perm (h : Nat) : (interlaceOrder h).Perm (List.range h) :=
  (List.perm_ext_iff_of_nodup (nodup_interlaceOrder h) List.nodup_range).mpr fun _ =>
    mem_interlaceOrder.trans List.mem_range.symm

/-- The rows of `0..h-1` that leave the remainder `a` are `a`, `d + a`, `2*d + a`, ..., `n` of them. -/
theorem filter_mod_range {h d a n : Nat} (ha : a < d) (hn : ∀ k, k < n ↔ d * k + a < h) :
    (List.range h).filter (fun r => r % d = a) = (List.range n).map fun k => d * k + a := by
  have hmono : StrictMono fun k => d * k + a := fun i j hij =>
    Nat.add_lt_add_right (Nat.mul_lt_mul_of_pos_left hij (Nat.zero_lt_of_lt ha)) a
  have hleft : ((List.range h).filter fun r => r % d = a).Pairwise (· < ·) := List.pairwise_lt_range.filter _
  have hright : ((List.range n).map fun k => d * k + a).Pairwise (· < ·) :=
    List.pairwise_map.mpr (List.pairwise_lt_range.imp fun hij => hmono hij)
  refine List.Perm.eq_of_pairwise (fun i j _ _ hij hji => absurd hij (Nat.lt_asymm hji)) hleft hright ?_
  refine (List.perm_ext_iff_of_nodup (hleft.imp Nat.ne_of_lt) (hright.imp Nat.ne_of_lt)).mpr fun r => ?_
  simp only [List.mem_filter, List.mem_range, List.mem_map, decide_eq_true_eq]
  constructor
  · rintro ⟨hr, rfl⟩
    have hdiv := Nat.div_add_mod r d
    exact ⟨r / d, (hn _).mpr (by omega), hdiv⟩
  · rintro ⟨k, hk, rfl⟩
    exact ⟨(hn k).mp hk, by rw [Nat.mul_add_mod, Nat.mod_eq_of_lt ha]⟩

/-- The four passes (R103, R104). -/
theorem interlaceOrder_eq (h : Nat) :
    interlaceOrder h =
      (List.range ((h + 7) / 8)).map (fun k => 8 * k + 0) ++ (List.range ((h + 3) / 8)).map (fun k => 8 * k + 4)
        ++ (List.range ((h + 1) / 4)).map (fun k => 4 * k + 2) ++ (List.range (h / 2)).map (fun k => 2 * k + 1) := by
  rw [interlaceOrder, filter_mod_range (n := (h + 7) / 8), filter_mod_range (n := (h + 3) / 8),
    filter_mod_range (n := (h + 1) / 4), filter_mod_range (n := h / 2)] <;> omega

/-- The passes fill the frame, and pass 4 starts at `h - h div 2` (R104). -/
theorem interlacePasses_sum (h : Nat) : (h + 7) / 8 + (h + 3) / 8 + (h + 1) / 4 + h / 2 = h := by omega

/-- Settles O44: each pass is the rows of one remainder, in order. -/
theorem interlaceOrderIsAPermutationOfTheRows : Obligations.InterlaceOrderIsAPermutationOfTheRows := by
  intro h
  have hsum := interlacePasses_sum h
  refine ⟨interlaceOrder_perm h, hsum, ?_⟩
  rw [interlaceOrder_eq]
  have hlast : h - h / 2 = (h + 7) / 8 + (h + 3) / 8 + (h + 1) / 4 := by omega
  refine ⟨fun k hk => ?_, fun k hk => ?_, fun k hk => ?_, fun k hk => ?_⟩
  · simp [List.getElem?_append, hk]
  · simp [List.getElem?_append, hk]
  · simp [List.getElem?_append, Nat.add_assoc, hk]
  · rw [hlast]
    simp [Nat.add_assoc, hk]

/-! ### RAST_DEINTERLACE -/

/-- A deinterlace that answers has read every entry of the frame (R50, R103). -/
theorem written_of_deinterlace {s t : State} (h : deinterlace s = .ok t) : WrittenBelow s.raster s.framePixels := by
  intro j hj
  have hw : 0 < s.frameW := Nat.pos_of_mul_pos_right (Nat.zero_lt_of_lt hj)
  have hrow : j / s.frameW < (interlaceOrder s.frameH).length := by
    rw [length_interlaceOrder]
    exact Nat.div_lt_of_lt_mul hj
  obtain ⟨_, _, hmoved⟩ := deinterlace_spec h
  obtain ⟨e, he, _⟩ := hmoved _ _ (j % s.frameW) (List.getElem?_eq_getElem hrow) (Nat.mod_lt _ hw)
  rw [Nat.div_add_mod'] at he
  exact Option.isSome_iff_exists.mpr ⟨e, he⟩

/-- Settles O45: the size of the frame is the only check; a written frame is moved row by row (`deinterlace_spec`), and
one that is not stops the move. -/
theorem deinterlaceMovesEveryRow : Obligations.DeinterlaceMovesEveryRow := by
  refine ⟨rfl, fun s => ⟨fun hbig => exec_of_refusal (if_pos hbig), fun hfits hwritten => ?moved,
    fun hfits hnot => ?stopped⟩⟩
  case moved =>
    obtain ⟨t, ht⟩ := deinterlace_ok hwritten
    obtain ⟨heq, hbelow, hmoved⟩ := deinterlace_spec ht
    refine ⟨t.raster, heq ▸ exec_of_effects (if_neg (Nat.not_lt.mpr hfits)) ht, fun i row x hi hx => ?_,
      fun j hj => hbelow.read hj⟩
    obtain ⟨e, hsource, htarget⟩ := hmoved i row x hi hx
    rw [htarget, hsource]
  case stopped =>
    cases h : deinterlace s with
    | ok t => exact absurd (written_of_deinterlace h) hnot
    | error f =>
      obtain ⟨j, hj, hnone, rfl⟩ := deinterlace_error h
      exact ⟨j, hj, hnone, exec_eq_fault.mpr ⟨if_neg (Nat.not_lt.mpr hfits), h⟩⟩

end Sys2Proof.Machine
end

section
/-! Proofs of the Rasterizer family, part 3: RAST_DECODE as a whole (42_rasterizer.md sections 2 and 4). -/

namespace Sys2Proof.Machine

open Sys2Proof.Safety

/-! ### How RAST_DECODE ends -/

section
variable {s t : State}

theorem exec_rastDecode (hl : s.decodeParamsLegal) : exec .rastDecode s = settle (rasterDecode s) := if_pos hl

/-- What RAST_DECODE answers with legal parameters: the end of its codes, but for the order of the rows of an interlaced
frame, completed. -/
theorem exec_rastDecode_eq_next (hl : s.decodeParamsLegal) (h : exec .rastDecode s = .next t) :
    ∃ u r, decodeCodes (decodeSetup s) = .ok u ∧ DecodeEnd (decodeSetup s) u ∧ t = doneState { u with raster := r }
      ∧ (s.frCtrl.interlaced = false → r = u.raster)
      ∧ WrittenBelow r s.framePixels ∧ Memory.WritesBelow s.framePixels s.raster r := by
  obtain ⟨v, hv, rfl⟩ := settle_eq_next.mp ((exec_rastDecode hl).symm.trans h)
  rcases rasterDecode_spec hl with ⟨u, v', hcodes, hend, hv', heq, hplain, _, hwritten, hbelow⟩ | ⟨_, _, _, herr⟩
  · cases hv.symm.trans hv'
    exact ⟨u, v.raster, hcodes, hend, congrArg doneState heq, fun hi => congrArg State.raster (hplain hi),
      hwritten, hbelow⟩
  · cases hv.symm.trans herr

/-- With the data loaded RAST_DECODE answers. -/
theorem exec_rastDecode_answers (hl : s.decodeParamsLegal) (hdata : DataLoaded s) :
    ∃ t, exec .rastDecode s = .next t := by
  rcases rasterDecode_spec hl with ⟨_, t, _, _, ht, _⟩ | ⟨i, hi, hnone, _⟩
  · exact ⟨doneState t, exec_of_effects (if_pos hl) ht⟩
  · have hwritten := hdata i hi
    simp [Written, hnone] at hwritten

end

/-- Settles O35: the decode answers, its end (`DecodeEnd`) gives the clauses, and RASTER is written below W*H only. -/
theorem rastDecodeAlwaysEnds : Obligations.RastDecodeAlwaysEnds := by
  intro s hl hdata
  obtain ⟨t, ht⟩ := exec_rastDecode_answers hl hdata
  refine ⟨t, ht, ?_⟩
  obtain ⟨u, r, _, hend, rfl, _, hwritten, hbelow⟩ := exec_rastDecode_eq_next hl ht
  have hframe := hend.frame
  have hpixels : u.framePixels = s.framePixels := hframe.pixels
  exact ⟨hend.reason, hframe.err, hend.oob, hframe.brRdy, hframe.ctRdy, hframe.len, hframe.minCode, hframe.ctColors,
    hend.loop.table, hend.loop.width, hpixels ▸ hend.loop.outPos, hwritten, fun j hj => hbelow.read hj⟩

/-- Settles O36: the loop's invariant says so of the raster, which no deinterlace has moved. -/
theorem decodedRasterIsIndicesThenNone : Obligations.DecodedRasterIsIndicesThenNone := by
  intro s t hl hplain h j hj
  obtain ⟨u, r, _, hend, rfl, hr, _⟩ := exec_rastDecode_eq_next hl h
  cases hr hplain
  have hpixels : u.framePixels = s.framePixels := hend.frame.pixels
  exact ⟨hend.loop.indices j, fun ho => hend.loop.rest j ho (hpixels ▸ hj)⟩

/-! ### The bound of the decode loop -/

/-- The model stops with the read of an element never written (R50). -/
def UnwrittenFault (f : Fault) : Prop := ∃ sp j, f = .unwrittenRead sp j

section
variable {s : State} {f : Fault}

theorem fetch_unwrittenFault {α : Type} {sp : Space} {m : Memory α} {i : Nat} (h : fetch sp m i = .error f) :
    UnwrittenFault f := ⟨sp, i, (fetch_eq_error.mp h).2⟩

theorem copyTo_unwrittenFault {α : Type} {sp : Space} {src dst : Memory α} {n : Nat}
    (h : copyTo sp src dst n = .error f) : UnwrittenFault f := by
  obtain ⟨j, _, _, hf⟩ := copyTo_error h
  exact ⟨sp, j, hf⟩

theorem color_unwrittenFault {e : RasterEntry} (h : color s e = .error f) : UnwrittenFault f := by
  obtain ⟨j, _, _, hf⟩ := color_error h
  exact ⟨.ctab, j, hf⟩

theorem rasterDecode_unwrittenFault (hl : s.decodeParamsLegal) (h : rasterDecode s = .error f) : UnwrittenFault f := by
  rcases rasterDecode_spec hl with ⟨_, t, _, _, ht, _⟩ | ⟨i, _, _, herr⟩
  · cases ht.symm.trans h
  · cases herr.symm.trans h
    exact ⟨.cdata, i, rfl⟩

/-- Painting stops on what it fetches for a pixel: its raster entry, its colour or its canvas pixel (R113). -/
theorem paintPixels_unwrittenFault {ps : List (Nat × Nat)} {cv : Memory Pixel} (h : paintPixels s ps cv = .error f) :
    UnwrittenFault f := by
  induction ps generalizing cv with
  | nil => cases h
  | cons p ps ih =>
    unfold paintPixels at h
    split at h
    · next herr => cases h; exact fetch_unwrittenFault herr
    · split at h
      · next herr => cases h; exact color_unwrittenFault herr
      · split at h
        · next herr => cases h; exact fetch_unwrittenFault herr
        · exact ih h

theorem compDraw_unwrittenFault (h : compDraw s = .error f) : UnwrittenFault f := by
  unfold compDraw savePrev paintFrame at h
  split at h
  · next hcopy =>
    cases h
    split at hcopy
    · next herr => cases hcopy; exact copyTo_unwrittenFault herr
    · cases hcopy
  · split at h
    · next herr => cases h; exact paintPixels_unwrittenFault herr
    · cases h

theorem compSnap_unwrittenFault (h : compSnap s = .error f) : UnwrittenFault f := by
  unfold compSnap at h
  split at h
  · next herr => cases h; exact copyTo_unwrittenFault herr
  · cases h

theorem compDispose_unwrittenFault (h : compDispose s = .error f) : UnwrittenFault f := by
  unfold compDispose restorePrev at h
  split at h
  · cases h
  · cases h
  · cases h
  · split at h
    · next herr => cases h; exact copyTo_unwrittenFault herr
    · cases h

theorem frameEffects_unwrittenFault (hl : s.decodeParamsLegal) (h : frameEffects s = .error f) : UnwrittenFault f := by
  rcases frameEffects_eq_error.mp h with h₁ | ⟨_, _, h₂ | ⟨_, _, h₃ | ⟨_, _, h₄⟩⟩⟩
  · exact rasterDecode_unwrittenFault hl h₁
  · exact compDraw_unwrittenFault h₂
  · exact compSnap_unwrittenFault h₃
  · exact compDispose_unwrittenFault h₄

end

/-- Settles O38: with legal parameters the two commands stop on an element never written alone (`decodeCodes_spec` has
the bound), and otherwise they are refused. -/
theorem everyDecodeEnds : Obligations.EveryDecodeEnds := by
  have hbound : ¬UnwrittenFault .decodeUnbounded := nofun
  refine fun s => ⟨fun h => ?decode, fun h => ?frame⟩ <;> obtain ⟨hnot, herr⟩ := exec_eq_fault.mp h
  case decode => exact hbound (rasterDecode_unwrittenFault (rastDecode_passed hnot) herr)
  case frame => exact hbound (frameEffects_unwrittenFault (frame_passed hnot) herr)

/-! ### FR_CTRL has no part in a decode after its setup -/

/-- `s` with FR_CTRL replaced by `r`. -/
def State.withFrCtrl (s : State) (r : FrCtrl) : State := { s with frCtrl := r }

/-- The progress of a turn, with its state changed by `f`. -/
def Progress.map (f : State → State) : Progress → Progress
  | .more s => .more (f s)
  | .ended s => .ended (f s)

section
variable {s t : State} {c : Code} {p : Progress} (r : FrCtrl)

theorem readCode_withFrCtrl {x : ReadResult} (h : readCode s = .ok (x, t)) :
    readCode (s.withFrCtrl r) = .ok (x, t.withFrCtrl r) := by
  rcases readCode_cases h with ⟨hlen, rfl, rfl⟩ | ⟨hlt, win, _, hwin, rfl, rfl, rfl⟩
  · exact readCode_oob (s := s.withFrCtrl r) hlen
  · exact readCode_ok (s := s.withFrCtrl r) hlt hwin

theorem addEntry_withFrCtrl (q : IndexSeq) (s : State) :
    addEntry q (s.withFrCtrl r) = (addEntry q s).withFrCtrl r := by
  have hgrow : growWidth (s.withFrCtrl r) = (growWidth s).withFrCtrl r := by
    rw [growWidth.eq_def s, apply_ite (State.withFrCtrl · r)]
    rfl
  rw [addEntry.eq_def q s, apply_ite (State.withFrCtrl · r), addEntry, hgrow]
  rfl

theorem emitOrEnd_withFrCtrl (q : IndexSeq) {f : State → State}
    (hf : ∀ t, f (t.withFrCtrl r) = (f t).withFrCtrl r) (s : State) :
    emitOrEnd q f (s.withFrCtrl r) = (emitOrEnd q f s).map (·.withFrCtrl r) := by
  by_cases hfits : s.rast.outPos + q.len ≤ s.framePixels
  · rw [emitOrEnd_fits hfits, emitOrEnd_fits (s := s.withFrCtrl r) hfits]
    exact congrArg Progress.more (hf (emitted q s))
  · rw [emitOrEnd_full (Nat.lt_of_not_le hfits), emitOrEnd_full (s := s.withFrCtrl r) (Nat.lt_of_not_le hfits)]
    rfl

/-- What NEXT does after an emission does not look at FR_CTRL (R98, R99). -/
theorem takePrev_addEntry_withFrCtrl (c : Code) (q : IndexSeq) (t : State) :
    takePrev c (addEntry q (t.withFrCtrl r)) = (takePrev c (addEntry q t)).withFrCtrl r := by
  rw [addEntry_withFrCtrl]
  rfl

theorem emitCode_withFrCtrl {andThen : IndexSeq → State → State}
    (hthen : ∀ q t, andThen q (t.withFrCtrl r) = (andThen q t).withFrCtrl r) (h : emitCode c andThen s = .ok p) :
    emitCode c andThen (s.withFrCtrl r) = .ok (p.map (·.withFrCtrl r)) := by
  unfold emitCode at h
  split at h
  · next hv =>
    cases h
    exact emitCode_notValid (s := s.withFrCtrl r) hv
  · next hv =>
    split at h
    · cases h
    · next q hq =>
      cases h
      rw [emitCode_valid (s := s.withFrCtrl r) (not_not.mp hv) (seqOf_eq_ok.mp hq),
        emitOrEnd_withFrCtrl r q (hthen q)]

theorem nextCode_withFrCtrl (h : nextCode c s = .ok p) :
    nextCode c (s.withFrCtrl r) = .ok (p.map (·.withFrCtrl r)) := by
  by_cases hv : s.ct.valid s.rast.prev.toNat
  · cases he : seqOf s s.rast.prev.toNat with
    | error f =>
      rw [nextCode, if_neg (not_not_intro hv), he] at h
      cases h
    | ok e =>
      have hread := seqOf_eq_ok.mp he
      rw [nextCode_valid hv hread] at h
      refine (nextCode_valid (s := s.withFrCtrl r) hv hread).trans ?_
      split at h
      · next hlt =>
        rw [knownCode_eq] at h
        exact (if_pos hlt).trans (emitCode_withFrCtrl r (fun q => takePrev_addEntry_withFrCtrl r c _) h)
      · next hge =>
        cases h
        exact (if_neg hge).trans (congrArg _ (emitOrEnd_withFrCtrl r _ (takePrev_addEntry_withFrCtrl r c _) s))
  · cases (nextCode_notValid hv).symm.trans h
    exact nextCode_notValid (s := s.withFrCtrl r) hv

theorem codeStep_withFrCtrl (h : codeStep c s = .ok p) :
    codeStep c (s.withFrCtrl r) = .ok (p.map (·.withFrCtrl r)) := by
  by_cases hclear : c.toNat = s.ct.clearCode
  · cases (codeStep_clear hclear).symm.trans h
    exact codeStep_clear (s := s.withFrCtrl r) hclear
  by_cases hend : c.toNat = s.ct.endCode
  · cases (codeStep_end hend).symm.trans h
    exact codeStep_end (s := s.withFrCtrl r) hend
  cases hpv : s.rast.pv with
  | true =>
    rw [codeStep_next hpv hclear hend] at h
    exact (codeStep_next (s := s.withFrCtrl r) hpv hclear hend).trans (nextCode_withFrCtrl r h)
  | false =>
    rw [codeStep_fresh hpv hclear hend] at h
    exact (codeStep_fresh (s := s.withFrCtrl r) hpv hclear hend).trans
      (emitCode_withFrCtrl r (fun _ _ => rfl) h)

theorem decodeTurn_withFrCtrl (h : decodeTurn s = .ok p) :
    decodeTurn (s.withFrCtrl r) = .ok (p.map (·.withFrCtrl r)) := by
  unfold decodeTurn at h
  split at h
  · cases h
  · next u hread =>
    cases h
    rw [decodeTurn, readCode_withFrCtrl r hread]
    rfl
  · next c u hread =>
    rw [decodeTurn_of_code (readCode_withFrCtrl r hread)]
    exact codeStep_withFrCtrl r h

theorem decodeLoop_withFrCtrl {k : Nat} (h : decodeLoop k s = .ok t) :
    decodeLoop k (s.withFrCtrl r) = .ok (t.withFrCtrl r) := by
  induction k generalizing s with
  | zero => cases h
  | succ k ih =>
    unfold decodeLoop at h
    split at h
    · cases h
    · next hturn =>
      cases h
      rw [decodeLoop, decodeTurn_withFrCtrl r hturn]
      rfl
    · next hturn =>
      rw [decodeLoop, decodeTurn_withFrCtrl r hturn]
      exact ih h

theorem decodeCodes_withFrCtrl (h : decodeCodes s = .ok t) :
    decodeCodes (s.withFrCtrl r) = .ok (t.withFrCtrl r) := by
  unfold decodeCodes at h
  split at h
  · cases h
  · next hread =>
    cases h
    rw [decodeCodes, readCode_withFrCtrl r hread]
    rfl
  · next hread =>
    rw [decodeCodes_of_code (readCode_withFrCtrl r hread)]
    exact decodeLoop_withFrCtrl r h

end

/-! ### The decode of an interlaced frame -/

section
variable {s t : State}

/-- What a deinterlace answers: the entries gathered and written. -/
theorem deinterlace_eq_ok :
    deinterlace s = .ok t ↔
      ∃ ws, gather .raster s.raster (deinterlaceMoves s.frameW s.frameH) = .ok ws
        ∧ t = { s with raster := s.raster.writeAll ws } := by
  unfold deinterlace
  cases gather .raster s.raster (deinterlaceMoves s.frameW s.frameH) <;> simp [eq_comm]

theorem exec_rastDeinterlace (hfits : s.frameFits) : exec .rastDeinterlace s = settle (deinterlace s) :=
  if_neg (Nat.not_lt.mpr hfits)

theorem rasterDecode_interlaced (h : decodeCodes (decodeSetup s) = .ok t) (hi : t.frCtrl.interlaced = true) :
    rasterDecode s = deinterlace t := by
  rw [rasterDecode, h]
  exact if_pos hi

end

/-- Settles O37: the codes are decoded alike whatever FR_CTRL says, and the deinterlace looks at RASTER and the frame's
size alone. -/
theorem interlacedDecodeIsDecodeThenDeinterlace : Obligations.InterlacedDecodeIsDecodeThenDeinterlace := by
  intro s t u hl hi hplain hmoved
  obtain ⟨v, _, hcodes, hend, rfl, hr, _⟩ :=
    exec_rastDecode_eq_next (s := s.withFrCtrl { s.frCtrl with interlaced := false }) hl hplain
  cases hr rfl
  have hfits : v.frameFits := by
    obtain ⟨_, _, _, hfits⟩ := hl
    rw [State.frameFits, hend.frame.pixels, hend.frame.caps]
    exact hfits
  obtain ⟨w, hw, rfl⟩ := settle_eq_next.mp ((exec_rastDeinterlace (s := doneState v) hfits).symm.trans hmoved)
  obtain ⟨ws, hgather, rfl⟩ := deinterlace_eq_ok.mp hw
  have hcodes' : decodeCodes (decodeSetup s) = .ok (v.withFrCtrl s.frCtrl) := decodeCodes_withFrCtrl s.frCtrl hcodes
  have hrows : deinterlace (v.withFrCtrl s.frCtrl) =
      .ok { v.withFrCtrl s.frCtrl with raster := v.raster.writeAll ws } :=
    deinterlace_eq_ok.mpr ⟨ws, hgather, rfl⟩
  exact exec_of_effects (i := .rastDecode) (if_pos hl) ((rasterDecode_interlaced hcodes' hi).trans hrows)

end Sys2Proof.Machine
end

section
/-! Proofs of the compositor family, part 1: the colour of a pixel and its blend, and COMP_RESET, COMP_DRAW, COMP_SNAP and
COMP_DISPOSE (43_compositor.md sections 1 and 2). -/

namespace Sys2Proof.Machine

open Sys2Proof.Safety

/-! ### Colour and blend -/

/-- Bit 8 of a raster entry is NONE's mark: it is set exactly in the entries from 2^8 on (R43). -/
theorem rasterEntry_bit8 (e : RasterEntry) : e.getLsbD 8 = true ↔ 2 ^ 8 ≤ e.toNat := by
  have hlt : e.toNat < 2 ^ 9 := e.isLt
  rw [BitVec.getLsbD, Nat.testBit_eq_decide_div_mod_eq, decide_eq_true_eq]
  omega

/-- `color` as arithmetic on the entry's number: no pixel for NONE and for an index from nc on, the transparent index, and
the colours of CTAB (R107). -/
theorem color_eq (s : State) (e : RasterEntry) :
    color s e =
      if 2 ^ 8 ≤ e.toNat ∨ s.inColors ≤ e.toNat % 2 ^ 8 then .ok .nothing
      else if s.frCtrl.transp = true ∧ e.toNat % 2 ^ 8 = s.frCtrl.tidx.toNat then .ok .transparent
      else (fetch .ctab s.ctab (e.toNat % 2 ^ 8)).map .opaque := by
  have hidx : (e.extractLsb' 0 8).toNat = e.toNat % 2 ^ 8 := by simp
  simp only [color, rasterEntry_bit8, ge_iff_le, ← BitVec.toNat_inj, hidx]
  by_cases hnone : 2 ^ 8 ≤ e.toNat
  · rw [if_pos hnone, if_pos (.inl hnone)]
  · simp only [hnone, if_false, false_or]
    cases fetch .ctab s.ctab (e.toNat % 2 ^ 8) <;> rfl

/-- Settles O47: each clause picks its branch of `color_eq`. -/
theorem colorMapsEveryEntry : Obligations.ColorMapsEveryEntry := by
  rintro s e _ rfl
  rw [color_eq]
  refine ⟨fun hnone => if_pos (.inl hnone), fun _ hbeyond => if_pos (.inr hbeyond), fun hlt hactive => ?_⟩
  have hpaints : ¬(2 ^ 8 ≤ e.toNat ∨ s.inColors ≤ e.toNat % 2 ^ 8) :=
    not_or.mpr ⟨Nat.not_le.mpr hlt, Nat.not_le.mpr hactive⟩
  rw [if_neg hpaints]
  refine ⟨fun htransp => ⟨.transparent, if_pos htransp, rfl⟩, fun hopaque => ?_⟩
  rw [if_neg hopaque]
  refine ⟨fun c hc => ⟨.opaque c, ?_, rfl⟩, fun hunwritten => ?_⟩
  · rw [fetch_eq_ok.mpr hc]
    rfl
  · rw [fetch_eq_error.mpr ⟨hunwritten, rfl⟩]
    rfl

/-- An opaque source's pixel has alpha 0xFF (R45). -/
theorem alpha_opaque (c : Rgb) : (0xFF000000 ||| c.setWidth 32 : Pixel).extractLsb' 24 8 = 0xFF := by
  have hcolour : c.extractLsb' 24 8 = 0 :=
    BitVec.eq_of_toNat_eq (by rw [BitVec.extractLsb'_toNat, Nat.shiftRight_eq_zero _ _ c.isLt]; rfl)
  rw [BitVec.extractLsb'_or, BitVec.extractLsb'_setWidth_of_le (by decide), hcolour]
  rfl

/-- Settles O48: the three kinds of source, and the alpha of each that has a pixel. -/
theorem blendFollowsTheSourceAlpha : Obligations.BlendFollowsTheSourceAlpha := by
  refine ⟨fun _ => rfl, fun src p dst hp => ?_⟩
  match src, hp with
  | .transparent, rfl => exact ⟨fun halpha => absurd halpha (by decide), fun _ => rfl, .inr rfl⟩
  | .opaque c, rfl =>
    have halpha := alpha_opaque c
    exact ⟨fun _ => rfl, fun hclear => absurd (halpha.symm.trans hclear) (by decide), .inl halpha⟩

/-! ### The commands' checks -/

section
variable {i : Instr} {s : State}

/-- Without a canvas COMP_DRAW, COMP_SNAP, COMP_DISPOSE and FRAME are refused (R124). -/
theorem exec_of_noCanvas (hi : i ∈ [Instr.compDraw, .compSnap, .compDispose, .frame]) (h : s.status.compRdy = false) :
    exec i s = .next (refusedState .notInit s) := by
  simp only [List.mem_cons, List.not_mem_nil, or_false] at hi
  obtain rfl | rfl | rfl | rfl := hi <;> exact exec_of_refusal (if_pos h)

theorem compDraw_allowed (hr : s.status.compRdy = true) (hcolors : legalColors s.inColors) (hfits : s.frameFits) :
    refusalOf .compDraw s = none := by
  simp [refusalOf, hr, hcolors, hfits]

theorem compSnap_allowed (hr : s.status.compRdy = true) : refusalOf .compSnap s = none := by
  simp [refusalOf, hr]

theorem compDispose_allowed (hr : s.status.compRdy = true) : refusalOf .compDispose s = none := by
  simp [refusalOf, hr]

theorem compDraw_badParam (hr : s.status.compRdy = true) (h : ¬(legalColors s.inColors ∧ s.frameFits)) :
    refusalOf .compDraw s = some .badParam := by
  rw [not_and_or, Nat.not_le] at h
  rw [refusalOf, if_neg (by simp [hr]), if_pos h]

/-- What a command answers that passes its checks. -/
theorem exec_eq_next_of_allowed {t : State} (hnot : refusalOf i s = none) :
    exec i s = .next t ↔ ∃ u, effects i s = .ok u ∧ t = doneState u := by
  simp [exec_eq_next, hnot]

end

/-! ### The commands -/

/-- Settles O46: the three memories are filled with 0 below the size (`Memory.read_fill`), whose bound is the only check. -/
theorem compResetClearsTheCanvas : Obligations.CompResetClearsTheCanvas := by
  refine ⟨rfl, ?_⟩
  rintro s n rfl
  refine ⟨fun hle => ⟨_, _, _, exec_of_effects (if_neg (Nat.not_lt.mpr hle)) rfl, fun j hj => ?_, fun j hj => ?_⟩,
    fun hgt => exec_of_refusal (if_pos hgt)⟩
  · simp only [Memory.read_fill, if_pos hj, and_self]
  · simp only [Memory.read_fill, if_neg (Nat.not_lt.mpr hj), and_self]

/-- Settles O49: the canvas is copied to PREV (`read_copyTo`), then painted (`paintFrame_spec`). -/
theorem compDrawPaintsTheClippedFrame : Obligations.CompDrawPaintsTheClippedFrame := by
  refine ⟨rfl, fun s => ⟨exec_of_noCanvas (by decide), fun hr hillegal => exec_of_refusal (compDraw_badParam hr hillegal),
    fun hr hcolors hfits hcanvas hpaintable => ?_⟩⟩
  obtain ⟨t, hdraw⟩ := compDraw_ok hcanvas hpaintable
  obtain ⟨pv, cv, hcopy, hpaint, rfl⟩ := compDraw_eq_ok.mp hdraw
  obtain ⟨_, hpixels, hrest⟩ := paintFrame_spec hpaint
  refine ⟨cv, pv, exec_of_effects (compDraw_allowed hr hcolors hfits) hdraw, read_copyTo hcopy, ?_,
    fun j hj => hrest j fun fx fy hfx hfy hin => hj fx hfx fy hfy hin.1 hin.2⟩
  intro fx hfx fy hfy hx hy e src dst he hsrc hdst
  obtain ⟨e', src', dst', he', hsrc', hdst', hblend⟩ := hpixels fx fy hfx hfy ⟨hx, hy⟩
  cases he.symm.trans he'
  cases hsrc.symm.trans hsrc'
  cases hdst.symm.trans hdst'
  exact hblend

/-- Settles O51: a copy of the written canvas (`read_copyTo`). -/
theorem compSnapCopiesTheCanvas : Obligations.CompSnapCopiesTheCanvas := by
  refine ⟨rfl, fun s => ⟨exec_of_noCanvas (by decide), fun hr hcanvas => ?_⟩⟩
  obtain ⟨sn, hcopy⟩ := copyTo_ok (sp := .canvas) s.snap hcanvas
  exact ⟨sn, exec_of_effects (compSnap_allowed hr) (compSnap_eq_ok.mpr ⟨sn, hcopy, rfl⟩), read_copyTo hcopy⟩

/-- Settles O52: the methods of `compDispose_eq_ok`; 2 is `clearRectangle_spec`, 3 a copy of PREV. -/
theorem compDisposeAppliesTheMethod : Obligations.CompDisposeAppliesTheMethod := by
  refine ⟨rfl, fun s => ⟨exec_of_noCanvas (by decide), fun hr => ?_⟩⟩
  have hexec {t : State} (h : compDispose s = .ok t) : exec .compDispose s = .next (doneState t) :=
    exec_of_effects (compDispose_allowed hr) h
  refine ⟨fun h2 h3 => hexec (compDispose_eq_ok.mpr (.inr (.inr ⟨h2, h3, rfl⟩))), fun h2 => ?background,
    fun h3 hprev => ?previous⟩
  case background =>
    obtain ⟨_, _, hcleared, hrest⟩ := clearRectangle_spec s
    exact ⟨(clearRectangle s).canvas, hexec (compDispose_eq_ok.mpr (.inl ⟨h2, rfl⟩)),
      fun fx hfx fy hfy hx hy => hcleared fx fy hfx hfy ⟨hx, hy⟩,
      fun j hj => hrest j fun fx fy hfx hfy hin => hj fx hfx fy hfy hin.1 hin.2⟩
  case previous =>
    obtain ⟨cv, hcopy⟩ := copyTo_ok (sp := .prev) s.canvas hprev
    exact ⟨cv, hexec (compDispose_eq_ok.mpr (.inr (.inl ⟨h3, cv, hcopy, rfl⟩))), read_copyTo hcopy⟩

/-! ### A draw undone -/

/-- What COMP_DISPOSE leaves with method 3 (R115). -/
theorem compDispose_restores {s t : State} (h3 : s.frCtrl.disposal = 3) (h : compDispose s = .ok t) (j : Nat) :
    t.canvas.read j = if j < s.canvasPixels then s.prev.read j else s.canvas.read j := by
  rcases compDispose_eq_ok.mp h with ⟨h2, _⟩ | ⟨_, _, hcopy, rfl⟩ | ⟨_, hne, _⟩
  · exact absurd (h2.symm.trans h3) (by decide)
  · exact read_copyTo hcopy j
  · exact absurd h3 hne

theorem canvasPixels_eq_of_compSize {s t : State} (h : t.compSize = s.compSize) : t.canvasPixels = s.canvasPixels := by
  simp only [State.canvasPixels, State.canvasW, State.canvasH, h]

/-- PREV holds the canvas as it stood before the draw, and the draw wrote nothing from CW*CH on, so a disposal by method 3
that finds the draw's canvas and PREV gives the canvas before the draw back (R111). -/
theorem compDispose_undoes_compDraw {s t v u : State} (hdraw : compDraw s = .ok t) (hsize : v.compSize = t.compSize)
    (hcanvas : v.canvas = t.canvas) (hprev : v.prev = t.prev) (h3 : v.frCtrl.disposal = 3)
    (hdispose : compDispose v = .ok u) (j : Nat) : u.canvas.read j = s.canvas.read j := by
  obtain ⟨pv, cv, hcopy, hpaint, rfl⟩ := compDraw_eq_ok.mp hdraw
  have hpixels : v.canvasPixels = s.canvasPixels := canvasPixels_eq_of_compSize hsize
  rw [compDispose_restores h3 hdispose, hpixels, hcanvas, hprev]
  split
  · next hj => rw [read_copyTo hcopy, if_pos hj]
  · next hj => exact (paintFrame_spec hpaint).1.read (Nat.not_lt.mp hj)

/-- Settles O53: neither command is refused, and completion leaves the canvas alone. -/
theorem restorePreviousUndoesTheDraw : Obligations.RestorePreviousUndoesTheDraw := by
  intro s t u h3 hr hcolors hfits hdraw hdispose
  obtain ⟨t', hdraw', rfl⟩ := (exec_eq_next_of_allowed (compDraw_allowed hr hcolors hfits)).mp hdraw
  obtain ⟨hr', h3'⟩ : t'.status.compRdy = true ∧ t'.frCtrl.disposal = 3 := by
    obtain ⟨_, _, _, _, rfl⟩ := compDraw_eq_ok.mp hdraw'
    exact ⟨hr, h3⟩
  obtain ⟨u', hdispose', rfl⟩ := (exec_eq_next_of_allowed (compDispose_allowed (s := doneState t') hr')).mp hdispose
  exact compDispose_undoes_compDraw (v := doneState t') (u := u') hdraw' rfl rfl rfl h3' hdispose'

end Sys2Proof.Machine
end

section
/-! Proofs of the compositor family, part 2: FRAME (43_compositor.md section 2, R116; 70_reset_and_hazards.md R142). -/

namespace Sys2Proof.Machine

open Sys2Proof.Safety

/-! ### The compositor's commands do not look at BUSY and DONE -/

section
variable {s t : State}

theorem paintPixels_doneState (s : State) (ps : List (Nat × Nat)) (cv : Memory Pixel) :
    paintPixels (doneState s) ps cv = paintPixels s ps cv := by
  induction ps generalizing cv with
  | nil => rfl
  | cons p ps ih =>
    simp only [paintPixels, ih]
    rfl

theorem compDraw_doneState : compDraw (doneState s) = .ok t ↔ ∃ u, compDraw s = .ok u ∧ t = doneState u := by
  simp only [compDraw_eq_ok, paintPixels_doneState]
  constructor
  · rintro ⟨pv, cv, hcopy, hpaint, rfl⟩
    exact ⟨_, ⟨pv, cv, hcopy, hpaint, rfl⟩, rfl⟩
  · rintro ⟨_, ⟨pv, cv, hcopy, hpaint, rfl⟩, rfl⟩
    exact ⟨pv, cv, hcopy, hpaint, rfl⟩

theorem compSnap_doneState : compSnap (doneState s) = .ok t ↔ ∃ u, compSnap s = .ok u ∧ t = doneState u := by
  simp only [compSnap_eq_ok]
  constructor
  · rintro ⟨sn, hcopy, rfl⟩
    exact ⟨_, ⟨sn, hcopy, rfl⟩, rfl⟩
  · rintro ⟨_, ⟨sn, hcopy, rfl⟩, rfl⟩
    exact ⟨sn, hcopy, rfl⟩

theorem compDispose_doneState : compDispose (doneState s) = .ok t ↔ ∃ u, compDispose s = .ok u ∧ t = doneState u := by
  simp only [compDispose_eq_ok]
  constructor
  · rintro (⟨h2, rfl⟩ | ⟨h3, cv, hcopy, rfl⟩ | ⟨h2, h3, rfl⟩)
    · exact ⟨_, .inl ⟨h2, rfl⟩, rfl⟩
    · exact ⟨_, .inr (.inl ⟨h3, cv, hcopy, rfl⟩), rfl⟩
    · exact ⟨_, .inr (.inr ⟨h2, h3, rfl⟩), rfl⟩
  · rintro ⟨_, ⟨h2, rfl⟩ | ⟨h3, cv, hcopy, rfl⟩ | ⟨h2, h3, rfl⟩, rfl⟩
    · exact .inl ⟨h2, rfl⟩
    · exact .inr (.inl ⟨h3, cv, hcopy, rfl⟩)
    · exact .inr (.inr ⟨h2, h3, rfl⟩)

/-- A command of the compositor that passes its checks answers after a completed command what its effects leave. -/
theorem exec_doneState_eq_next {i : Instr} (hi : i ∈ [Instr.compDraw, .compSnap, .compDispose])
    (hnot : refusalOf i s = none) :
    exec i (doneState s) = .next t ↔ ∃ u, effects i s = .ok u ∧ t = doneState u := by
  obtain ⟨hnot', heffects⟩ : refusalOf i (doneState s) = none
      ∧ ∀ {v}, effects i (doneState s) = .ok v ↔ ∃ u, effects i s = .ok u ∧ v = doneState u := by
    simp only [List.mem_cons, List.not_mem_nil, or_false] at hi
    obtain rfl | rfl | rfl := hi
    · exact ⟨hnot, compDraw_doneState⟩
    · exact ⟨hnot, compSnap_doneState⟩
    · exact ⟨hnot, compDispose_doneState⟩
  simp only [exec_eq_next_of_allowed hnot', heffects]
  constructor
  · rintro ⟨_, ⟨u, hu, rfl⟩, rfl⟩
    exact ⟨u, hu, rfl⟩
  · rintro ⟨u, hu, rfl⟩
    exact ⟨_, ⟨u, hu, rfl⟩, rfl⟩

/-! ### The checks of FRAME's parts are passed (R116) -/

theorem frame_allowed (hr : s.status.compRdy = true) (hl : s.decodeParamsLegal) : refusalOf .frame s = none := by
  rw [refusalOf, if_neg (by simp [hr]), if_pos hl]

theorem compDraw_allowed_of_rasterDecode (hr : s.status.compRdy = true) (hl : s.decodeParamsLegal)
    (h : rasterDecode s = .ok t) : refusalOf .compDraw t = none := by
  obtain ⟨hframe, _⟩ := rasterDecode_frame hl h
  obtain ⟨_, hcolors, _, hfits⟩ := hl
  refine compDraw_allowed (hframe.compRdy.trans hr) ?_ ?_
  · rw [State.inColors, hframe.numColors]
    exact hcolors
  · rw [State.frameFits, hframe.pixels, hframe.caps]
    exact hfits

theorem compSnap_allowed_of_compDraw (hnot : refusalOf .compDraw s = none) (h : compDraw s = .ok t) :
    refusalOf .compSnap t = none := by
  obtain ⟨_, _, _, _, rfl⟩ := compDraw_eq_ok.mp h
  have hr : s.status.compRdy = true := compositor_passed (by decide) hnot
  exact compSnap_allowed hr

theorem compDispose_allowed_of_compSnap (hnot : refusalOf .compSnap s = none) (h : compSnap s = .ok t) :
    refusalOf .compDispose t = none := by
  obtain ⟨_, _, rfl⟩ := compSnap_eq_ok.mp h
  exact hnot

end

/-! ### FRAME and its four commands -/

/-- Settles O55: `frameEffects_eq_ok` has the four effects in sequence; after the decode each command passes its checks, and
does not look at what the completion before it wrote (`exec_doneState_eq_next`). -/
theorem frameIsTheFourCommandsInSequence : Obligations.FrameIsTheFourCommandsInSequence := by
  intro s u hr hl
  rw [exec_eq_next_of_allowed (frame_allowed hr hl)]
  constructor
  · rintro ⟨v, hv, rfl⟩
    obtain ⟨v₁, h₁, v₂, h₂, v₃, h₃, h₄⟩ := frameEffects_eq_ok.mp hv
    have hdraw := compDraw_allowed_of_rasterDecode hr hl h₁
    have hsnap := compSnap_allowed_of_compDraw hdraw h₂
    have hdispose := compDispose_allowed_of_compSnap hsnap h₃
    exact ⟨doneState v₁, doneState v₂, doneState v₃, exec_of_effects (if_pos hl) h₁,
      (exec_doneState_eq_next (by decide) hdraw).mpr ⟨v₂, h₂, rfl⟩,
      (exec_doneState_eq_next (by decide) hsnap).mpr ⟨v₃, h₃, rfl⟩,
      (exec_doneState_eq_next (by decide) hdispose).mpr ⟨v, h₄, rfl⟩⟩
  · rintro ⟨_, _, _, hexec₁, hexec₂, hexec₃, hexec₄⟩
    obtain ⟨v₁, h₁, rfl⟩ := (exec_eq_next_of_allowed (i := .rastDecode) (if_pos hl)).mp hexec₁
    have hdraw := compDraw_allowed_of_rasterDecode hr hl h₁
    obtain ⟨v₂, h₂, rfl⟩ := (exec_doneState_eq_next (by decide) hdraw).mp hexec₂
    have hsnap := compSnap_allowed_of_compDraw hdraw h₂
    obtain ⟨v₃, h₃, rfl⟩ := (exec_doneState_eq_next (by decide) hsnap).mp hexec₃
    have hdispose := compDispose_allowed_of_compSnap hsnap h₃
    obtain ⟨v₄, h₄, rfl⟩ := (exec_doneState_eq_next (by decide) hdispose).mp hexec₄
    exact ⟨v₄, frameEffects_eq_ok.mpr ⟨v₁, h₁, v₂, h₂, v₃, h₃, h₄⟩, rfl⟩

/-- With the data loaded the decode answers, and RASTER is written below W*H (R90, R91). -/
theorem rasterDecode_ok {s : State} (hl : s.decodeParamsLegal) (hdata : DataLoaded s) :
    ∃ t, rasterDecode s = .ok t ∧ t.status.endReason ≠ .none ∧ WrittenBelow t.raster s.framePixels := by
  obtain ⟨_, hexec, hreason, _, _, _, _, _, _, _, _, _, _, hwritten, _⟩ := rastDecodeAlwaysEnds s hl hdata
  obtain ⟨t, ht, rfl⟩ := (exec_eq_next_of_allowed (i := .rastDecode) (if_pos hl)).mp hexec
  exact ⟨t, ht, hreason, hwritten⟩

/-- Everything a draw reads of RASTER and CTAB is written when RASTER is below W*H and the colours are loaded (R113). -/
theorem paintable_of_written {s : State} (hraster : WrittenBelow s.raster s.framePixels) (hcolors : ColorsLoaded s) :
    Paintable s := by
  intro fx hfx fy hfy _
  obtain ⟨e, he⟩ := Option.isSome_iff_exists.mp (hraster _ (row_lt hfx hfy))
  obtain ⟨src, hsrc⟩ := color_ok hcolors e
  exact ⟨e, src, he, hsrc⟩

/-- COMP_DISPOSE writes CANVAS alone, and with the methods but 2 and 3 not even that (R110, R115). -/
theorem compDispose_frame {s t : State} (h : compDispose s = .ok t) :
    t.status = s.status ∧ t.prev = s.prev ∧ t.snap = s.snap
      ∧ (s.frCtrl.disposal ≠ 2 → s.frCtrl.disposal ≠ 3 → t.canvas = s.canvas) := by
  rcases compDispose_eq_ok.mp h with ⟨h2, rfl⟩ | ⟨h3, _, _, rfl⟩ | ⟨_, _, rfl⟩
  · exact ⟨rfl, rfl, rfl, fun hne => absurd h2 hne⟩
  · exact ⟨rfl, rfl, rfl, fun _ hne => absurd h3 hne⟩
  · exact ⟨rfl, rfl, rfl, fun _ _ => rfl⟩

/-- What COMP_DRAW, COMP_SNAP and COMP_DISPOSE leave one after another (R111, R113 to R115). -/
theorem drawSnapDispose_spec {s t₁ t₂ t₃ : State} (hdraw : compDraw s = .ok t₁) (hsnap : compSnap t₁ = .ok t₂)
    (hdispose : compDispose t₂ = .ok t₃) :
    t₃.status = s.status
      ∧ (∀ j < s.canvasPixels, t₃.prev.read j = s.canvas.read j)
      ∧ (s.frCtrl.disposal ≠ 2 → s.frCtrl.disposal ≠ 3 → ∀ j < s.canvasPixels, t₃.canvas.read j = t₃.snap.read j)
      ∧ (s.frCtrl.disposal = 3 → ∀ j, t₃.canvas.read j = s.canvas.read j) := by
  have hundo := compDispose_undoes_compDraw (v := t₂) (u := t₃) hdraw
  obtain ⟨pv, cv, hcopy, _, rfl⟩ := compDraw_eq_ok.mp hdraw
  obtain ⟨sn, hcopySnap, rfl⟩ := compSnap_eq_ok.mp hsnap
  obtain ⟨hstatus, hprev, hsnapKept, hcanvasKept⟩ := compDispose_frame hdispose
  refine ⟨hstatus, fun j hj => ?_, fun h2 h3 j hj => ?_, fun h3 => hundo rfl rfl rfl h3 hdispose⟩
  · rw [hprev]
    exact (read_copyTo hcopy j).trans (if_pos hj)
  · rw [hcanvasKept h2 h3, hsnapKept]
    exact ((read_copyTo hcopySnap j).trans (if_pos hj)).symm

/-- Settles O54: each part of FRAME leaves what the next one needs written, and the clauses are read off the parts. -/
theorem frameCompletes : Obligations.FrameCompletes := by
  intro s hr hl hc hdata hcolors
  obtain ⟨t₁, h₁, hreason, hraster⟩ := rasterDecode_ok hl hdata
  obtain ⟨hframe, _⟩ := rasterDecode_frame hl h₁
  have hc₁ := rasterDecode_canvasOk hc hl h₁
  have hpaintable : Paintable t₁ := by
    refine paintable_of_written (hframe.pixels ▸ hraster) ?_
    rw [ColorsLoaded, State.inColors, hframe.ctab, hframe.numColors]
    exact hcolors
  obtain ⟨t₂, h₂⟩ := compDraw_ok hc₁.canvas hpaintable
  have hc₂ := compDraw_canvasOk hc₁ h₂
  obtain ⟨t₃, h₃⟩ := compSnap_ok hc₂
  obtain ⟨t₄, h₄⟩ := compDispose_ok (compSnap_canvasOk hc₂ h₃)
  refine ⟨doneState t₄, exec_of_effects (frame_allowed hr hl)
    (frameEffects_eq_ok.mpr ⟨t₁, h₁, t₂, h₂, t₃, h₃, h₄⟩), ?_⟩
  have hpixels : t₁.canvasPixels = s.canvasPixels := canvasPixels_eq_of_compSize hframe.compSize
  have hctrl : t₁.frCtrl = s.frCtrl := hframe.frCtrl
  obtain ⟨hstatus, hprev, hsnap, hrestored⟩ := drawSnapDispose_spec h₂ h₃ h₄
  rw [hpixels, hframe.canvas] at hprev
  rw [hpixels, hctrl] at hsnap
  rw [hctrl, hframe.canvas] at hrestored
  refine ⟨?_, ?_, hprev, hsnap, hrestored⟩
  · exact fun hnone => hreason (hstatus ▸ hnone)
  · exact (congrArg Status.err hstatus).trans hframe.err

end Sys2Proof.Machine
end

section
/-! Proofs of the control family: NOP and SOFT_RESET (44_control.md section 1). -/

namespace Sys2Proof.Machine

open Sys2Proof.Safety

/-- From an idle machine a CMD write and the engine's turn run the command of the word written, on the state that has the
word latched (R15, R17). -/
theorem step_issue_then_engine {s : State} {i : Instr} {ts : List Turn} (hb : s.busy = false) (hwf : i.wellFormed = true)
    (h : s.turns = hostWr .cmd (encode i) ++ .engine :: ts) :
    ∃ t, step s = .next t ∧ step t = exec i { s.latch (encode i) with turns := ts } :=
  ⟨_, cmdWriteIssuesTheCommand s (encode i) (.engine :: ts) hb h, step_exec rfl (decode_encode hwf) (.inr rfl)⟩

theorem exec_nop (s : State) : exec .nop s = .next (doneState s) := exec_of_effects rfl rfl

theorem exec_softReset (s : State) : exec .softReset s = .next (doneState (softReset s)) := exec_of_effects rfl rfl

/-- To latch a word and complete is, on an idle machine, to set DONE and clear ERR and OVR: the word is not kept (R15,
R17). -/
theorem doneState_latch_of_idle {s : State} (hb : s.busy = false) (w : Word) :
    doneState (s.latch w) = { s with status := { s.status with done := true, err := .none, ovr := false } } := by
  have hpending : s.pending = none := Option.isNone_iff_eq_none.mp (Option.isSome_eq_false_iff.mp hb)
  simp [doneState, State.latch, hpending]

/-- Settles O22: NOP only completes, so the run is a word latched and then completed (`doneState_latch_of_idle`). -/
theorem nopOnlyCompletes : Obligations.NopOnlyCompletes := by
  refine ⟨rfl, exec_nop, fun s ts hb hturns => ?_⟩
  obtain ⟨t, hissue, hrun⟩ := step_issue_then_engine hb rfl hturns
  have hdone := doneState_latch_of_idle (s := { s with turns := ts }) hb (encode .nop)
  exact ⟨t, hissue, hrun.trans ((exec_nop _).trans (congrArg Host.Outcome.next hdone))⟩

/-- Settles O23: SOFT_RESET has no check, and its effects are `softReset`, which keeps the memories and resets the rest. -/
theorem softResetKeepsTheMemories : Obligations.SoftResetKeepsTheMemories :=
  ⟨rfl, exec_softReset⟩

end Sys2Proof.Machine
end

section
/-! Proofs of the exceptions family: the refusals of R123 to R125, and the engine's turn with no command pending
(60_exceptions.md sections 1 and 4; 10_state.md R17). -/

namespace Sys2Proof.Machine

open Sys2Proof.Safety

/-! ### What the effects of a command leave of STATUS.ERR -/

section
variable {s t : State}

theorem readState_keeps_err (h : readState (readCode s) = .ok t) : t.status.err = s.status.err := by
  obtain ⟨r, hread⟩ := readState_eq_ok.mp h
  rcases readCode_cases hread with ⟨_, _, rfl⟩ | ⟨_, _, _, _, _, _, rfl⟩
  · exact State.withOob_status_err s
  · rfl

theorem ctAddEffects_keeps_status {pre k : Nat} (h : ctAddEffects pre k s = .ok t) : t.status = s.status := by
  unfold ctAddEffects at h
  split at h
  · cases h
  · cases h
    exact addEntry_status _ s

theorem ctLookupEffects_keeps_status {code : Nat} (h : ctLookupEffects code s = .ok t) : t.status = s.status := by
  obtain ⟨l, rfl⟩ := ctLookupEffects_eq_ok h
  rfl

theorem rasterDecode_keeps_err (hl : s.decodeParamsLegal) (h : rasterDecode s = .ok t) :
    t.status.err = s.status.err :=
  (rasterDecode_frame hl h).1.err

theorem deinterlace_keeps_status (h : deinterlace s = .ok t) : t.status = s.status := by
  rw [(deinterlace_spec h).1]

theorem compDraw_keeps_status (h : compDraw s = .ok t) : t.status = s.status := by
  obtain ⟨_, _, _, _, rfl⟩ := compDraw_eq_ok.mp h
  rfl

theorem compSnap_keeps_status (h : compSnap s = .ok t) : t.status = s.status := by
  obtain ⟨_, _, rfl⟩ := compSnap_eq_ok.mp h
  rfl

theorem compDispose_keeps_status (h : compDispose s = .ok t) : t.status = s.status :=
  (compDispose_frame h).1

/-- FRAME leaves the ERR its decode leaves (R116). -/
theorem frameEffects_keeps_err (hl : s.decodeParamsLegal) (h : frameEffects s = .ok t) :
    t.status.err = s.status.err := by
  obtain ⟨t₁, hdecode, t₂, hdraw, t₃, hsnap, hdispose⟩ := frameEffects_eq_ok.mp h
  have hstatus : t.status = t₁.status := (drawSnapDispose_spec hdraw hsnap hdispose).1
  exact (congrArg Status.err hstatus).trans (rasterDecode_keeps_err hl hdecode)

end

/-- Only a refusal writes an error: what passes its checks leaves ERR alone, but for SOFT_RESET (R123). -/
theorem effects_keeps_err {i : Instr} {s t : State} (hi : i ≠ .softReset) (hnot : refusalOf i s = none)
    (h : effects i s = .ok t) : t.status.err = s.status.err := by
  cases i with
  | softReset => exact absurd rfl hi
  | nop | brInit | brSetnb | ctInit | ctClear | compReset => cases h; rfl
  | brRead => exact readState_keeps_err h
  | ctAdd => exact congrArg Status.err (ctAddEffects_keeps_status h)
  | ctLookup => exact congrArg Status.err (ctLookupEffects_keeps_status h)
  | rastDecode => exact rasterDecode_keeps_err (rastDecode_passed hnot) h
  | rastDeinterlace => exact congrArg Status.err (deinterlace_keeps_status h)
  | compDraw => exact congrArg Status.err (compDraw_keeps_status h)
  | compSnap => exact congrArg Status.err (compSnap_keeps_status h)
  | compDispose => exact congrArg Status.err (compDispose_keeps_status h)
  | frame => exact frameEffects_keeps_err (frame_passed hnot) h

/-- Settles O21: a command is refused as `refusalOf` says (`exec_of_refusal`), or completes with the ERR its effects leave. -/
theorem refusalIsPrecise : Obligations.RefusalIsPrecise := by
  refine fun i s => ⟨fun e => exec_of_refusal, fun hnot t hexec => ?_⟩
  obtain ⟨u, heffects, rfl⟩ := (exec_eq_next_of_allowed hnot).mp hexec
  split
  · next hreset =>
    subst hreset
    cases heffects
    rfl
  · next hother => exact effects_keeps_err (t := u) hother hnot heffects

/-! ### The engine's turn with no command pending -/

theorem pending_of_idle {s : State} (hb : s.busy = false) : s.pending = none :=
  Option.isNone_iff_eq_none.mp (Option.isSome_eq_false_iff.mp hb)

/-- The engine's step is enabled by BUSY alone (R17, R137). -/
theorem engineTurn_of_idle {s : State} (hb : s.busy = false) : engineTurn s = .next s := by
  simp only [engineTurn, pending_of_idle hb]

/-- Settles O8: the step is the engine's turn, with no command to run. -/
theorem idleEngineChangesNothing : Obligations.IdleEngineChangesNothing :=
  fun s ts hb hnext => (step_engine hnext).trans (engineTurn_of_idle (s := { s with turns := ts }) hb)

end Sys2Proof.Machine
end

section
/-! Proofs of the reset and hazards family, part 1: what CDATA holds past the data has no effect
(70_reset_and_hazards.md section 3; 40_bitreader.md section 1). Replacing CDATA commutes with each part of a decode:
the equations are of whole results, so that they carry faults as well as next states. -/

namespace Sys2Proof.Machine

open Sys2Proof.Safety

/-! ### Only the read of a turn looks at CDATA -/

/-- `s` with CDATA replaced by `m`. -/
def State.withCdata (s : State) (m : Memory Byte) : State := { s with cdata := m }

@[simp] theorem State.withCdata_br (s : State) (m : Memory Byte) : (s.withCdata m).br = s.br := rfl

@[simp] theorem State.withCdata_ct (s : State) (m : Memory Byte) : (s.withCdata m).ct = s.ct := rfl

@[simp] theorem State.withCdata_rast (s : State) (m : Memory Byte) : (s.withCdata m).rast = s.rast := rfl

/-- A sequence is fetched from DICT (R83). -/
@[simp] theorem seqOf_withCdata (s : State) (m : Memory Byte) (c : Nat) : seqOf (s.withCdata m) c = seqOf s c := rfl

section
variable (m : Memory Byte)

theorem addEntry_withCdata (q : IndexSeq) (s : State) : addEntry q (s.withCdata m) = (addEntry q s).withCdata m := by
  have hgrow : growWidth (s.withCdata m) = (growWidth s).withCdata m := by
    rw [growWidth.eq_def s, apply_ite (State.withCdata · m)]
    rfl
  rw [addEntry.eq_def q s, apply_ite (State.withCdata · m), addEntry, hgrow]
  rfl

/-- What NEXT does after an emission does not look at CDATA (R98, R99). -/
theorem takePrev_addEntry_withCdata (c : Code) (q : IndexSeq) (t : State) :
    takePrev c (addEntry q (t.withCdata m)) = (takePrev c (addEntry q t)).withCdata m :=
  congrArg (takePrev c) (addEntry_withCdata m q t)

theorem emitOrEnd_withCdata (q : IndexSeq) {f : State → State} (hf : ∀ t, f (t.withCdata m) = (f t).withCdata m)
    (s : State) : emitOrEnd q f (s.withCdata m) = (emitOrEnd q f s).map (·.withCdata m) := by
  by_cases hfits : s.rast.outPos + q.len ≤ s.framePixels
  · rw [emitOrEnd_fits hfits, emitOrEnd_fits (s := s.withCdata m) hfits]
    exact congrArg Progress.more (hf (emitted q s))
  · rw [emitOrEnd_full (Nat.lt_of_not_le hfits), emitOrEnd_full (s := s.withCdata m) (Nat.lt_of_not_le hfits)]
    rfl

theorem emitCode_withCdata (c : Code) {andThen : IndexSeq → State → State}
    (hthen : ∀ q t, andThen q (t.withCdata m) = (andThen q t).withCdata m) (s : State) :
    emitCode c andThen (s.withCdata m) = (emitCode c andThen s).map (Progress.map (·.withCdata m)) := by
  by_cases hv : s.ct.valid c.toNat
  · cases hq : seqOf s c.toNat with
    | error f => simp [emitCode, hv, hq, Except.map]
    | ok q => simp [emitCode, hv, hq, Except.map, emitOrEnd_withCdata m q (hthen q)]
  · rw [emitCode_notValid hv, emitCode_notValid (s := s.withCdata m) hv]
    rfl

theorem freshCode_withCdata (c : Code) (s : State) :
    freshCode c (s.withCdata m) = (freshCode c s).map (Progress.map (·.withCdata m)) :=
  emitCode_withCdata m c (fun _ _ => rfl) s

theorem knownCode_withCdata (p : IndexSeq) (c : Code) (s : State) :
    knownCode p c (s.withCdata m) = (knownCode p c s).map (Progress.map (·.withCdata m)) :=
  emitCode_withCdata m c (fun q => takePrev_addEntry_withCdata m c (p.snoc q.first)) s

theorem newCode_withCdata (p : IndexSeq) (c : Code) (s : State) :
    newCode p c (s.withCdata m) = (newCode p c s).map (·.withCdata m) :=
  emitOrEnd_withCdata m _ (takePrev_addEntry_withCdata m c (p.snoc p.first)) s

theorem nextCode_withCdata (c : Code) (s : State) :
    nextCode c (s.withCdata m) = (nextCode c s).map (Progress.map (·.withCdata m)) := by
  by_cases hv : s.ct.valid s.rast.prev.toNat
  · cases hp : seqOf s s.rast.prev.toNat with
    | error f => simp [nextCode, hv, hp, Except.map]
    | ok p =>
      by_cases hlt : c.toNat < s.ct.nextCode
      · simp [nextCode, hv, hp, hlt, knownCode_withCdata]
      · simp [nextCode, hv, hp, hlt, newCode_withCdata, Except.map]
  · rw [nextCode_notValid hv, nextCode_notValid (s := s.withCdata m) hv]
    rfl

/-- What the loop does with a code just read does not look at CDATA (R93). -/
theorem codeStep_withCdata (c : Code) (s : State) :
    codeStep c (s.withCdata m) = (codeStep c s).map (Progress.map (·.withCdata m)) := by
  by_cases hclear : c.toNat = s.ct.clearCode
  · rw [codeStep_clear hclear, codeStep_clear (s := s.withCdata m) hclear]
    rfl
  by_cases hend : c.toNat = s.ct.endCode
  · rw [codeStep_end hend, codeStep_end (s := s.withCdata m) hend]
    rfl
  cases hpv : s.rast.pv with
  | true =>
    rw [codeStep_next hpv hclear hend, codeStep_next (s := s.withCdata m) hpv hclear hend]
    exact nextCode_withCdata m c s
  | false =>
    rw [codeStep_fresh hpv hclear hend, codeStep_fresh (s := s.withCdata m) hpv hclear hend]
    exact freshCode_withCdata m c s

end

/-! ### A read looks at CDATA below BL alone -/

/-- `m` holds what CDATA of `s` holds below BL. -/
def AgreesBelowLen (s : State) (m : Memory Byte) : Prop := ∀ i < s.br.len, m.read i = s.cdata.read i

/-- A code that the loop goes on from writes no field that `DecodeFrame` names (R105). -/
theorem codeStep_frame {c : Code} {s t : State} (h : codeStep c s = .ok (.more t)) : DecodeFrame s t := by
  rcases codeStep_cases h with ⟨_, ht⟩ | ⟨_, ht, _⟩ | ⟨_, _, q, u, hu, ht⟩
  · cases ht
    exact clearStep_frame s
  · cases ht
  · rcases ht with ht | ⟨e, k, _, _, _, ht⟩ <;> cases ht
    · exact (emit_frame hu).trans (takePrev_frame c u)
    · exact (emit_frame hu).trans ((addEntry_frame _ u).trans (takePrev_frame c _))

section
variable {s t : State} {m : Memory Byte}

/-- A decode writes neither CDATA nor BL after its setup, so the agreement stands. -/
theorem AgreesBelowLen.of_frame (h : AgreesBelowLen s m) (hf : DecodeFrame s t) : AgreesBelowLen t m := by
  rw [AgreesBelowLen, hf.len, hf.cdata]
  exact h

/-- The window of a read is the same from contents that agree below BL (R76, R77). -/
theorem readCode_withCdata (h : AgreesBelowLen s m) :
    readCode (s.withCdata m) = (readCode s).map (Prod.map id (·.withCdata m)) := by
  have hwin : readerWindow (s.withCdata m) (s.br.cursor / 8) = readerWindow s (s.br.cursor / 8) :=
    readerWindow_congr h _
  by_cases hlen : s.br.len ≤ s.br.cursor / 8
  · rw [readCode_oob hlen, readCode_oob (s := s.withCdata m) hlen]
    rfl
  · simp only [readCode, State.withCdata_br, ge_iff_le, if_neg hlen, hwin]
    cases readerWindow s (s.br.cursor / 8) <;> rfl

theorem decodeTurn_withCdata (h : AgreesBelowLen s m) :
    decodeTurn (s.withCdata m) = (decodeTurn s).map (Progress.map (·.withCdata m)) := by
  rw [decodeTurn, decodeTurn, readCode_withCdata h]
  rcases readCode s with f | ⟨c | _, t⟩
  · rfl
  · exact codeStep_withCdata m c t
  · rfl

/-- Every turn keeps BL and CDATA, so the contents agree again for the next one. -/
theorem decodeLoop_withCdata (k : Nat) (h : AgreesBelowLen s m) :
    decodeLoop k (s.withCdata m) = (decodeLoop k s).map (·.withCdata m) := by
  induction k generalizing s with
  | zero => rfl
  | succ k ih =>
    rw [decodeLoop, decodeLoop, decodeTurn_withCdata h]
    cases hturn : decodeTurn s with
    | error f => rfl
    | ok p =>
      cases p with
      | ended t => rfl
      | more t =>
        obtain ⟨c, u, hread, hstep⟩ := decodeTurn_eq_more hturn
        exact ih (h.of_frame ((readCode_frame hread).trans (codeStep_frame hstep)))

theorem decodeCodes_withCdata (h : AgreesBelowLen s m) :
    decodeCodes (s.withCdata m) = (decodeCodes s).map (·.withCdata m) := by
  rw [decodeCodes, decodeCodes, readCode_withCdata h]
  rcases hread : readCode s with f | ⟨c | _, t⟩
  · rfl
  · exact decodeLoop_withCdata (decodeBound t) (h.of_frame (readCode_frame hread))
  · rfl

/-- A deinterlace moves entries of RASTER (R103). -/
theorem deinterlace_withCdata (m : Memory Byte) (s : State) :
    deinterlace (s.withCdata m) = (deinterlace s).map (·.withCdata m) := by
  have hgather : gather .raster (s.withCdata m).raster
      (deinterlaceMoves (s.withCdata m).frameW (s.withCdata m).frameH) =
    gather .raster s.raster (deinterlaceMoves s.frameW s.frameH) := rfl
  rw [deinterlace, deinterlace, hgather]
  cases gather .raster s.raster (deinterlaceMoves s.frameW s.frameH) <;> rfl

/-- The setup of a decode latches FR_DLEN as BL, and leaves CDATA (R92). -/
theorem rasterDecode_withCdata (h : ∀ i < s.frDlen.toNat, m.read i = s.cdata.read i) :
    rasterDecode (s.withCdata m) = (rasterDecode s).map (·.withCdata m) := by
  have hsetup : decodeSetup (s.withCdata m) = (decodeSetup s).withCdata m := rfl
  have hagree : AgreesBelowLen (decodeSetup s) m := h
  rw [rasterDecode, rasterDecode, hsetup, decodeCodes_withCdata hagree]
  cases decodeCodes (decodeSetup s) with
  | error f => rfl
  | ok t =>
    cases hi : t.frCtrl.interlaced with
    | true => simpa [Except.map, State.withCdata, hi] using deinterlace_withCdata m t
    | false => simp [Except.map, State.withCdata, hi]

theorem readState_withCdata (h : AgreesBelowLen s m) :
    readState (readCode (s.withCdata m)) = (readState (readCode s)).map (·.withCdata m) := by
  rw [readCode_withCdata h]
  cases readCode s <;> rfl

/-- A command whose checks do not look at the replaced CDATA, and whose effects commute with the replacement, answers in
the same state but for CDATA, or stops with the same fault. -/
theorem exec_withCdata {i : Instr} (hrefusal : refusalOf i (s.withCdata m) = refusalOf i s)
    (heffects : effects i (s.withCdata m) = (effects i s).map (·.withCdata m)) :
    (∀ t, exec i s = .next t → exec i (s.withCdata m) = .next (t.withCdata m))
      ∧ ∀ f, exec i s = .fault f → exec i (s.withCdata m) = .fault f := by
  simp only [exec_eq_next, exec_eq_fault, hrefusal, heffects]
  refine ⟨fun t ht => ?_, fun f ⟨hnot, herr⟩ => ⟨hnot, by rw [herr]; rfl⟩⟩
  rcases ht with ⟨e, he, rfl⟩ | ⟨hnot, u, hu, rfl⟩
  · exact .inl ⟨e, he, rfl⟩
  · exact .inr ⟨hnot, u.withCdata m, by rw [hu]; rfl, rfl⟩

end

/-- Settles O29: the checks of neither command look at CDATA, and the reads of both see it below BL alone, which a
decode's setup latches from FR_DLEN. -/
theorem bytesPastTheDataHaveNoEffect : Obligations.BytesPastTheDataHaveNoEffect := fun _ _ =>
  ⟨fun h => exec_withCdata (i := .rastDecode) rfl (rasterDecode_withCdata h),
    fun h => exec_withCdata (i := .brRead) rfl (readState_withCdata h)⟩

end Sys2Proof.Machine
end

section
/-! Proofs of the reset and hazards family, part 2: the state after hardware reset (70_reset_and_hazards.md section 1). -/

namespace Sys2Proof.Machine

open Sys2Proof.Safety

/-- After reset a register other than ID reads 0 (R138). -/
theorem readReg_reset {r : RegName} (h : r ≠ .id) : readReg State.reset r = 0 := by
  cases r with
  | id => exact absurd rfl h
  | _ => rfl

/-- After reset an offset that names a register other than ID, or names none, reads 0 (R18, R138). -/
theorem readRegAt_reset (i : Nat) : readRegAt State.reset i = if i = 0 then 0x4C5A5701 else 0 := by
  split
  · next hi => subst hi; rfl
  · next hi =>
    unfold readRegAt
    cases hr : regAt i with
    | none => rfl
    | some r => exact readReg_reset fun hid => hi ((offset_of_regAt hr).trans (congrArg RegName.offset hid))

/-- Settles O20: `readRegAt_reset` has the words of REG, and no memory of the reset state lists an element. -/
theorem resetIsTheStateOfHardwareReset : Obligations.ResetIsTheStateOfHardwareReset :=
  ⟨fun i _ _ => readRegAt_reset i, rfl, fun _ => ⟨rfl, rfl, rfl, rfl, rfl, rfl, rfl⟩⟩

/-- A memory with no element written is canonical, inside every capacity. -/
theorem memoryOk_nil {α : Type} (cap : Nat) : MemoryOk ([] : Memory α) cap := ⟨List.Pairwise.nil, nofun⟩

/-- Settles O58: the memories are empty, the counts are 0, and no clause about a ready unit or a busy machine applies. -/
theorem resetMeetsTheInvariant : Obligations.ResetMeetsTheInvariant where
  memories := ⟨memoryOk_nil _, memoryOk_nil _, memoryOk_nil _, memoryOk_nil _, memoryOk_nil _, memoryOk_nil _,
    memoryOk_nil _⟩
  reader := ⟨Nat.zero_le _, Nat.zero_le _, Nat.zero_le _, Nat.two_pow_pos _⟩
  counts := ⟨Nat.zero_le _, Nat.zero_le _, Nat.zero_le _, Nat.zero_le _, Nat.zero_le _, Nat.zero_le _,
    Nat.two_pow_pos _⟩
  table := nofun
  canvas := nofun
  command := nofun

end Sys2Proof.Machine
end
